-- ==== Sys2Proof/Word.lean ====
section
/-! DEFINITION. The words CORE computes on (00_scope.md R9, R11) and the eight-word value that a hash state, a digest and a
tree node each are (R13, 30_encoding.md R95). -/

namespace Sys2Proof

/-- `WORD`, 32 bits, unsigned (R9). Every register and the bus data are this wide (10_state.md R23). -/
abbrev Word := BitVec 32

/-- One byte of a window, a message or a block (R13). -/
abbrev Byte := BitVec 8

/-- The 64-bit bit count (10_state.md R28). -/
abbrev BitCount := BitVec 64

/-- Eight 32-bit words, word 0 first: a hash state `V[0..7]` (10_state.md R27), the register groups `SIO`, `DIGEST` and
`TREE_ROOT` (R34, R36, R49), and a 32-byte node value read as words (30_encoding.md R95). -/
structure Words8 where
  w0 : Word
  w1 : Word
  w2 : Word
  w3 : Word
  w4 : Word
  w5 : Word
  w6 : Word
  w7 : Word
  deriving DecidableEq, Repr, Inhabited

end Sys2Proof
end

