-- ==== Sys2Proof/Config.lean ====
section
/-! DEFINITION. What is fixed for one CORE: the sizes (00_scope.md R9), the parameters (R10) and the values the spec leaves
open, each an opaque constant without a body, so that no proof can rest on a value of it. -/

namespace Sys2Proof.Config

/-- `DIN_BYTES` (R10, D5). -/
def dinBytes : Nat := 4096

/-- The least `MAX_LEAVES` the spec admits (R10, D6). -/
def minCapacity : Nat := 100000

/-- The greatest `MAX_LEAVES` the spec admits (R10, R16). -/
def maxCapacity : Nat := 3900000

/-- FREE (log 9): how far this CORE's `MAX_LEAVES` lies above `minCapacity`. -/
opaque capacityAbove : Nat

/-- `MAX_LEAVES`, the open parameter of R10: any value from `minCapacity` to `maxCapacity` is `maxLeaves` for some value of
`capacityAbove` (log 9). -/
def maxLeaves : Nat := minCapacity + min capacityAbove (maxCapacity - minCapacity)

/-- `BLOCK_BASE`, the open parameter of R10: where the platform places the aperture. DESIGN CHOICE (log 11): a 32-bit word, for
the spec gives a platform address no width. -/
opaque blockBase : Word

/-- The platform's address of the aperture offset `off` (20_memory.md R63). CORE itself sees only offsets (10_state.md R47).
DESIGN CHOICE (log 11): the sum wraps modulo 2^32, for the spec gives a platform address no width. -/
def platformAddress (off : Word) : Word := blockBase + off

/-- The two readings of the node function that the source's words admit (42_merkle_tree.md R170, 90_conflicts.md C3). -/
inductive NodeCombine where
  /-- `combine(l, r) = hash(l ‖ r)`. -/
  | oneShot
  /-- `combine(l, r) = ser(CF(IV, l ‖ r))`, the alternative of D17. -/
  | rawCf
  deriving DecidableEq, Repr

/-- `NODE_COMBINE`: this spec's value is `ONE_SHOT` (R10, D17; log 10). -/
def nodeCombine : NodeCombine := .oneShot

/-- FREE (log 6): the value the n-th draw of a read while busy returns (60_exceptions.md R209, U6). -/
opaque freeRead : Nat → Word

/-- FREE (log 7): the byte at an address after the n-th draw, for `TMEM` slots left unspecified by an abandoned `TREE_BUILD`
(70_reset_and_hazards.md R232, U9). -/
opaque freeByte : Nat → Nat → Byte

/-- FREE (log 4): word `k` of `CTX.V` after a reset event that is the n-th draw (10_state.md R48, U8). -/
opaque freeCtxWord : Nat → Nat → Word

/-- FREE (log 4): `CTX.BITCNT` after a reset event that is the n-th draw (10_state.md R48, U8). -/
opaque freeBitCount : Nat → BitCount

/-- FREE (log 19): the `neighbor_index` the proof consumer answers when the target is present (43_proof_consumer.md R193, U5). -/
opaque freeNeighborIndex : Nat → Nat

end Sys2Proof.Config
end

