-- ==== Sys2Proof/Syntax.lean ====
section
/-! DEFINITION. The commands of CORE (30_encoding.md R92), the bus accesses its host makes (R90, 10_state.md R47), the events
that move the machine, and the statements of a host program (R104, R105). -/

namespace Sys2Proof

/-- The nine commands, one constructor per row of opcode_table.json. No command has an operand field (30_encoding.md R93). -/
inductive Instr where
  /-- `CTX_INIT`, 41_streaming_hasher.md R140. -/
  | ctxInit
  /-- `CTX_UPDATE`, R142. -/
  | ctxUpdate
  /-- `CTX_FINAL`, R148. -/
  | ctxFinal
  /-- `HASH`, R151. -/
  | hash
  /-- `COMPRESS`, 40_compression_core.md R123. -/
  | compress
  /-- `CTX_EXPORT`, 41_streaming_hasher.md R154. -/
  | ctxExport
  /-- `CTX_IMPORT`, R155. -/
  | ctxImport
  /-- `TREE_BUILD`, 42_merkle_tree.md R178. -/
  | treeBuild
  /-- `TREE_FREE`, R182. -/
  | treeFree
  deriving DecidableEq, Repr

/-- Why a 32-bit word is no command (30_encoding.md R96, R97). Either way the command is a `BAD_CMD` error completion. -/
inductive BadCmd where
  /-- `RSVD ≠ 0`. -/
  | reservedField
  /-- `RSVD = 0` and an `OPCODE` that R92 does not assign. -/
  | reservedOpcode
  deriving DecidableEq, Repr

/-- The access sizes of the bus port, in bytes (10_state.md R47). Only four bytes is legal (20_memory.md R65). -/
inductive AccessSize where
  | one
  | two
  | four
  deriving DecidableEq, Repr

/-- The request of one bus access, the request half of format `BUS` (30_encoding.md R90). -/
structure BusAccess where
  /-- Byte offset from `BLOCK_BASE`. -/
  addr : Word
  /-- 1 = write, 0 = read. -/
  we : Bool
  size : AccessSize
  /-- The data of a write; a read ignores it. -/
  wdata : Word
  deriving DecidableEq, Repr

/-- What can happen next at CORE: one host access, one turn of the engine, or one sampled power-on reset (log 1, log 18). -/
inductive Event where
  | access (a : BusAccess)
  | engineTurn
  | powerOn
  deriving DecidableEq, Repr

/-- One statement of a host program (30_encoding.md R104). -/
inductive HostStmt where
  /-- `WR off, val`. -/
  | wr (off val : Word)
  /-- `RD off`. -/
  | rd (off : Word)
  /-- `RD off == val`. -/
  | rdCheck (off val : Word)
  /-- `CMD mnemonic`. -/
  | cmd (i : Instr)
  deriving DecidableEq, Repr

/-- A pseudo-statement (30_encoding.md R105). `polls` is how many reads of `STATUS` find `BUSY = 1`: it stands for the open
`LATENCY` (log 2, log 20). -/
inductive PseudoStmt where
  | wait (polls : Nat)
  | issue (i : Instr) (polls : Nat)
  | loadMsg (bytes : List Byte)
  | loadWords (base : Word) (ws : List Word)
  | loadLeaf (slot : Nat) (value : Words8)
  deriving DecidableEq, Repr

end Sys2Proof
end

