-- ==== Sys2Proof/Machine/State.lean ====
section
/-! DEFINITION. The state of CORE as plain data (10_state.md), the reasons a step can stop, and the state right after power-on
reset (R48). -/

namespace Sys2Proof.Machine

/-- `CTX.FSM`, the context's lifecycle state (10_state.md R31). -/
inductive CtxFsm where
  /-- No context exists. -/
  | uninit
  /-- Created and accepting updates. -/
  | active
  /-- Consumed by final. -/
  | finalized
  deriving DecidableEq, Repr

/-- The error codes a completion leaves in `STATUS.ERRCODE` (60_exceptions.md R201). -/
inductive ErrCode where
  | ok
  | badCmd
  | ctxState
  | lenRange
  | treeEmpty
  | treeOvercap
  | treeExists
  | treeNone
  | importAlign
  deriving DecidableEq, Repr

/-- The engine state machine (10_state.md R45): `IDLE`, or `EXEC` with the latched command word (30_encoding.md R91). -/
inductive Engine where
  | idle
  | exec (op : Word)
  deriving DecidableEq, Repr

/-- `resp` of the bus port (10_state.md R47). -/
inductive Resp where
  | okay
  | busErr
  deriving DecidableEq, Repr

/-- The answer half of format `BUS` (30_encoding.md R90): `resp`, and `rdata` where the access was a read. -/
structure BusResponse where
  resp : Resp
  rdata : Option Word
  deriving DecidableEq, Repr

/-- A hasher context (10_state.md R27 to R30): the chaining state `V`, the bit count, and the bytes `BUF[0..BUFLEN)`. Bytes of
`BUF` at and above `BUFLEN` hold no value (R29), so `BUFLEN` is the length of `buf` (log 5). -/
structure Hasher where
  v : Words8
  bitcnt : BitCount
  buf : List Byte
  deriving DecidableEq, Repr

/-- The windows' bytes that have been written, each with its bus offset (10_state.md R42, R43; 20_memory.md R63), in the
canonical form `Memory.wf`. An offset that is not listed has no value (log 8). -/
abbrev Memory := List Host.Cell

/-- The whole state of CORE (10_state.md), and the model's own `script` and `draws`. -/
structure State where
  /-- `STATUS.BUSY` and the latched command word (R45). -/
  engine : Engine
  /-- `STATUS.DONE` (R25). -/
  done : Bool
  /-- `STATUS.ERRCODE` (R25). -/
  errcode : ErrCode
  /-- `CTRL.IRQ_EN` (R26). -/
  irqEn : Bool
  /-- `LEN` (R33). -/
  len : Word
  /-- `SIO[0..7]` (R34). -/
  sio : Words8
  /-- `CIO_LO` (R35). -/
  cioLo : Word
  /-- `CIO_HI` (R35). -/
  cioHi : Word
  /-- `DIGEST[0..7]` (R36). -/
  digest : Words8
  /-- `STATUS.TREE_VALID` (R41). -/
  treeValid : Bool
  /-- `TREE_N` (R37). -/
  treeN : Word
  /-- `TREE_DEPTH` (R38). -/
  treeDepth : Word
  /-- `TREE_ROOT[0..7]` (R49). -/
  treeRoot : Words8
  /-- `CTX.FSM` (R31). -/
  fsm : CtxFsm
  /-- `CTX.V`, `CTX.BITCNT`, `CTX.BUF`, `CTX.BUFLEN` (R27 to R30). -/
  ctx : Hasher
  /-- The `DIN` and `TMEM` windows (R42, R43). -/
  mem : Memory
  /-- The bus port's answer to the last access; none where no access has been answered since power-on (R47, log 12). -/
  busResp : Option BusResponse
  /-- The model's own: the events still to come, in order (log 1). -/
  script : List Event
  /-- The model's own: how many free values have been drawn (log 6). -/
  draws : Nat
  deriving DecidableEq, Repr

/-- Why a step can end in a fault. -/
inductive Fault where
  /-- `UNWRITTEN_READ` (60_exceptions.md R220): raised by a host read, while idle (log 22), of a window word, or by an engine read
  of a message, a block or a leaf, of which some byte has not been written since power-on. Safe: the spec asks for this stop. -/
  | unwrittenRead
  deriving DecidableEq, Repr

/-- Why a step can be refused. -/
inductive Refusal where
  /-- Raised only by an arm of `exec` for a command that has no meaning yet; every command has one, so nothing raises it.
  Safe. -/
  | notModelled (mnemonic : String)
  deriving DecidableEq, Repr

/-- Eight zero words, the reset value of `SIO`, `DIGEST` and `TREE_ROOT` (10_state.md R48). -/
def zeroWords : Words8 := ⟨0, 0, 0, 0, 0, 0, 0, 0⟩

/-- The machine right after power-on reset (10_state.md R48). `ctx.v` and `ctx.bitcnt` have no value in the spec: DESIGN
CHOICE zero (log 4). `busResp`, `script` and `draws`: DESIGN CHOICE (log 12, log 1, log 6). -/
def State.reset : State where
  engine := .idle
  done := false
  errcode := .ok
  irqEn := false
  len := 0
  sio := zeroWords
  cioLo := 0
  cioHi := 0
  digest := zeroWords
  treeValid := false
  treeN := 0
  treeDepth := 0
  treeRoot := zeroWords
  fsm := .uninit
  ctx := ⟨zeroWords, 0, []⟩
  mem := []
  busResp := none
  script := []
  draws := 0

end Sys2Proof.Machine
end

