-- ==== Sys2Proof/Machine/Flags.lean ====
section
/-! DEFINITION. The status flags of CORE: the fields of `STATUS` (10_state.md R25, R46) and the interrupt output
(60_exceptions.md R207). CORE has no condition codes (R46). -/

namespace Sys2Proof.Machine

/-- The value of `STATUS.ERRCODE` (60_exceptions.md R201). -/
def ErrCode.toByte : ErrCode → BitVec 8
  | .ok => 0x00
  | .badCmd => 0x01
  | .ctxState => 0x02
  | .lenRange => 0x03
  | .treeEmpty => 0x04
  | .treeOvercap => 0x05
  | .treeExists => 0x06
  | .treeNone => 0x07
  | .importAlign => 0x08

/-- The value of `STATUS.FSM` (10_state.md R31). -/
def CtxFsm.toBits : CtxFsm → BitVec 2
  | .uninit => 0
  | .active => 1
  | .finalized => 2

/-- `STATUS.BUSY` (10_state.md R45). -/
def State.busy (s : State) : Bool :=
  match s.engine with
  | .idle => false
  | .exec _ => true

/-- `CTX.BUFLEN`, 7 bits (10_state.md R30). -/
def State.buflen (s : State) : BitVec 7 := BitVec.ofNat 7 s.ctx.buf.length

/-- `STATUS.ERR` reads as `ERRCODE ≠ 0` (10_state.md R25). -/
def State.err (s : State) : Bool := s.errcode.toByte != 0

/-- The word a read of `STATUS` returns: reserved [31:22], `BUFLEN` [21:16], `ERRCODE` [15:8], reserved [7], `TREE_VALID` [6],
`FSM` [5:4], reserved [3], `ERR` [2], `DONE` [1], `BUSY` [0] (10_state.md R25). -/
def State.statusWord (s : State) : Word :=
  (0 : BitVec 10) ++ s.buflen.extractLsb' 0 6 ++ s.errcode.toByte ++ (0 : BitVec 1) ++ BitVec.ofBool s.treeValid ++
    s.fsm.toBits ++ (0 : BitVec 1) ++ BitVec.ofBool s.err ++ BitVec.ofBool s.done ++ BitVec.ofBool s.busy

/-- The word a read of `CTRL` returns: `IRQ_EN` in bit 0, everything else 0 (10_state.md R26). -/
def State.ctrlWord (s : State) : Word := (BitVec.ofBool s.irqEn).setWidth 32

/-- The interrupt output, `irq = STATUS.DONE & CTRL.IRQ_EN` (60_exceptions.md R207). -/
def State.irq (s : State) : Bool := s.done && s.irqEn

end Sys2Proof.Machine
end

