-- ==== Sys2Proof/WellFormed.lean ====
section
/-! DEFINITION. When the terms of Syntax and the parameters of Config are well formed. -/

namespace Sys2Proof

/-- Every command is well formed: it has no register field and no immediate (30_encoding.md R93). -/
def Instr.wf : Instr → Bool
  | .ctxInit => true
  | .ctxUpdate => true
  | .ctxFinal => true
  | .hash => true
  | .compress => true
  | .ctxExport => true
  | .ctxImport => true
  | .treeBuild => true
  | .treeFree => true

/-- A command word keeps its reserved field [31:8] zero (30_encoding.md R90). -/
def cmdWordWf (w : Word) : Bool := w.extractLsb' 8 24 == 0

/-- A bus access is four bytes wide and 4-byte aligned (20_memory.md R64, R65). -/
def BusAccess.wf (a : BusAccess) : Bool := a.size == .four && a.addr.extractLsb' 0 2 == 0

/-- The bound on `MAX_LEAVES` (00_scope.md R10). -/
def capacityWf (n : Nat) : Bool := decide (Config.minCapacity ≤ n) && decide (n ≤ Config.maxCapacity)

/-- The bound on `DIN_BYTES`: a multiple of 64, at most 65536 (00_scope.md R10). -/
def dinBytesWf (n : Nat) : Bool := n % 64 == 0 && decide (n ≤ 65536)

/-- A statement of a host program names an aligned offset (30_encoding.md R104, 20_memory.md R64). -/
def HostStmt.wf : HostStmt → Bool
  | .wr off _ => off.extractLsb' 0 2 == 0
  | .rd off => off.extractLsb' 0 2 == 0
  | .rdCheck off _ => off.extractLsb' 0 2 == 0
  | .cmd i => i.wf

/-- A pseudo-statement fits its window: a message fits `DIN`, a leaf index lies below the greatest capacity, the base of a run
of words is aligned (30_encoding.md R105, 00_scope.md R10). -/
def PseudoStmt.wf : PseudoStmt → Bool
  | .wait _ => true
  | .issue i _ => i.wf
  | .loadMsg bytes => decide (bytes.length ≤ Config.dinBytes)
  | .loadWords base _ => base.extractLsb' 0 2 == 0
  | .loadLeaf slot _ => decide (slot < Config.maxCapacity)

end Sys2Proof
end

