-- ==== Sys2Proof/Decode.lean ====
section
/-! DEFINITION. Decoding a 32-bit command word (30_encoding.md R90, R92, R96, R97), total on every word, and the encoder. -/

namespace Sys2Proof

/-- `OPCODE`, bits [7:0] of a command word (30_encoding.md R90). -/
def opcodeField (w : Word) : BitVec 8 := w.extractLsb' 0 8

/-- `RSVD`, bits [31:8] of a command word (30_encoding.md R90). -/
def reservedField (w : Word) : BitVec 24 := w.extractLsb' 8 24

/-- The opcode map of 30_encoding.md R92. -/
def decodeOpcode (op : BitVec 8) : Option Instr :=
  match op.toNat with
  | 0x01 => some .ctxInit
  | 0x02 => some .ctxUpdate
  | 0x03 => some .ctxFinal
  | 0x04 => some .hash
  | 0x05 => some .compress
  | 0x06 => some .ctxExport
  | 0x07 => some .ctxImport
  | 0x10 => some .treeBuild
  | 0x11 => some .treeFree
  | _ => none

/-- `execute`'s decoding (30_encoding.md R96): each 32-bit word is exactly one command or is rejected by name. -/
def decode (w : Word) : Except BadCmd Instr :=
  if reservedField w = 0 then
    match decodeOpcode (opcodeField w) with
    | some i => .ok i
    | none => .error .reservedOpcode
  else .error .reservedField

/-- `OPCODE` of each command (30_encoding.md R92). -/
def Instr.opcode : Instr → BitVec 8
  | .ctxInit => 0x01
  | .ctxUpdate => 0x02
  | .ctxFinal => 0x03
  | .hash => 0x04
  | .compress => 0x05
  | .ctxExport => 0x06
  | .ctxImport => 0x07
  | .treeBuild => 0x10
  | .treeFree => 0x11

/-- The full command word, `zext_32(OPCODE)` (30_encoding.md R92). -/
def encode (i : Instr) : Word := i.opcode.setWidth 32

/-- The command word that `w`'s low `nbits` bits are, the rest zero. -/
def tableWord (nbits w : Nat) : Word := BitVec.ofNat 32 (w % 2 ^ nbits)

/-- The command the decoder reads from a word numbered as opcode_table.json numbers it; a command is exactly one 32-bit word
(30_encoding.md R90). -/
def decodeTableWord (nbits w : Nat) : Option Instr :=
  match decode (tableWord nbits w) with
  | .ok i => some i
  | .error _ => none

end Sys2Proof
end

