-- ==== Sys2Proof/Machine/Bytes.lean ====
section
/-! DEFINITION. Words and byte strings (00_scope.md R12, R13): cyclic rotation, big-endian serialisation and its inverse. -/

namespace Sys2Proof

/-- Word `k` of eight. -/
def Words8.get (d : Words8) : Fin 8 → Word
  | 0 => d.w0
  | 1 => d.w1
  | 2 => d.w2
  | 3 => d.w3
  | 4 => d.w4
  | 5 => d.w5
  | 6 => d.w6
  | 7 => d.w7

/-- The eight words with word `k` replaced. -/
def Words8.set (d : Words8) (k : Fin 8) (w : Word) : Words8 :=
  match k with
  | 0 => { d with w0 := w }
  | 1 => { d with w1 := w }
  | 2 => { d with w2 := w }
  | 3 => { d with w3 := w }
  | 4 => { d with w4 := w }
  | 5 => { d with w5 := w }
  | 6 => { d with w6 := w }
  | 7 => { d with w7 := w }

/-- Word-by-word XOR (40_compression_core.md R124). -/
def Words8.xor (a b : Words8) : Words8 :=
  ⟨a.w0 ^^^ b.w0, a.w1 ^^^ b.w1, a.w2 ^^^ b.w2, a.w3 ^^^ b.w3, a.w4 ^^^ b.w4, a.w5 ^^^ b.w5, a.w6 ^^^ b.w6, a.w7 ^^^ b.w7⟩

/-- The first eight of a list of words, missing ones zero. -/
def Words8.ofList (ws : List Word) : Words8 :=
  ⟨ws.getD 0 0, ws.getD 1 0, ws.getD 2 0, ws.getD 3 0, ws.getD 4 0, ws.getD 5 0, ws.getD 6 0, ws.getD 7 0⟩

end Sys2Proof

namespace Sys2Proof.Machine

/-- `rotl(x, n)`: cyclic left rotation by `n mod 32` (00_scope.md R12). For `n mod 32 = 0` the right shift by 32 gives 0, so
the result is `x`. -/
def rotl (x : Word) (n : Nat) : Word := (x <<< (n % 32)) ||| (x >>> (32 - n % 32))

/-- `be32`: the big-endian word of four bytes (R13). -/
def be32 (b0 b1 b2 b3 : Byte) : Word := b0 ++ b1 ++ b2 ++ b3

/-- `bytes32`: a word's four bytes, most significant first (R13). -/
def bytes32 (w : Word) : List Byte :=
  [w.extractLsb' 24 8, w.extractLsb' 16 8, w.extractLsb' 8 8, w.extractLsb' 0 8]

/-- `bytes64`: the 8 bytes of a 64-bit value, most significant first (R13). -/
def bytes64 (c : BitCount) : List Byte := bytes32 (c.extractLsb' 32 32) ++ bytes32 (c.extractLsb' 0 32)

/-- A byte string read as big-endian words, four bytes a word; one to three bytes left over make no word (R13). -/
def bytesToWords : List Byte → List Word
  | b0 :: b1 :: b2 :: b3 :: rest => be32 b0 b1 b2 b3 :: bytesToWords rest
  | _ => []

/-- `ser(V)`: the 32 bytes of eight words (R13). -/
def ser (v : Words8) : List Byte :=
  bytes32 v.w0 ++ bytes32 v.w1 ++ bytes32 v.w2 ++ bytes32 v.w3 ++ bytes32 v.w4 ++ bytes32 v.w5 ++ bytes32 v.w6 ++
    bytes32 v.w7

/-- `words(D)`: the eight words of a 32-byte string, the inverse of `ser` (R13). -/
def words (d : List Byte) : Words8 := Words8.ofList (bytesToWords d)

end Sys2Proof.Machine
end

