-- ==== Sys2Proof/Machine/Ops.lean ====
section
/-! DEFINITION. The named operations every command is written over: the windows' bytes, issue and completion of a command
(the error completion is this block's way of taking an exception, 60_exceptions.md §2), and the resets. -/

namespace Sys2Proof.Machine

/-! ## The windows -/

/-- `DIN_BASE` (20_memory.md R63). -/
def dinBase : Nat := 0x00010000

/-- `TMEM_BASE` (20_memory.md R63). -/
def tmemBase : Nat := 0x01000000

/-- The bus offset of node slot `slot` (20_memory.md R63, 42_merkle_tree.md R177). -/
def slotAddr (slot : Nat) : Nat := tmemBase + 32 * slot

/-- The canonical form: addresses strictly rising (no listed byte can equal what an unlisted one reads as, since an unlisted
byte has no value; log 8). -/
def Memory.wf : Memory → Bool
  | [] => true
  | [_] => true
  | c :: d :: rest => decide (c.1 < d.1) && Memory.wf (d :: rest)

/-- The byte at a bus offset, or none where no byte has been written there (10_state.md R42, R43). -/
def Memory.read : Memory → Nat → Option Byte
  | [], _ => none
  | c :: rest, a => if c.1 = a then some c.2 else Memory.read rest a

/-- Stores one byte, keeping the canonical form. -/
def Memory.write : Memory → Nat → Byte → Memory
  | [], a, b => [(a, b)]
  | c :: rest, a, b =>
    if a < c.1 then (a, b) :: c :: rest
    else if c.1 = a then (a, b) :: rest
    else c :: Memory.write rest a b

/-- `MemRead`: `n` bytes from offset `a` on, or none where one of them has not been written (00_scope.md R14). -/
def Memory.readBytes (m : Memory) : Nat → Nat → Option (List Byte)
  | _, 0 => some []
  | a, n + 1 =>
    match Memory.read m a, Memory.readBytes m (a + 1) n with
    | some b, some bs => some (b :: bs)
    | _, _ => none

/-- `MemWrite`: stores a byte string from offset `a` on (00_scope.md R14). -/
def Memory.writeBytes : Memory → Nat → List Byte → Memory
  | m, _, [] => m
  | m, a, b :: bs => Memory.writeBytes (Memory.write m a b) (a + 1) bs

/-- Every written byte at or above `lo` takes a free value; which bytes are written stays (70_reset_and_hazards.md R232, U9;
log 7). -/
def Memory.havocFrom (lo draw : Nat) (m : Memory) : Memory :=
  m.map fun c => if lo ≤ c.1 then (c.1, Config.freeByte draw c.1) else c

/-! ## Issue and completion -/

/-- Issuing a command (30_encoding.md R91). -/
def issue (w : Word) (s : State) : State :=
  { s with engine := .exec w, done := false, errcode := .ok }

/-- What every completion does to `STATUS` (60_exceptions.md R203, R204). -/
def finish (code : ErrCode) (s : State) : State :=
  { s with engine := .idle, done := true, errcode := code }

/-- `raise CmdError(code)`: the error completion, with no other effect (60_exceptions.md R203). -/
def completeError (code : ErrCode) (s : State) : Host.Outcome State Fault Refusal :=
  .next (finish code s)

/-- The successful completion; `s` already has the command's effects (60_exceptions.md R204). There is no return operation:
after any completion the engine is idle (R211). -/
def completeOk (s : State) : Host.Outcome State Fault Refusal :=
  .next (finish .ok s)

/-! ## Reset -/

/-- The hidden context after a reset event: `BUFLEN = 0`, the rest free (10_state.md R48, U8; log 4). -/
def freeHasher (draw : Nat) : Hasher where
  v := ⟨Config.freeCtxWord draw 0, Config.freeCtxWord draw 1, Config.freeCtxWord draw 2, Config.freeCtxWord draw 3,
    Config.freeCtxWord draw 4, Config.freeCtxWord draw 5, Config.freeCtxWord draw 6, Config.freeCtxWord draw 7⟩
  bitcnt := Config.freeBitCount draw
  buf := []

/-- The registers and fields at their reset values (10_state.md R48), which both resets share (70_reset_and_hazards.md R230). -/
def resetRegisters (s : State) : State :=
  { s with
    engine := .idle
    done := false
    errcode := .ok
    irqEn := false
    len := 0
    sio := zeroWords
    cioLo := 0
    cioHi := 0
    digest := zeroWords
    treeValid := false
    treeN := 0
    treeDepth := 0
    treeRoot := zeroWords
    fsm := .uninit
    ctx := freeHasher s.draws
    draws := s.draws + 1 }

/-- Whether a reset now would abandon a `TREE_BUILD` (70_reset_and_hazards.md R232). -/
def buildInFlight (s : State) : Bool :=
  match s.engine with
  | .idle => false
  | .exec op =>
    match decode op with
    | .ok .treeBuild => true
    | _ => false

/-- The windows after a soft reset: preserved, but for the slots at or above `LEN` where a `TREE_BUILD` is abandoned
(70_reset_and_hazards.md R232; log 7). -/
def memAfterSoftReset (s : State) : Memory :=
  if buildInFlight s then Memory.havocFrom (slotAddr s.len.toNat) s.draws s.mem else s.mem

/-- Soft reset (70_reset_and_hazards.md R231). -/
def softReset (s : State) : State :=
  { resetRegisters s with mem := memAfterSoftReset s }

/-- Power-on reset: the windows are unwritten again (70_reset_and_hazards.md R230). -/
def powerOnReset (s : State) : State :=
  { resetRegisters s with mem := [], busResp := none }

end Sys2Proof.Machine
end

