-- ==== Sys2Proof/Machine/Operands.lean ====
section
/-! DEFINITION. Assembling a command's operands (30_encoding.md R94). Every operand is a fixed register or window (R93). -/

namespace Sys2Proof.Machine

/-- `CIO = CIO_HI · 2^32 + CIO_LO` (30_encoding.md R94). -/
def State.cio (s : State) : BitCount := s.cioHi ++ s.cioLo

/-- `BITCNT[31:0]`, for `CIO_LO` (30_encoding.md R94). -/
def countLow (c : BitCount) : Word := c.extractLsb' 0 32

/-- `BITCNT[63:32]`, for `CIO_HI` (30_encoding.md R94). -/
def countHigh (c : BitCount) : Word := c.extractLsb' 32 32

/-- The message operand: `MemRead(DIN, 0, LEN)` (20_memory.md R72). -/
def readMessage (s : State) : Option (List Byte) := Memory.readBytes s.mem dinBase s.len.toNat

/-- The block operand: `MemRead(DIN, 0, 64)` (20_memory.md R72). -/
def readBlock (s : State) : Option (List Byte) := Memory.readBytes s.mem dinBase 64

/-- The node in a slot: the slot's 32 bytes as words (30_encoding.md R94). -/
def readNode (m : Memory) (slot : Nat) : Option Words8 :=
  match Memory.readBytes m (slotAddr slot) 32 with
  | some bs => some (words bs)
  | none => none

/-- The nodes in `count` slots from `slot` on. -/
def readNodes (m : Memory) : Nat → Nat → Option (List Words8)
  | _, 0 => some []
  | slot, count + 1 =>
    match readNode m slot, readNodes m (slot + 1) count with
    | some x, some xs => some (x :: xs)
    | _, _ => none

/-- `MemWrite(TMEM, 32·slot, 32, ser x)` (20_memory.md R72). -/
def writeNode (m : Memory) (slot : Nat) (x : Words8) : Memory := Memory.writeBytes m (slotAddr slot) (ser x)

/-- Stores nodes in the slots from `slot` on, in order. -/
def writeNodes : Memory → Nat → List Words8 → Memory
  | m, _, [] => m
  | m, slot, x :: xs => writeNodes (writeNode m slot x) (slot + 1) xs

end Sys2Proof.Machine
end

