-- ==== Sys2Proof/Machine/CompressionCore.lean ====
section
/-! DEFINITION. The compression function `CF` (40_compression_core.md R110 to R122, R124) and the `COMPRESS` command (R123).
The spec marks the constants and round equations 'from general knowledge'; the model takes them as the spec states them
(log 15). -/

namespace Sys2Proof.Machine

/-- `IV` (R111). -/
def iv : Words8 :=
  ⟨0x7380166F, 0x4914B2B9, 0x172442D7, 0xDA8A0600, 0xA96F30BC, 0x163138AA, 0xE38DEE4D, 0xB0FB0E4E⟩

/-- The round base constant `T(j)` (R112). -/
def roundBase (j : Nat) : Word := if j < 16 then 0x79CC4519 else 0x7A879D8A

/-- `Tj_rot(j) = rotl(T(j), j mod 32)` (R115). -/
def roundConst (j : Nat) : Word := rotl (roundBase j) j

/-- `FF_j` (R113). -/
def ff (j : Nat) (x y z : Word) : Word :=
  if j < 16 then x ^^^ y ^^^ z else (x &&& y) ||| (x &&& z) ||| (y &&& z)

/-- `GG_j` (R114). -/
def gg (j : Nat) (x y z : Word) : Word :=
  if j < 16 then x ^^^ y ^^^ z else (x &&& y) ||| (~~~x &&& z)

/-- The permutation `P0` (R116). -/
def p0 (x : Word) : Word := x ^^^ rotl x 9 ^^^ rotl x 17

/-- The permutation `P1` (R117). -/
def p1 (x : Word) : Word := x ^^^ rotl x 15 ^^^ rotl x 23

/-- The next expanded word from the words so far, the newest first: the list's entry `k` is `W[i-1-k]` (R119). -/
def nextExpanded (newestFirst : List Word) : Word :=
  p1 (newestFirst.getD 15 0 ^^^ newestFirst.getD 8 0 ^^^ rotl (newestFirst.getD 2 0) 15) ^^^
    rotl (newestFirst.getD 12 0) 7 ^^^ newestFirst.getD 5 0

/-- `n` further expanded words, the newest first (R119). -/
def expandMore : Nat → List Word → List Word
  | 0, newestFirst => newestFirst
  | n + 1, newestFirst => expandMore n (nextExpanded newestFirst :: newestFirst)

/-- The expanded words `W[0..67]` of a block: its 16 big-endian words (R118) and 52 more (R119). -/
def expand (block : List Byte) : List Word := (expandMore 52 (bytesToWords block).reverse).reverse

/-- The auxiliary word `W1[j] = W[j] ^ W[j+4]` (R120). -/
def auxWord (w : List Word) (j : Nat) : Word := w.getD j 0 ^^^ w.getD (j + 4) 0

/-- Round `j` on the working variables `A … H`, in that order (R121). -/
def cfRound (j : Nat) (wj w1j : Word) (x : Words8) : Words8 :=
  let ss1 := rotl (rotl x.w0 12 + x.w4 + roundConst j) 7
  let ss2 := ss1 ^^^ rotl x.w0 12
  let tt1 := ff j x.w0 x.w1 x.w2 + x.w3 + ss2 + w1j
  let tt2 := gg j x.w4 x.w5 x.w6 + x.w7 + ss1 + wj
  ⟨tt1, x.w0, rotl x.w1 9, x.w2, p0 tt2, x.w4, rotl x.w5 19, x.w6⟩

/-- Rounds `0 .. n-1` (R121). -/
def cfRounds (w : List Word) : Nat → Words8 → Words8
  | 0, x => x
  | n + 1, x => cfRound n (w.getD n 0) (auxWord w n) (cfRounds w n x)

/-- `CF(V, B)` (R121): 64 rounds from `V`, then the XOR with `V` (R124). -/
def cf (v : Words8) (block : List Byte) : Words8 := (cfRounds (expand block) 64 v).xor v

/-- `COMPRESS` (R123): `SIO <- CF(SIO, DIN[0..64))`, in every context and tree state. -/
def execCompress (s : State) : Host.Outcome State Fault Refusal :=
  match readBlock s with
  | none => .fault .unwrittenRead
  | some block => completeOk { s with sio := cf s.sio block }

end Sys2Proof.Machine
end

