-- ==== Sys2Proof/Machine/StreamingHasher.lean ====
section
/-! DEFINITION. The streaming hasher (41_streaming_hasher.md): absorb, padding, the one-shot hash, and the six commands
`CTX_INIT`, `CTX_UPDATE`, `CTX_FINAL`, `HASH`, `CTX_EXPORT`, `CTX_IMPORT`. -/

namespace Sys2Proof.Machine

/-! ## Absorb, padding, one-shot hash -/

/-- A fresh context: `IV`, bit count 0, empty buffer (R140). -/
def freshHasher : Hasher := ⟨iv, 0, []⟩

/-- R141's first part: a partial buffer is filled from the chunk and compressed at once when full. Answers the context and the
bytes not yet taken. -/
def fillBuffer (c : Hasher) (chunk : List Byte) : Hasher × List Byte :=
  if 0 < c.buf.length then
    let t := min (64 - c.buf.length) chunk.length
    let filled := c.buf ++ chunk.take t
    if filled.length = 64 then ({ c with v := cf c.v filled, buf := [] }, chunk.drop t)
    else ({ c with buf := filled }, chunk.drop t)
  else (c, chunk)

/-- R141's loop: compresses `k` full blocks directly from the input. -/
def absorbBlocks : Nat → Words8 → List Byte → Words8 × List Byte
  | 0, v, rest => (v, rest)
  | k + 1, v, rest => absorbBlocks k (cf v (rest.take 64)) (rest.drop 64)

/-- `absorb(M)` (R141): a no-op on empty input; else counts the bits modulo 2^64 (R144), fills the buffer, compresses every
full block, and keeps the remainder. -/
def absorb (c : Hasher) (chunk : List Byte) : Hasher :=
  if chunk.length = 0 then c
  else
    let counted := { c with bitcnt := c.bitcnt + BitVec.ofNat 64 (8 * chunk.length) }
    let (filled, rest) := fillBuffer counted chunk
    let (v, remainder) := absorbBlocks (rest.length / 64) filled.v rest
    { filled with v := v, buf := filled.buf ++ remainder }

/-- `pad(R, c)` (R145): one block where `len(R) + 1 ≤ 56`, else two. -/
def pad (r : List Byte) (c : BitCount) : List (List Byte) :=
  if r.length + 1 ≤ 56 then
    [r ++ [0x80] ++ List.replicate (55 - r.length) 0 ++ bytes64 c]
  else
    [r ++ [0x80] ++ List.replicate (63 - r.length) 0, List.replicate 56 0 ++ bytes64 c]

/-- The state after compressing the padding of a context (R148, R150). -/
def padAndCompress (c : Hasher) : Words8 := (pad c.buf c.bitcnt).foldl cf c.v

/-- The state words of `hash(M)` (R150), on a context of the engine's own. -/
def hashWords (message : List Byte) : Words8 := padAndCompress (absorb freshHasher message)

/-- `hash(M)`: 32 bytes (R150, R149). -/
def hash (message : List Byte) : List Byte := ser (hashWords message)

/-! ## The commands -/

/-- `CTX_INIT` (R140). -/
def execCtxInit (s : State) : Host.Outcome State Fault Refusal :=
  completeOk { s with ctx := freshHasher, fsm := .active }

/-- `CTX_UPDATE` (R142), with the check order of 60_exceptions.md R202. -/
def execCtxUpdate (s : State) : Host.Outcome State Fault Refusal :=
  if s.fsm ≠ .active then completeError .ctxState s
  else if s.len.toNat > Config.dinBytes then completeError .lenRange s
  else
    match readMessage s with
    | none => .fault .unwrittenRead
    | some message => completeOk { s with ctx := absorb s.ctx message }

/-- `CTX_FINAL` (R148): `BITCNT` stays, `V` keeps the final state. -/
def execCtxFinal (s : State) : Host.Outcome State Fault Refusal :=
  if s.fsm ≠ .active then completeError .ctxState s
  else
    let v := padAndCompress s.ctx
    completeOk { s with ctx := { s.ctx with v := v, buf := [] }, digest := v, fsm := .finalized }

/-- `HASH` (R151): the context is not touched. -/
def execHash (s : State) : Host.Outcome State Fault Refusal :=
  if s.len.toNat > Config.dinBytes then completeError .lenRange s
  else
    match readMessage s with
    | none => .fault .unwrittenRead
    | some message => completeOk { s with digest := words (hash message) }

/-- `CTX_EXPORT` (R154): legal in `ACTIVE` and `FINALIZED`. -/
def execCtxExport (s : State) : Host.Outcome State Fault Refusal :=
  if s.fsm = .uninit then completeError .ctxState s
  else
    completeOk { s with sio := s.ctx.v, cioLo := countLow s.ctx.bitcnt, cioHi := countHigh s.ctx.bitcnt }

/-- `CTX_IMPORT` (R155): legal in every context state. -/
def execCtxImport (s : State) : Host.Outcome State Fault Refusal :=
  if s.cio.toNat % 512 ≠ 0 then completeError .importAlign s
  else completeOk { s with ctx := ⟨s.sio, s.cio, []⟩, fsm := .active }

end Sys2Proof.Machine
end

