-- ==== Sys2Proof/Machine/MerkleTree.lean ====
section
/-! DEFINITION. The Merkle-tree builder (42_merkle_tree.md): node combination, level sizes, the level-major layout in `TMEM`,
and the commands `TREE_BUILD` and `TREE_FREE`. -/

namespace Sys2Proof.Machine

/-- `combine` under a reading of the node function (R170; the alternative is D17's). -/
def combineBy (nc : Config.NodeCombine) (left right : Words8) : Words8 :=
  match nc with
  | .oneShot => words (hash (ser left ++ ser right))
  | .rawCf => cf iv (ser left ++ ser right)

/-- `combine`, by the configuration field `NODE_COMBINE` (R170). -/
def combine (left right : Words8) : Words8 := combineBy Config.nodeCombine left right

/-- The level sizes `n(0), n(1), …, n(D)` of a tree of `n` leaves (R172); `fuel` bounds the number of levels above the
leaves. -/
def levelSizes : Nat → Nat → List Nat
  | 0, n => [n]
  | fuel + 1, n => if n ≤ 1 then [n] else n :: levelSizes fuel ((n + 1) / 2)

/-- Levels above the leaves that a 32-bit leaf count can need (R172: halving, rounding up, ends within 32 levels). -/
def maxLevels : Nat := 32

/-- `T(N)`, the number of nodes (R176). -/
def nodeCount (n : Nat) : Nat := (levelSizes maxLevels n).sum

/-- `D`, the number of levels above the leaves (R172, R175). -/
def treeDepthOf (n : Nat) : Nat := (levelSizes maxLevels n).length - 1

/-- `NODE_CAP = T(MAX_LEAVES)`, the node slots of `TMEM` (R176, 00_scope.md R10). -/
def nodeCap : Nat := nodeCount Config.maxLeaves

/-- `N > MAX_LEAVES` (R178). Every `MAX_LEAVES` is at least `minCapacity`, so a count up to that is within capacity whatever
`MAX_LEAVES` is, and the first test answers it without the open parameter (log 9). -/
def overCapacity (n : Nat) : Bool := decide (Config.minCapacity < n) && decide (Config.maxLeaves < n)

/-- One level from the level below: adjacent nodes are paired left to right, a last odd one with itself (R171, R174). -/
def nextLevel : List Words8 → List Words8
  | [] => []
  | [x] => [combine x x]
  | x :: y :: rest => combine x y :: nextLevel rest

/-- The levels above a level, bottom-up, up to the one of a single node (R172, R180). -/
def levelsAbove : Nat → List Words8 → List (List Words8)
  | 0, _ => []
  | fuel + 1, level =>
    if level.length ≤ 1 then [] else nextLevel level :: levelsAbove fuel (nextLevel level)

/-- `TREE_BUILD` (R178), with the check order of 60_exceptions.md R202. The nodes above the leaves go to the slots from `N` on,
level by level (R177); the whole result appears at completion (R180; log 17). -/
def execTreeBuild (s : State) : Host.Outcome State Fault Refusal :=
  if s.treeValid then completeError .treeExists s
  else if s.len.toNat = 0 then completeError .treeEmpty s
  else if overCapacity s.len.toNat then completeError .treeOvercap s
  else
    match readNodes s.mem 0 s.len.toNat with
    | none => .fault .unwrittenRead
    | some leaves =>
      let above := levelsAbove maxLevels leaves
      completeOk { s with
        mem := writeNodes s.mem s.len.toNat above.flatten
        treeN := s.len
        treeDepth := BitVec.ofNat 32 above.length
        treeRoot := (leaves ++ above.flatten).getLastD zeroWords
        treeValid := true }

/-- `TREE_FREE` (R182): `TMEM` is left as it was. -/
def execTreeFree (s : State) : Host.Outcome State Fault Refusal :=
  if s.treeValid then
    completeOk { s with treeValid := false, treeN := 0, treeDepth := 0, treeRoot := zeroWords }
  else completeError .treeNone s

end Sys2Proof.Machine
end

