-- ==== Sys2Proof/Machine/Bus.lean ====
section
/-! DEFINITION. One host access on the bus: the address map (20_memory.md R63), the register map (10_state.md R23), the checks
(R68), and what a read and a write do (R71). -/

namespace Sys2Proof.Machine

/-! ## The maps -/

/-- The registers of 10_state.md R23. -/
inductive Reg where
  | cmd
  | status
  | ctrl
  | len
  | treeN
  | treeDepth
  | capMaxLeaves
  | capDinBytes
  | sio (k : Fin 8)
  | cioLo
  | cioHi
  | digest (k : Fin 8)
  | treeRoot (k : Fin 8)
  | reserved
  deriving DecidableEq, Repr

/-- The regions of the aperture (20_memory.md R63). -/
inductive Region where
  | registers
  | din
  | tmem
  | hole
  deriving DecidableEq, Repr

/-- Why an access gets `BUSERR` (20_memory.md R68, in its order). -/
inductive BusError where
  | misaligned
  | narrow
  | hole
  | busy
  | treeLocked
  deriving DecidableEq, Repr

/-- The register at an aligned offset of the register block (10_state.md R23, R40). -/
def regAt (off : Nat) : Reg :=
  if off = 0x000 then .cmd
  else if off = 0x004 then .status
  else if off = 0x008 then .ctrl
  else if off = 0x00C then .len
  else if off = 0x010 then .treeN
  else if off = 0x014 then .treeDepth
  else if off = 0x018 then .capMaxLeaves
  else if off = 0x01C then .capDinBytes
  else if off < 0x040 then .sio (Fin.ofNat 8 ((off - 0x020) / 4))
  else if off = 0x040 then .cioLo
  else if off = 0x044 then .cioHi
  else if off < 0x060 then .reserved
  else if off < 0x080 then .digest (Fin.ofNat 8 ((off - 0x060) / 4))
  else if off < 0x0A0 then .treeRoot (Fin.ofNat 8 ((off - 0x080) / 4))
  else .reserved

/-- `TMEM` holds `32 · NODE_CAP` bytes (10_state.md R43). `NODE_CAP` is at least `T(minCapacity)` whatever `MAX_LEAVES` is, so
the first test answers the offsets below that without the open parameter (log 9). -/
def inTmem (o : Nat) : Bool := decide (o < 32 * nodeCount Config.minCapacity) || decide (o < 32 * nodeCap)

/-- The region an offset falls in (20_memory.md R63). -/
def regionAt (off : Nat) : Region :=
  if off < dinBase then .registers
  else if off < dinBase + Config.dinBytes then .din
  else if off < tmemBase then .hole
  else if inTmem (off - tmemBase) then .tmem
  else .hole

/-- The offset of `CTRL`, the one location writable while busy (60_exceptions.md R209). -/
def ctrlOffset : Nat := 0x008

/-! ## The checks -/

/-- The first check of 20_memory.md R68 that applies, or none where the access is performed. -/
def busCheck (a : BusAccess) (s : State) : Option BusError :=
  if a.addr.toNat % 4 ≠ 0 then some .misaligned
  else if a.size ≠ .four then some .narrow
  else if regionAt a.addr.toNat = .hole then some .hole
  else if s.busy ∧ a.we ∧ a.addr.toNat ≠ ctrlOffset then some .busy
  else if a.we ∧ regionAt a.addr.toNat = .tmem ∧ s.treeValid then some .treeLocked
  else none

/-! ## Registers -/

/-- The value a register reads as (10_state.md R23 to R26, R33 to R40, R49). -/
def regRead (r : Reg) (s : State) : Word :=
  match r with
  | .cmd => 0
  | .status => s.statusWord
  | .ctrl => s.ctrlWord
  | .len => s.len
  | .treeN => s.treeN
  | .treeDepth => s.treeDepth
  | .capMaxLeaves => BitVec.ofNat 32 Config.maxLeaves
  | .capDinBytes => BitVec.ofNat 32 Config.dinBytes
  | .sio k => s.sio.get k
  | .cioLo => s.cioLo
  | .cioHi => s.cioHi
  | .digest k => s.digest.get k
  | .treeRoot k => s.treeRoot.get k
  | .reserved => 0

/-- The registers whose reads are unspecified while `BUSY = 1` (60_exceptions.md R209). -/
def freeWhileBusy (r : Reg) : Bool :=
  match r with
  | .sio _ => true
  | .cioLo => true
  | .cioHi => true
  | .digest _ => true
  | .treeRoot _ => true
  | .treeN => true
  | .treeDepth => true
  | .cmd => false
  | .status => false
  | .ctrl => false
  | .len => false
  | .capMaxLeaves => false
  | .capDinBytes => false
  | .reserved => false

/-- A write of `v` to a register (10_state.md R23 to R26, R33 to R35; 20_memory.md R70). Read-only and reserved registers
ignore it. -/
def regWrite (r : Reg) (v : Word) (s : State) : State :=
  match r with
  | .cmd => issue v s
  | .status => if v.getLsbD 1 then { s with done := false } else s
  | .ctrl => if v.getLsbD 1 then softReset s else { s with irqEn := v.getLsbD 0 }
  | .len => { s with len := v }
  | .treeN => s
  | .treeDepth => s
  | .capMaxLeaves => s
  | .capDinBytes => s
  | .sio k => { s with sio := s.sio.set k v }
  | .cioLo => { s with cioLo := v }
  | .cioHi => { s with cioHi := v }
  | .digest _ => s
  | .treeRoot _ => s
  | .reserved => s

/-! ## The accesses -/

/-- Answers a read with `resp = OKAY`. -/
def respondRead (v : Word) (s : State) : State := { s with busResp := some ⟨.okay, some v⟩ }

/-- Answers a write with `resp = OKAY`. -/
def respondWrite (s : State) : State := { s with busResp := some ⟨.okay, none⟩ }

/-- `raise BusError` (60_exceptions.md R206): `BUSERR`, and a read returns 0; nothing else changes. -/
def respondError (we : Bool) (s : State) : State :=
  { s with busResp := some ⟨.busErr, if we then none else some 0⟩ }

/-- Answers a read with a fresh free value (60_exceptions.md R209; log 6). -/
def respondFree (s : State) : State :=
  { respondRead (Config.freeRead s.draws) s with draws := s.draws + 1 }

/-- The big-endian word at a window offset, or none where one of its bytes has not been written (20_memory.md R60, R71). -/
def wordAt (m : Memory) (a : Nat) : Option Word :=
  match Memory.readBytes m a 4 with
  | some [b0, b1, b2, b3] => some (be32 b0 b1 b2 b3)
  | _ => none

/-- A window read that passed the checks (20_memory.md R71, 60_exceptions.md R209). While `BUSY = 1` the answer is a free value
also where the word holds a never-written byte. DESIGN CHOICE (log 22): R209 with U6 (any value, `OKAY`) and R220 with R42, R43
and U7 (`UNWRITTEN_READ`) both apply there, and the spec does not say which prevails. -/
def windowRead (off : Nat) (s : State) : Host.Outcome State Fault Refusal :=
  if s.busy then .next (respondFree s)
  else
    match wordAt s.mem off with
    | none => .fault .unwrittenRead
    | some v => .next (respondRead v s)

/-- `HostRead` after the checks (20_memory.md R71). -/
def hostRead (off : Nat) (s : State) : Host.Outcome State Fault Refusal :=
  match regionAt off with
  | .registers =>
    if s.busy && freeWhileBusy (regAt off) then .next (respondFree s)
    else .next (respondRead (regRead (regAt off) s) s)
  | .din => windowRead off s
  | .tmem => windowRead off s
  | .hole => .next (respondError false s)

/-- `HostWrite` after the checks (20_memory.md R71). -/
def hostWrite (off : Nat) (v : Word) (s : State) : State :=
  match regionAt off with
  | .registers => regWrite (regAt off) v s
  | .din => { s with mem := Memory.writeBytes s.mem off (bytes32 v) }
  | .tmem => { s with mem := Memory.writeBytes s.mem off (bytes32 v) }
  | .hole => s

/-- One host access: checked (20_memory.md R68), then performed (R71). -/
def busAccess (a : BusAccess) (s : State) : Host.Outcome State Fault Refusal :=
  match busCheck a s with
  | some _ => .next (respondError a.we s)
  | none =>
    if a.we then .next (respondWrite (hostWrite a.addr.toNat a.wdata s))
    else hostRead a.addr.toNat s

end Sys2Proof.Machine
end

