-- ==== Sys2Proof/Machine/Dispatch.lean ====
section
/-! DEFINITION. One arm per command (30_encoding.md R96). -/

namespace Sys2Proof.Machine

def exec (i : Instr) (s : State) : Host.Outcome State Fault Refusal :=
  match i with
  | .ctxInit => Sys2Proof.Machine.execCtxInit s
  | .ctxUpdate => Sys2Proof.Machine.execCtxUpdate s
  | .ctxFinal => Sys2Proof.Machine.execCtxFinal s
  | .hash => Sys2Proof.Machine.execHash s
  | .compress => Sys2Proof.Machine.execCompress s
  | .ctxExport => Sys2Proof.Machine.execCtxExport s
  | .ctxImport => Sys2Proof.Machine.execCtxImport s
  | .treeBuild => Sys2Proof.Machine.execTreeBuild s
  | .treeFree => Sys2Proof.Machine.execTreeFree s

end Sys2Proof.Machine
end

