-- ==== Sys2Proof/Machine/Engine.lean ====
section
/-! DEFINITION. The turns of the two agents (10_state.md R20): the engine's completion step (R45, 30_encoding.md R91, R96) and
one event of the script. -/

namespace Sys2Proof.Machine

/-- `execute(op)` (30_encoding.md R96): the decoded command, or the error completion `BAD_CMD`. -/
def execute (op : Word) (s : State) : Host.Outcome State Fault Refusal :=
  match decode op with
  | .ok i => exec i s
  | .error _ => completeError .badCmd s

/-- The engine's turn (10_state.md R45): in `EXEC(op)` the command's whole effect and completion; in `IDLE` nothing
(60_exceptions.md R218). -/
def engineStep (s : State) : Host.Outcome State Fault Refusal :=
  match s.engine with
  | .idle => .next s
  | .exec op => execute op s

/-- One event. -/
def perform (e : Event) (s : State) : Host.Outcome State Fault Refusal :=
  match e with
  | .access a => busAccess a s
  | .engineTurn => engineStep s
  | .powerOn => .next (powerOnReset s)

/-- The state with the command word stored where the next step takes its command from: latched, with the engine's turn next
(log 3). -/
def latchCommand (w : Word) (s : State) : State :=
  { issue w s with script := .engineTurn :: s.script }

end Sys2Proof.Machine
end

