-- ==== Sys2Proof/Machine/Step.lean ====
section
/-! DEFINITION. One step of CORE. -/

namespace Sys2Proof.Machine

/-- The next event of the script happens; when the script is empty a busy engine has its turn, so every issued command
completes (70_reset_and_hazards.md R245), and an idle CORE keeps its state (60_exceptions.md R218). -/
def step (s : State) : Host.Outcome State Fault Refusal :=
  match s.script with
  | [] => engineStep s
  | e :: rest => perform e { s with script := rest }

/-- `s` with a command word latched and the engine's turn next, so that the very next step runs that command (log 3). -/
def State.withFetchWord (s : State) (nbits w : Nat) : State := latchCommand (tableWord nbits w) s

end Sys2Proof.Machine
end

