-- ==== Sys2Proof/Machine/HostProgram.lean ====
section
/-! DEFINITION. The host assembler notation (30_encoding.md R104 to R106): the bus accesses a host program makes. A program is a
list of events in the state's script (log 3). -/

namespace Sys2Proof.Machine

/-- `HostWrite(off, v)` as a bus access (20_memory.md R71). -/
def writeAccess (off v : Word) : BusAccess := ⟨off, true, .four, v⟩

/-- `HostRead(off)` as a bus access (20_memory.md R71). -/
def readAccess (off : Word) : BusAccess := ⟨off, false, .four, 0⟩

/-- The bus access of one statement (30_encoding.md R104). -/
def HostStmt.access : HostStmt → BusAccess
  | .wr off v => writeAccess off v
  | .rd off => readAccess off
  | .rdCheck off _ => readAccess off
  | .cmd i => writeAccess 0x000 (encode i)

/-- Whether the answer to a statement's access is what the statement checks (30_encoding.md R104). DESIGN CHOICE (log 20): the
check of `RD off == val` accepts only an `OKAY` answer with that value, so that a rejected read, which returns 0, does not pass
`RD off == 0x0`; the spec says only 'read and check the value'. -/
def HostStmt.accepts (st : HostStmt) (r : BusResponse) : Bool :=
  match st with
  | .rdCheck _ v => decide (r = ⟨.okay, some v⟩)
  | .wr _ _ => true
  | .rd _ => true
  | .cmd _ => true

/-- The encoding `(we, addr, data)` of a statement; a plain read names no data (30_encoding.md R106). -/
def HostStmt.encoding : HostStmt → Bool × Word × Option Word
  | .wr off v => (true, off, some v)
  | .rd off => (false, off, none)
  | .rdCheck off v => (false, off, some v)
  | .cmd i => (true, 0x000, some (encode i))

/-- `WAIT`: reads of `STATUS` until `BUSY = 0` (30_encoding.md R105). The first `polls` reads find the engine busy, then it
completes, and the last read finds `BUSY = 0` (log 20). -/
def waitEvents (polls : Nat) : List Event :=
  List.replicate polls (.access (readAccess 0x004)) ++ [.engineTurn, .access (readAccess 0x004)]

/-- A byte string as the words `LOADMSG` writes: four bytes a word, bytes past the end 0x00 (30_encoding.md R105). -/
def messageWords : List Byte → List Word
  | [] => []
  | [a] => [be32 a 0 0 0]
  | [a, b] => [be32 a b 0 0]
  | [a, b, c] => [be32 a b c 0]
  | a :: b :: c :: d :: rest => be32 a b c d :: messageWords rest

/-- `LOADWORDS base, w0 … w(k-1)` (30_encoding.md R105). -/
def loadWordsEvents : Word → List Word → List Event
  | _, [] => []
  | base, w :: ws => .access (writeAccess base w) :: loadWordsEvents (base + 4) ws

/-- The eight words in order. -/
def wordList (v : Words8) : List Word := [v.w0, v.w1, v.w2, v.w3, v.w4, v.w5, v.w6, v.w7]

/-- The events of a statement. -/
def stmtEvents (st : HostStmt) : List Event := [.access (HostStmt.access st)]

/-- The events a pseudo-statement expands to (30_encoding.md R105). -/
def pseudoEvents : PseudoStmt → List Event
  | .wait polls => waitEvents polls
  | .issue i polls => stmtEvents (.cmd i) ++ waitEvents polls
  | .loadMsg bytes =>
    loadWordsEvents (BitVec.ofNat 32 dinBase) (messageWords bytes) ++
      [.access (writeAccess 0x00C (BitVec.ofNat 32 bytes.length))]
  | .loadWords base ws => loadWordsEvents base ws
  | .loadLeaf slot v => loadWordsEvents (BitVec.ofNat 32 (slotAddr slot)) (wordList v)

/-- The machine after reset with a host program to run (log 3). -/
def loadProgram (events : List Event) : State := { State.reset with script := events }

end Sys2Proof.Machine
end

