-- ==== Sys2Proof/Machine/PaddingController.lean ====
section
/-! DEFINITION. The padding controller of `CTX_FINAL` (41_streaming_hasher.md R147). Its states are hidden; only its result is
architectural, and `execCtxFinal` computes that result by R148. The controller is modelled beside it, so that the two can be
compared. -/

namespace Sys2Proof.Machine

/-- The controller's states, in R147's order, and the end. -/
inductive PadState where
  | mark
  | spillZero
  | spillCf
  | zero
  | len
  | finalCf
  | out
  | ended
  deriving DecidableEq, Repr

/-- The controller: its state, the 64 bytes of `BUF`, its counter `k`, the chaining state, and the digest once it is out. -/
structure PadController where
  st : PadState
  buf : List Byte
  k : Nat
  v : Words8
  digest : Option Words8
  deriving DecidableEq, Repr

/-- `BUF[from..to) <- 0`. -/
def zeroRange (buf : List Byte) (lo hi : Nat) : List Byte :=
  buf.take lo ++ List.replicate (hi - lo) 0 ++ buf.drop (max lo hi)

/-- One transition of R147's table, for a buffered remainder of `r` bytes and the bit count `c`. -/
def padControllerStep (r : Nat) (c : BitCount) (p : PadController) : PadController :=
  match p.st with
  | .mark =>
    { p with
      buf := p.buf.take r ++ [0x80] ++ p.buf.drop (r + 1)
      k := r + 1
      st := if r + 1 ≤ 56 then .zero else .spillZero }
  | .spillZero => { p with buf := zeroRange p.buf p.k 64, st := .spillCf }
  | .spillCf => { p with v := cf p.v p.buf, k := 0, st := .zero }
  | .zero => { p with buf := zeroRange p.buf p.k 56, st := .len }
  | .len => { p with buf := p.buf.take 56 ++ bytes64 c, st := .finalCf }
  | .finalCf => { p with v := cf p.v p.buf, st := .out }
  | .out => { p with digest := some p.v, st := .ended }
  | .ended => p

/-- `n` transitions. -/
def padControllerRun (r : Nat) (c : BitCount) : Nat → PadController → PadController
  | 0, p => p
  | n + 1, p => padControllerRun r c n (padControllerStep r c p)

/-- The controller at the start of a `CTX_FINAL`, over the 64-byte storage `storage`. -/
def padControllerStart (storage : List Byte) (v : Words8) : PadController := ⟨.mark, storage, 0, v, none⟩

end Sys2Proof.Machine
end

