-- ==== Sys2Proof/Machine/ProofConsumer.lean ====
section
/-! DEFINITION. The proof consumer (43_proof_consumer.md): host software that reads CORE's tree, outside the block
(00_scope.md R8). Its algorithms are functions of a State; no step calls them (log 19). -/

namespace Sys2Proof.Machine

/-- Why the consumer answers nothing. -/
inductive ConsumerStop where
  /-- No tree is held, or its nodes cannot be read. -/
  | noTree
  /-- A leaf index at or above `N` (43_proof_consumer.md R190's precondition). -/
  | indexOutOfRange
  /-- The caller's proof storage is smaller than the tree's depth or than the proof: fail fast (R195, U2; log 19). -/
  | bufferTooSmall
  /-- The leaves are not sorted: the results are unspecified and the query is refused (R192, U1). -/
  | unsortedLeaves
  deriving DecidableEq, Repr

/-! ## Inclusion -/

/-- The `TMEM` slots of the siblings of leaf `i`, one per level from the leaves up, over the level sizes; `base` is `off(l)`
(R190, 42_merkle_tree.md R177). -/
def siblingSlots : Nat → Nat → List Nat → List Nat
  | base, i, n :: m :: rest =>
    (base + if i ^^^ 1 < n then i ^^^ 1 else i) :: siblingSlots (base + n) (i / 2) (m :: rest)
  | _, _, _ => []

/-- The nodes in a list of slots. -/
def readSlots (m : Memory) : List Nat → Option (List Words8)
  | [] => some []
  | slot :: rest =>
    match readNode m slot, readSlots m rest with
    | some x, some xs => some (x :: xs)
    | _, _ => none

/-- `prove_inclusion(tree, i)` with room for `room` entries (R190, R195). DESIGN CHOICE (log 19): the consumer sees `TREE_N`,
`TREE_DEPTH` and `TMEM` as CORE holds them also while `BUSY = 1`, where a host read of them has no specified value
(60_exceptions.md R209, U6). -/
def proveInclusion (s : State) (room i : Nat) : Except ConsumerStop (List Words8) :=
  if s.treeValid = false then .error .noTree
  else if s.treeN.toNat ≤ i then .error .indexOutOfRange
  else if room < s.treeDepth.toNat then .error .bufferTooSmall
  else
    match readSlots s.mem (siblingSlots 0 i (levelSizes maxLevels s.treeN.toNat)) with
    | some proof => .ok proof
    | none => .error .noTree

/-- The running hash of `verify_inclusion` over the proof's entries (R191). -/
def climb (h : Words8) (i : Nat) : List Words8 → Words8
  | [] => h
  | e :: rest => climb (if i % 2 = 0 then combine h e else combine e h) (i / 2) rest

/-- `verify_inclusion(root, leaf, i, N, proof)`: neither `N` nor the proof's length is checked (R191). -/
def verifyInclusion (root leaf : Words8) (i _n : Nat) (proof : List Words8) : Bool := decide (climb leaf i proof = root)

/-! ## Non-inclusion -/

/-- `cmp(a, b) < 0`: byte-wise lexicographic order, unsigned, lowest index first. -/
def byteLt : List Byte → List Byte → Bool
  | a :: as, b :: bs => if a.toNat < b.toNat then true else if b.toNat < a.toNat then false else byteLt as bs
  | [], _ => false
  | _ :: _, [] => false

/-- `cmp` on 32-byte values. -/
def nodeLt (a b : Words8) : Bool := byteLt (ser a) (ser b)

/-- The leaves are in ascending `cmp` order (R192). -/
def sortedLeaves : List Words8 → Bool
  | [] => true
  | [_] => true
  | a :: b :: rest => !nodeLt b a && sortedLeaves (b :: rest)

/-- The insertion point: the number of leaves below the target (R193). -/
def insertionPoint (leaves : List Words8) (target : Words8) : Nat := leaves.countP fun x => nodeLt x target

/-- The answer of `prove_non_inclusion`, for a proof storage of `room` entries: one that does not hold the proof fails fast (R195).
DEDUCED (log 19): so also where the storage reaches the depth of a tree of one or two leaves. -/
def answerIn (room : Nat) (proof : List Words8) (index : Nat) : Except ConsumerStop (List Words8 × Nat) :=
  if room < proof.length then .error .bufferTooSmall else .ok (proof, index)

/-- `prove_non_inclusion` over a leaf sequence, with room for `room` entries (R193, R195). Where the target is present
`neighbor_index` is a free value. -/
def proveNonInclusion (leaves : List Words8) (room : Nat) (target : Words8) (draw : Nat) :
    Except ConsumerStop (List Words8 × Nat) :=
  if sortedLeaves leaves = false then .error .unsortedLeaves
  else
    let p := insertionPoint leaves target
    if p < leaves.length ∧ leaves.getD p zeroWords = target then answerIn room [] (Config.freeNeighborIndex draw)
    else if p = leaves.length then answerIn room [leaves.getD (p - 1) zeroWords] (p - 1)
    else if p = 0 then answerIn room [leaves.getD 0 zeroWords] 0
    else answerIn room [leaves.getD (p - 1) zeroWords, leaves.getD p zeroWords] (p - 1)

/-- `prove_non_inclusion(tree, target)` with room for `room` entries: a storage smaller than the tree's depth fails fast (R195,
U2), and the leaves are read from `TMEM` slots `0..N-1` (R193). DESIGN CHOICE (log 19): they are read as CORE holds them also
while `BUSY = 1`, as in `proveInclusion`. -/
def proveNonInclusionOf (s : State) (room : Nat) (target : Words8) (draw : Nat) :
    Except ConsumerStop (List Words8 × Nat) :=
  if s.treeValid = false then .error .noTree
  else if room < s.treeDepth.toNat then .error .bufferTooSmall
  else
    match readNodes s.mem 0 s.treeN.toNat with
    | none => .error .noTree
    | some leaves => proveNonInclusion leaves room target draw

/-- `verify_non_inclusion(root, target, N, proof, neighbor_index)` (R194): `root`, `N` and the index are not used. -/
def verifyNonInclusion (_root target : Words8) (_n : Nat) (proof : List Words8) (_index : Nat) : Bool :=
  match proof with
  | [x] => decide (target ≠ x)
  | [x, y] => nodeLt x target && nodeLt target y
  | [] => false
  | _ :: _ :: _ :: _ => false

end Sys2Proof.Machine
end

