-- ==== Sys2Proof/Safety.lean ====
section
/-! DEFINITION. The terms the statements use: the machine's invariants, the spec's own tree functions (42_merkle_tree.md R172,
R174, R177), the error a command reports (60_exceptions.md R202), what a command may read and write (30_encoding.md R93), and
what a host can tell apart. -/

namespace Sys2Proof.Machine

/-! ## Invariants -/

/-- What every step keeps. -/
structure Inv (s : State) : Prop where
  /-- Memory is in its canonical form. -/
  memCanonical : Memory.wf s.mem = true
  /-- Only bytes of the `DIN` and `TMEM` windows are ever written (20_memory.md R63). -/
  memInWindows : ∀ c ∈ s.mem, regionAt c.1 = .din ∨ regionAt c.1 = .tmem
  /-- `CTX.BUFLEN ≤ 63` between commands (10_state.md R32). -/
  bufShort : s.ctx.buf.length ≤ 63
  /-- Only an active context buffers bytes: reset and `CTX_FINAL` leave `BUFLEN = 0` (10_state.md R48, 41_streaming_hasher.md R148). -/
  bufOnlyActive : s.fsm ≠ .active → s.ctx.buf = []
  /-- `BITCNT mod 512 = 8 × BUFLEN` in an active context (10_state.md R32). -/
  countMatches : s.fsm = .active → s.ctx.bitcnt.toNat % 512 = 8 * s.ctx.buf.length
  /-- While `BUSY = 1`, `DONE` and `ERRCODE` read 0 (10_state.md R25). -/
  busyQuiet : s.busy = true → s.done = false ∧ s.errcode = .ok
  /-- Without a tree, `TREE_N`, `TREE_DEPTH` and `TREE_ROOT` read 0 (10_state.md R37, R38, R49). -/
  noTreeZero : s.treeValid = false → s.treeN = 0 ∧ s.treeDepth = 0 ∧ s.treeRoot = zeroWords

/-! ## The tree as the spec writes it -/

/-- `n(l)` for `n` leaves (42_merkle_tree.md R172), continued by 1 above the top level. -/
def levelSize (n : Nat) : Nat → Nat
  | 0 => n
  | l + 1 => (levelSize n l + 1) / 2

/-- `off(l)` for `n` leaves (R177). -/
def levelOffset (n : Nat) : Nat → Nat
  | 0 => 0
  | l + 1 => levelOffset n l + levelSize n l

/-- `node(l, i)` over `n` leaves (R174). -/
def nodeValue (leaf : Nat → Words8) (n : Nat) : Nat → Nat → Words8
  | 0, i => leaf i
  | l + 1, i =>
    if 2 * i + 1 < levelSize n l then combine (nodeValue leaf n l (2 * i)) (nodeValue leaf n l (2 * i + 1))
    else combine (nodeValue leaf n l (2 * i)) (nodeValue leaf n l (2 * i))

/-- Memory `m` holds, in level-major order, every node of the tree of depth `d` over the `n` leaves `leaf` (R174, R177). -/
def HoldsTree (m : Memory) (leaf : Nat → Words8) (n d : Nat) : Prop :=
  ∀ l, l ≤ d → ∀ i, i < levelSize n l → readNode m (levelOffset n l + i) = some (nodeValue leaf n l i)

/-- The held tree: while `TREE_VALID = 1` the registers and `TMEM` are those of one tree over `TREE_N` leaves
(10_state.md R41, R49; 42_merkle_tree.md R174, R175, R177, R179, R183). -/
def TreeCoherent (s : State) : Prop :=
  s.treeValid = true →
    1 ≤ s.treeN.toNat ∧ s.treeN.toNat ≤ Config.maxLeaves ∧ s.treeDepth.toNat = Nat.clog 2 s.treeN.toNat ∧
      ∃ leaf : Nat → Words8,
        HoldsTree s.mem leaf s.treeN.toNat s.treeDepth.toNat ∧
          s.treeRoot = nodeValue leaf s.treeN.toNat s.treeDepth.toNat 0

/-! ## Errors -/

/-- The error code a command reports, the first that applies in the order of 60_exceptions.md R202; `ok` where none does. -/
def reportedError (i : Instr) (s : State) : ErrCode :=
  match i with
  | .ctxInit => .ok
  | .compress => .ok
  | .ctxUpdate => if s.fsm ≠ .active then .ctxState else if 4096 < s.len.toNat then .lenRange else .ok
  | .ctxFinal => if s.fsm ≠ .active then .ctxState else .ok
  | .ctxExport => if s.fsm = .uninit then .ctxState else .ok
  | .ctxImport => if (s.cioHi.toNat * 2 ^ 32 + s.cioLo.toNat) % 512 ≠ 0 then .importAlign else .ok
  | .hash => if 4096 < s.len.toNat then .lenRange else .ok
  | .treeBuild =>
    if s.treeValid = true then .treeExists
    else if s.len = 0 then .treeEmpty
    else if Config.maxLeaves < s.len.toNat then .treeOvercap
    else .ok
  | .treeFree => if s.treeValid = true then .ok else .treeNone

/-! ## What a command reads and writes -/

/-- The parts of the state that 30_encoding.md R93's table writes in. -/
structure Footprint where
  v : Bool := false
  bitcnt : Bool := false
  buf : Bool := false
  fsm : Bool := false
  digest : Bool := false
  sio : Bool := false
  cio : Bool := false
  tree : Bool := false
  tmem : Bool := false
  deriving DecidableEq, Repr

/-- The 'writes (on success)' column of 30_encoding.md R93. -/
def writesOf : Instr → Footprint
  | .ctxInit => { v := true, bitcnt := true, buf := true, fsm := true }
  | .ctxUpdate => { v := true, bitcnt := true, buf := true }
  | .ctxFinal => { v := true, buf := true, fsm := true, digest := true }
  | .hash => { digest := true }
  | .compress => { sio := true }
  | .ctxExport => { sio := true, cio := true }
  | .ctxImport => { v := true, bitcnt := true, buf := true, fsm := true }
  | .treeBuild => { tree := true, tmem := true }
  | .treeFree => { tree := true }

/-- `t` differs from `s` at most in what `f` names and in `STATUS.BUSY`, `DONE` and `ERRCODE`. -/
def OnlyWrites (f : Footprint) (s t : State) : Prop :=
  (f.v = false → t.ctx.v = s.ctx.v) ∧ (f.bitcnt = false → t.ctx.bitcnt = s.ctx.bitcnt) ∧
  (f.buf = false → t.ctx.buf = s.ctx.buf) ∧ (f.fsm = false → t.fsm = s.fsm) ∧
  (f.digest = false → t.digest = s.digest) ∧ (f.sio = false → t.sio = s.sio) ∧
  (f.cio = false → t.cioLo = s.cioLo ∧ t.cioHi = s.cioHi) ∧
  (f.tree = false →
    t.treeValid = s.treeValid ∧ t.treeN = s.treeN ∧ t.treeDepth = s.treeDepth ∧ t.treeRoot = s.treeRoot) ∧
  (f.tmem = false → t.mem = s.mem) ∧
  t.len = s.len ∧ t.irqEn = s.irqEn ∧ t.busResp = s.busResp ∧ t.script = s.script ∧ t.draws = s.draws

/-- The window bytes two states both hold, or both lack, over a range of bus offsets. -/
def SameBytes (s t : State) (lo count : Nat) : Prop :=
  ∀ a, lo ≤ a → a < lo + count → Memory.read s.mem a = Memory.read t.mem a

/-- Two states agree on the 'reads' column of 30_encoding.md R93 for a command. -/
def ReadsAgree (i : Instr) (s t : State) : Prop :=
  match i with
  | .ctxInit => True
  | .ctxUpdate => s.len = t.len ∧ SameBytes s t dinBase s.len.toNat ∧ s.ctx = t.ctx ∧ s.fsm = t.fsm
  | .ctxFinal => s.ctx = t.ctx ∧ s.fsm = t.fsm
  | .hash => s.len = t.len ∧ SameBytes s t dinBase s.len.toNat
  | .compress => s.sio = t.sio ∧ SameBytes s t dinBase 64
  | .ctxExport => s.ctx.v = t.ctx.v ∧ s.ctx.bitcnt = t.ctx.bitcnt ∧ s.fsm = t.fsm
  | .ctxImport => s.sio = t.sio ∧ s.cioLo = t.cioLo ∧ s.cioHi = t.cioHi
  | .treeBuild => s.len = t.len ∧ SameBytes s t (slotAddr 0) (32 * s.len.toNat) ∧ s.treeValid = t.treeValid
  | .treeFree => s.treeValid = t.treeValid

/-- Two states agree on the registers that a command wrote on success, and on the completion. -/
def WrittenAgree (i : Instr) (s t : State) : Prop :=
  s.errcode = t.errcode ∧ s.done = t.done ∧ s.busy = t.busy ∧
    (s.errcode = .ok →
      ((writesOf i).v = true → s.ctx.v = t.ctx.v) ∧ ((writesOf i).bitcnt = true → s.ctx.bitcnt = t.ctx.bitcnt) ∧
      ((writesOf i).buf = true → s.ctx.buf = t.ctx.buf) ∧ ((writesOf i).fsm = true → s.fsm = t.fsm) ∧
      ((writesOf i).digest = true → s.digest = t.digest) ∧ ((writesOf i).sio = true → s.sio = t.sio) ∧
      ((writesOf i).cio = true → s.cioLo = t.cioLo ∧ s.cioHi = t.cioHi) ∧
      ((writesOf i).tree = true →
        s.treeValid = t.treeValid ∧ s.treeN = t.treeN ∧ s.treeDepth = t.treeDepth ∧ s.treeRoot = t.treeRoot))

/-! ## What the host can tell apart -/

/-- The two states differ at most in the hidden chaining state and bit count of a context that does not exist
(10_state.md R27, R28). -/
def SameToHost (s t : State) : Prop :=
  t = { s with ctx := t.ctx } ∧ t.ctx.buf = s.ctx.buf ∧ (s.fsm = .uninit ∨ t.ctx = s.ctx)

/-- Two outcomes of a step that the host cannot tell apart. -/
def SameOutcome (o p : Host.Outcome State Fault Refusal) : Prop :=
  match o, p with
  | .next s, .next t => SameToHost s t
  | .fault f, .fault g => f = g
  | .refused f, .refused g => f = g
  | .next _, .fault _ => False
  | .next _, .refused _ => False
  | .fault _, .next _ => False
  | .fault _, .refused _ => False
  | .refused _, .next _ => False
  | .refused _, .fault _ => False

/-! ## What comes next -/

/-- The engine has the next turn: the script is empty or names it first. -/
def EngineNext (s : State) : Prop := s.script = [] ∨ ∃ rest, s.script = .engineTurn :: rest

/-- The engine has the next turn and completes the command `i`. -/
def CompletesNext (i : Instr) (s : State) : Prop := EngineNext s ∧ ∃ op, s.engine = .exec op ∧ decode op = .ok i

/-- The access is a write of 1 to `CTRL.SOFT_RESET` (70_reset_and_hazards.md R231). -/
def BusAccess.softResets (a : BusAccess) : Prop :=
  a.addr = 0x008 ∧ a.size = .four ∧ a.we = true ∧ a.wdata.getLsbD 1 = true

/-- The next event is a reset (70_reset_and_hazards.md R230). -/
def ResetNext (s : State) : Prop :=
  (∃ rest, s.script = .powerOn :: rest) ∨ ∃ a rest, s.script = .access a :: rest ∧ BusAccess.softResets a

/-- The event is a reset. -/
def Event.resets : Event → Prop
  | .access a => BusAccess.softResets a
  | .engineTurn => False
  | .powerOn => True

/-- The access is legal in form: four bytes wide and aligned (20_memory.md R64, R65). -/
def BusAccess.legal (a : BusAccess) : Prop := a.size = .four ∧ a.addr.toNat % 4 = 0

/-- The offset falls in a hole of the aperture (20_memory.md R63, R67). -/
def InHole (off : Nat) : Prop := (0x11000 ≤ off ∧ off < 0x1000000) ∨ 0x1000000 + 32 * nodeCap ≤ off

/-- The conditions of 20_memory.md R68 under which an access is a bus error. -/
def BusAccess.rejected (a : BusAccess) (s : State) : Prop :=
  a.addr.toNat % 4 ≠ 0 ∨ a.size ≠ .four ∨ InHole a.addr.toNat ∨
    (s.busy = true ∧ a.we = true ∧ a.addr ≠ 0x008) ∨
    (a.we = true ∧ 0x1000000 ≤ a.addr.toNat ∧ s.treeValid = true)

/-! ## A byte at a time -/

/-- Absorbing one byte: append it to the buffer, and compress and empty the buffer when it reaches 64 bytes
(41_streaming_hasher.md R143). -/
def absorbByte (c : Hasher) (b : Byte) : Hasher :=
  if (c.buf ++ [b]).length = 64 then ⟨cf c.v (c.buf ++ [b]), c.bitcnt + 8, []⟩
  else ⟨c.v, c.bitcnt + 8, c.buf ++ [b]⟩

/-- The padding bytes of a message of `n` bytes: `0x80`, the zero fill, the 64-bit bit count (41_streaming_hasher.md R156). -/
def paddingBytes (n : Nat) : List Byte :=
  [0x80] ++ List.replicate (if n % 64 ≤ 55 then 55 - n % 64 else 119 - n % 64) 0 ++ bytes64 (BitVec.ofNat 64 (8 * n))

/-- The number of `CF` evaluations of the padding, from the number of buffered bytes (41_streaming_hasher.md R157). -/
def finalCompressions (buflen : Nat) : Nat := if buflen ≤ 55 then 1 else 2

end Sys2Proof.Machine
end

