-- ==== Sys2Proof/Certificates/Slice0/Obligations.lean ====
section
/-! DEFINITION. The statements for the provers. Each docstring names the rules of spec/ it formalises. -/

open Sys2Proof Sys2Proof.Machine

/-! ## Reset and invariants -/

/-- 10_state.md R48, 70_reset_and_hazards.md R230: what power-on reset, the power-on event and a soft reset leave, and that the
power-on event performs the power-on reset (log 18). The values of `CTX.V` and `CTX.BITCNT`, which the spec leaves unspecified
(log 4), are not spoken of. -/
def Obligations.ResetsLeaveTheListedValues : Prop :=
  (∀ s t : State, t = State.reset ∨ t = powerOnReset s ∨ t = softReset s →
    t.statusWord = 0 ∧ t.ctrlWord = 0 ∧ t.engine = .idle ∧ t.fsm = .uninit ∧ t.ctx.buf = [] ∧ t.treeValid = false ∧
      t.len = 0 ∧ t.cioLo = 0 ∧ t.cioHi = 0 ∧ t.treeN = 0 ∧ t.treeDepth = 0 ∧ t.irq = false ∧
      (∀ k, t.sio.get k = 0 ∧ t.digest.get k = 0 ∧ t.treeRoot.get k = 0)) ∧
  (∀ (s : State) (a : Nat), Memory.read State.reset.mem a = none ∧ Memory.read (powerOnReset s).mem a = none) ∧
  (∀ (s : State) (a : Nat), buildInFlight s = false → Memory.read (softReset s).mem a = Memory.read s.mem a) ∧
  ∀ (s : State) (rest : List Event), s.script = .powerOn :: rest →
    step s = .next (powerOnReset { s with script := rest })

/-- The reset state meets the invariants of the next two statements. -/
def Obligations.ResetMeetsTheInvariants : Prop := Inv State.reset ∧ TreeCoherent State.reset

/-- 10_state.md R25, R32, R37, R38, R48, R49, 20_memory.md R63: every step from any state that meets the invariant meets it
again. -/
def Obligations.EveryStepKeepsInv : Prop :=
  ∀ s t : State, Inv s → step s = .next t → Inv t

/-- 42_merkle_tree.md R174, R175, R177, R179, R183, 10_state.md R41: while a tree is held, `TMEM` and the tree registers are those
of one tree, after every step from any state in which they were. -/
def Obligations.EveryStepKeepsTheTreeCoherent : Prop :=
  ∀ s t : State, TreeCoherent s → step s = .next t → TreeCoherent t

/-- 42_merkle_tree.md R181: while `TREE_VALID = 1` nothing but `TREE_FREE` or a reset changes any tree state, host writes to
`TMEM` are bus errors, and a second `TREE_BUILD` is an error completion. -/
def Obligations.AHeldTreeIsImmutable : Prop :=
  (∀ s t : State, s.treeValid = true → step s = .next t → ¬ ResetNext s → ¬ CompletesNext .treeFree s →
    t.treeValid = true ∧ t.treeN = s.treeN ∧ t.treeDepth = s.treeDepth ∧ t.treeRoot = s.treeRoot ∧
      ∀ a, 0x1000000 ≤ a → Memory.read t.mem a = Memory.read s.mem a) ∧
  (∀ (s : State) (a : BusAccess), s.treeValid = true → a.we = true → 0x1000000 ≤ a.addr.toNat →
    busAccess a s = .next { s with busResp := some ⟨.busErr, none⟩ }) ∧
  ∀ s : State, s.treeValid = true →
    exec .treeBuild s = .next { s with engine := .idle, done := true, errcode := .treeExists }

/-- 10_state.md R36, D33: `DIGEST` holds its value until the next `CTX_FINAL`, `HASH` or reset. -/
def Obligations.DigestHoldsUntilFinalHashOrReset : Prop :=
  ∀ s t : State, step s = .next t → ¬ ResetNext s → ¬ CompletesNext .ctxFinal s → ¬ CompletesNext .hash s →
    t.digest = s.digest

/-- 10_state.md R27, R28, R48, U8 (log 4): while no context exists, no step lets the host tell the hidden chaining state and bit count apart;
states that agree otherwise stay so, answer the same, and fault alike. -/
def Obligations.HiddenContextIsUnobservable : Prop :=
  ∀ s t : State, SameToHost s t → SameOutcome (step s) (step t)

/-! ## Encoding and the step -/

/-- 30_encoding.md R96: a word decodes to a command exactly when it is that command's word (R92); `execute` of it is that
command, and `execute` of any other word is the error completion `BAD_CMD`. -/
def Obligations.DecodesToExactlyTheEncodedWord : Prop :=
  (∀ (w : Word) (i : Instr), decode w = .ok i ↔ w = encode i) ∧
  (∀ i : Instr, (encode i).toNat = match i with
    | .ctxInit => 0x01
    | .ctxUpdate => 0x02
    | .ctxFinal => 0x03
    | .hash => 0x04
    | .compress => 0x05
    | .ctxExport => 0x06
    | .ctxImport => 0x07
    | .treeBuild => 0x10
    | .treeFree => 0x11) ∧
  (∀ (i : Instr) (s : State), execute (encode i) s = exec i s) ∧
  ∀ (w : Word) (s : State), (∀ i, w ≠ encode i) →
    execute w s = .next { s with engine := .idle, done := true, errcode := .badCmd }

/-- 30_encoding.md R92: the command words of the opcode map, decoded and encoded. -/
def Obligations.TableWordsDecode : Prop :=
  encode .ctxInit = 0x00000001 ∧ encode .ctxUpdate = 0x00000002 ∧ encode .ctxFinal = 0x00000003 ∧
  encode .hash = 0x00000004 ∧ encode .compress = 0x00000005 ∧ encode .ctxExport = 0x00000006 ∧
  encode .ctxImport = 0x00000007 ∧ encode .treeBuild = 0x00000010 ∧ encode .treeFree = 0x00000011 ∧
  decodeTableWord 32 0x00000001 = some .ctxInit ∧ decodeTableWord 32 0x00000002 = some .ctxUpdate ∧
  decodeTableWord 32 0x00000003 = some .ctxFinal ∧ decodeTableWord 32 0x00000004 = some .hash ∧
  decodeTableWord 32 0x00000005 = some .compress ∧ decodeTableWord 32 0x00000006 = some .ctxExport ∧
  decodeTableWord 32 0x00000007 = some .ctxImport ∧ decodeTableWord 32 0x00000010 = some .treeBuild ∧
  decodeTableWord 32 0x00000011 = some .treeFree

/-- 30_encoding.md R97: every reserved encoding, and no other word, is rejected, and is an error completion with
`ERRCODE = BAD_CMD` and no other effect. -/
def Obligations.ReservedWordsAreBadCmd : Prop :=
  (∀ w : Word, (∃ e, decode w = .error e) ↔
    w.toNat / 256 ≠ 0 ∨ w.toNat % 256 = 0 ∨ (0x08 ≤ w.toNat % 256 ∧ w.toNat % 256 ≤ 0x0F) ∨ 0x12 ≤ w.toNat % 256) ∧
  ∀ (w : Word) (e : BadCmd) (s : State), decode w = .error e →
    execute w s = .next { s with engine := .idle, done := true, errcode := .badCmd }

/-- 10_state.md R45, 30_encoding.md R91, R96, R97, 60_exceptions.md R218: when the engine has the next turn (log 1) and its latched
word decodes to `i`, the step is `exec i`, with the engine's turn taken off the script; where the word is no command, the step is
the `BAD_CMD` error completion; an idle engine's turn keeps the state. A latched table word is run by the very next step
(log 3). -/
def Obligations.StepRunsTheLatchedCommand : Prop :=
  (∀ (s : State) (w : Word) (i : Instr), s.engine = .exec w → decode w = .ok i →
    (s.script = [] → step s = exec i s) ∧
    ∀ rest, s.script = .engineTurn :: rest → step s = exec i { s with script := rest }) ∧
  (∀ (s : State) (w : Word) (e : BadCmd), s.engine = .exec w → decode w = .error e →
    (s.script = [] → step s = .next { s with engine := .idle, done := true, errcode := .badCmd }) ∧
    ∀ rest, s.script = .engineTurn :: rest →
      step s = .next { s with script := rest, engine := .idle, done := true, errcode := .badCmd }) ∧
  (∀ s : State, s.engine = .idle →
    (s.script = [] → step s = .next s) ∧
    ∀ rest, s.script = .engineTurn :: rest → step s = .next { s with script := rest }) ∧
  ∀ (s : State) (w : Nat) (i : Instr), decodeTableWord 32 w = some i →
    step (s.withFetchWord 32 w) =
      exec i { s with engine := .exec (BitVec.ofNat 32 (w % 2 ^ 32)), done := false, errcode := .ok }

/-- 30_encoding.md R91, 10_state.md R46: a write of `w` to `CMD` while idle latches `w`, sets `BUSY` and clears `DONE` and
`ERRCODE`; while busy it is a bus error and issues nothing; the engine's turn executes the latched word; every completion clears
`BUSY` and sets `DONE`. -/
def Obligations.IssueAndCompletion : Prop :=
  (∀ (s : State) (w : Word), s.busy = false →
    busAccess (writeAccess 0x000 w) s =
      .next { s with engine := .exec w, done := false, errcode := .ok, busResp := some ⟨.okay, none⟩ }) ∧
  (∀ (s : State) (w : Word), s.busy = true →
    busAccess (writeAccess 0x000 w) s = .next { s with busResp := some ⟨.busErr, none⟩ }) ∧
  (∀ (s : State) (op : Word), s.engine = .exec op → engineStep s = execute op s) ∧
  ∀ (op : Word) (s t : State), execute op s = .next t → t.busy = false ∧ t.done = true

/-! ## The commands -/

/-- 41_streaming_hasher.md R140: `CTX_INIT` completes from every state. The words of `IV` (40_compression_core.md R111) are
log 15's. -/
def Obligations.CtxInitCompletes : Prop :=
  decode 0x00000001 = .ok .ctxInit ∧
  ∀ s : State, ∃ t, exec .ctxInit s = .next t ∧
    t.ctx.v = ⟨0x7380166F, 0x4914B2B9, 0x172442D7, 0xDA8A0600, 0xA96F30BC, 0x163138AA, 0xE38DEE4D, 0xB0FB0E4E⟩ ∧
    t.ctx.bitcnt = 0 ∧ t.buflen = 0 ∧ t.fsm = .active ∧ t.errcode = .ok ∧ t.done = true ∧ t.busy = false ∧
    t.statusWord.extractLsb' 4 2 = 1 ∧ t.statusWord.extractLsb' 16 6 = 0 ∧ OnlyWrites (writesOf .ctxInit) s t

/-- 41_streaming_hasher.md R141, R142, R143, R144: `CTX_UPDATE` of an active context completes for every written message that
fits `DIN`, and absorbs it a byte at a time; an empty message changes nothing; its errors. -/
def Obligations.CtxUpdateCompletes : Prop :=
  decode 0x00000002 = .ok .ctxUpdate ∧
  (∀ (s : State) (msg : List Byte), s.fsm = .active → s.ctx.buf.length ≤ 63 → s.len.toNat ≤ 4096 →
    msg.length = s.len.toNat → (∀ k (h : k < msg.length), Memory.read s.mem (0x10000 + k) = some msg[k]) →
    ∃ t, exec .ctxUpdate s = .next t ∧ t.ctx = msg.foldl absorbByte s.ctx ∧ t.ctx.buf.length ≤ 63 ∧
      t.ctx.bitcnt.toNat = (s.ctx.bitcnt.toNat + 8 * msg.length) % 2 ^ 64 ∧
      t.errcode = .ok ∧ t.done = true ∧ t.busy = false ∧ OnlyWrites (writesOf .ctxUpdate) s t) ∧
  (∀ s : State, s.fsm = .active → s.len = 0 →
    exec .ctxUpdate s = .next { s with engine := .idle, done := true, errcode := .ok }) ∧
  (∀ s : State, s.fsm ≠ .active →
    exec .ctxUpdate s = .next { s with engine := .idle, done := true, errcode := .ctxState }) ∧
  ∀ s : State, s.fsm = .active → 4096 < s.len.toNat →
    exec .ctxUpdate s = .next { s with engine := .idle, done := true, errcode := .lenRange }

/-- 41_streaming_hasher.md R145, R148: `CTX_FINAL` of an active context completes: one compression of the padded remainder up to
55 buffered bytes, two from 56 on; its error. -/
def Obligations.CtxFinalCompletes : Prop :=
  decode 0x00000003 = .ok .ctxFinal ∧
  (∀ s : State, s.fsm = .active → s.ctx.buf.length ≤ 63 →
    ∃ t, exec .ctxFinal s = .next t ∧
      (s.ctx.buf.length ≤ 55 →
        t.digest = cf s.ctx.v (s.ctx.buf ++ 0x80 :: List.replicate (55 - s.ctx.buf.length) 0 ++ bytes64 s.ctx.bitcnt)) ∧
      (56 ≤ s.ctx.buf.length →
        t.digest = cf (cf s.ctx.v (s.ctx.buf ++ 0x80 :: List.replicate (63 - s.ctx.buf.length) 0))
          (List.replicate 56 0 ++ bytes64 s.ctx.bitcnt)) ∧
      t.ctx.v = t.digest ∧ t.ctx.bitcnt = s.ctx.bitcnt ∧ t.buflen = 0 ∧ t.fsm = .finalized ∧
      t.statusWord.extractLsb' 4 2 = 2 ∧ t.statusWord.extractLsb' 16 6 = 0 ∧
      t.errcode = .ok ∧ t.done = true ∧ t.busy = false ∧ OnlyWrites (writesOf .ctxFinal) s t) ∧
  ∀ s : State, s.fsm ≠ .active →
    exec .ctxFinal s = .next { s with engine := .idle, done := true, errcode := .ctxState }

/-- 41_streaming_hasher.md R150, R151: `HASH` of a written message that fits `DIN` completes in every context and tree state,
with the digest that absorbing the message a byte at a time and padding give; its error. -/
def Obligations.HashCompletes : Prop :=
  decode 0x00000004 = .ok .hash ∧
  (∀ (s : State) (msg : List Byte), s.len.toNat ≤ 4096 → msg.length = s.len.toNat →
    (∀ k (h : k < msg.length), Memory.read s.mem (0x10000 + k) = some msg[k]) →
    ∃ t, exec .hash s = .next t ∧ t.digest = padAndCompress (msg.foldl absorbByte ⟨iv, 0, []⟩) ∧
      t.errcode = .ok ∧ t.done = true ∧ t.busy = false ∧ OnlyWrites (writesOf .hash) s t) ∧
  ∀ s : State, 4096 < s.len.toNat →
    exec .hash s = .next { s with engine := .idle, done := true, errcode := .lenRange }

/-- 40_compression_core.md R123: `COMPRESS` of a written block completes in every state and writes `CF(SIO, DIN[0..64))` to
`SIO`. -/
def Obligations.CompressCompletes : Prop :=
  decode 0x00000005 = .ok .compress ∧
  ∀ (s : State) (block : List Byte), block.length = 64 →
    (∀ k (h : k < block.length), Memory.read s.mem (0x10000 + k) = some block[k]) →
    ∃ t, exec .compress s = .next t ∧ t.sio = cf s.sio block ∧
      t.errcode = .ok ∧ t.done = true ∧ t.busy = false ∧ OnlyWrites (writesOf .compress) s t

/-- 41_streaming_hasher.md R154: `CTX_EXPORT` of an existing context completes; `CIO` takes the bit count; its error. -/
def Obligations.CtxExportCompletes : Prop :=
  decode 0x00000006 = .ok .ctxExport ∧
  (∀ s : State, s.fsm ≠ .uninit →
    ∃ t, exec .ctxExport s = .next t ∧ (∀ k, t.sio.get k = s.ctx.v.get k) ∧
      t.cioLo.toNat = s.ctx.bitcnt.toNat % 2 ^ 32 ∧ t.cioHi.toNat = s.ctx.bitcnt.toNat / 2 ^ 32 ∧
      t.errcode = .ok ∧ t.done = true ∧ t.busy = false ∧ OnlyWrites (writesOf .ctxExport) s t) ∧
  ∀ s : State, s.fsm = .uninit →
    exec .ctxExport s = .next { s with engine := .idle, done := true, errcode := .ctxState }

/-- 41_streaming_hasher.md R155: `CTX_IMPORT` of a whole number of blocks completes in every context state; its error. -/
def Obligations.CtxImportCompletes : Prop :=
  decode 0x00000007 = .ok .ctxImport ∧
  (∀ s : State, (s.cioHi.toNat * 2 ^ 32 + s.cioLo.toNat) % 512 = 0 →
    ∃ t, exec .ctxImport s = .next t ∧ (∀ k, t.ctx.v.get k = s.sio.get k) ∧
      t.ctx.bitcnt.toNat = s.cioHi.toNat * 2 ^ 32 + s.cioLo.toNat ∧ t.buflen = 0 ∧ t.fsm = .active ∧
      t.statusWord.extractLsb' 4 2 = 1 ∧ t.statusWord.extractLsb' 16 6 = 0 ∧
      t.errcode = .ok ∧ t.done = true ∧ t.busy = false ∧ OnlyWrites (writesOf .ctxImport) s t) ∧
  ∀ s : State, (s.cioHi.toNat * 2 ^ 32 + s.cioLo.toNat) % 512 ≠ 0 →
    exec .ctxImport s = .next { s with engine := .idle, done := true, errcode := .importAlign }

/-- 42_merkle_tree.md R174, R175, R177, R178, R179, with `combine` by log 10: `TREE_BUILD` over 1 to `MAX_LEAVES` written leaves completes; `TMEM` then
holds every node of the spec's tree in level-major order, the registers are the tree's, and every byte outside the slots
`N .. T(N)-1` is unchanged. -/
def Obligations.TreeBuildCompletes : Prop :=
  decode 0x00000010 = .ok .treeBuild ∧
  ∀ (s : State) (leaf : Nat → Words8), s.treeValid = false → 1 ≤ s.len.toNat → s.len.toNat ≤ Config.maxLeaves →
    (∀ i, i < s.len.toNat → readNode s.mem i = some (leaf i)) →
    ∃ t, exec .treeBuild s = .next t ∧
      HoldsTree t.mem leaf s.len.toNat (Nat.clog 2 s.len.toNat) ∧ t.treeValid = true ∧ t.treeN = s.len ∧
      t.treeDepth.toNat = Nat.clog 2 s.len.toNat ∧
      t.treeRoot = nodeValue leaf s.len.toNat (Nat.clog 2 s.len.toNat) 0 ∧
      (∀ a, a < slotAddr s.len.toNat ∨ slotAddr (nodeCount s.len.toNat) ≤ a → Memory.read t.mem a = Memory.read s.mem a) ∧
      t.errcode = .ok ∧ t.done = true ∧ t.busy = false ∧ OnlyWrites (writesOf .treeBuild) s t

/-- 42_merkle_tree.md R178, R179, 60_exceptions.md R202: where `TREE_BUILD` reports an error, and which. -/
def Obligations.TreeBuildErrors : Prop :=
  (∀ s : State, s.treeValid = true →
    exec .treeBuild s = .next { s with engine := .idle, done := true, errcode := .treeExists }) ∧
  (∀ s : State, s.treeValid = false → s.len = 0 →
    exec .treeBuild s = .next { s with engine := .idle, done := true, errcode := .treeEmpty }) ∧
  ∀ s : State, s.treeValid = false → Config.maxLeaves < s.len.toNat →
    exec .treeBuild s = .next { s with engine := .idle, done := true, errcode := .treeOvercap }

/-- 42_merkle_tree.md R182: `TREE_FREE` with a tree held completes, every tree register reads 0 and `TMEM` is left as it was;
its error. -/
def Obligations.TreeFreeCompletes : Prop :=
  decode 0x00000011 = .ok .treeFree ∧
  (∀ s : State, s.treeValid = true →
    ∃ t, exec .treeFree s = .next t ∧ t.treeValid = false ∧ t.treeN = 0 ∧ t.treeDepth = 0 ∧
      (∀ k, t.treeRoot.get k = 0) ∧ t.mem = s.mem ∧ t.statusWord.getLsbD 6 = false ∧
      t.errcode = .ok ∧ t.done = true ∧ t.busy = false ∧ OnlyWrites (writesOf .treeFree) s t) ∧
  ∀ s : State, s.treeValid = false →
    exec .treeFree s = .next { s with engine := .idle, done := true, errcode := .treeNone }

/-- 30_encoding.md R93: the frame of every command. On a next state it has written only its row of the table (and `STATUS`);
`TREE_BUILD` has written no byte outside the slots `N .. T(N)-1`; no other command has written any byte. -/
def Obligations.CommandsWriteOnlyTheirRow : Prop :=
  ∀ (i : Instr) (s t : State), exec i s = .next t →
    OnlyWrites (writesOf i) s t ∧
      (i = .treeBuild → ∀ a, a < slotAddr s.len.toNat ∨ slotAddr (nodeCount s.len.toNat) ≤ a →
        Memory.read t.mem a = Memory.read s.mem a) ∧
      (i ≠ .treeBuild → ∀ a, Memory.read t.mem a = Memory.read s.mem a)

/-- 30_encoding.md R93: what a command writes depends on nothing outside its row's 'reads' column. -/
def Obligations.CommandsReadOnlyTheirRow : Prop :=
  ∀ (i : Instr) (s t s' : State), ReadsAgree i s t → exec i s = .next s' →
    ∃ t', exec i t = .next t' ∧ WrittenAgree i s' t' ∧
      (i = .treeBuild → s'.errcode = .ok → ∀ slot, s.len.toNat ≤ slot → slot < nodeCount s.len.toNat →
        readNode s'.mem slot = readNode t'.mem slot)

/-! ## Errors -/

/-- 60_exceptions.md R201, R202: the error code a completion reports is the first of the command's checks that applies. -/
def Obligations.ErrorCodesFollowTheCheckOrder : Prop :=
  ∀ (i : Instr) (s t : State), exec i s = .next t → t.errcode = reportedError i s

/-- 60_exceptions.md R203: a command whose check fails, and a word that is no command, complete with the error's code and change
nothing else. -/
def Obligations.ErrorCompletionsChangeOnlyStatus : Prop :=
  (∀ (i : Instr) (s : State), reportedError i s ≠ .ok →
    exec i s = .next { s with engine := .idle, done := true, errcode := reportedError i s }) ∧
  ∀ (op : Word) (e : BadCmd) (s : State), decode op = .error e →
    execute op s = .next { s with engine := .idle, done := true, errcode := .badCmd }

/-- 60_exceptions.md R220, 10_state.md R42, R43: a command stops with `UNWRITTEN_READ` exactly when its checks pass and an
operand byte it reads has never been written. -/
def Obligations.UnwrittenOperandsFault : Prop :=
  ∀ (i : Instr) (s : State) (f : Fault), exec i s = .fault f ↔
    reportedError i s = .ok ∧
      (((i = .ctxUpdate ∨ i = .hash) ∧ ∃ k, k < s.len.toNat ∧ Memory.read s.mem (0x10000 + k) = none) ∨
        (i = .compress ∧ ∃ k, k < 64 ∧ Memory.read s.mem (0x10000 + k) = none) ∨
        (i = .treeBuild ∧ ∃ k, k < 32 * s.len.toNat ∧ Memory.read s.mem (0x1000000 + k) = none))

/-- No command and no step is ever refused. -/
def Obligations.NothingIsRefused : Prop :=
  (∀ (i : Instr) (s : State) (r : Refusal), exec i s ≠ .refused r) ∧
  ∀ (s : State) (r : Refusal), step s ≠ .refused r

/-- 10_state.md R31: the lifecycle table. -/
def Obligations.LifecycleTable : Prop :=
  ∀ (i : Instr) (s t : State), exec i s = .next t →
    t.fsm = match i with
      | .ctxInit => .active
      | .ctxUpdate => s.fsm
      | .ctxFinal => if s.fsm = .active then .finalized else s.fsm
      | .ctxExport => s.fsm
      | .ctxImport => if (s.cioHi.toNat * 2 ^ 32 + s.cioLo.toNat) % 512 = 0 then .active else s.fsm
      | .hash => s.fsm
      | .compress => s.fsm
      | .treeBuild => s.fsm
      | .treeFree => s.fsm

/-- 41_streaming_hasher.md R152: after a successful `CTX_FINAL` the context is `FINALIZED`; there `CTX_UPDATE` and `CTX_FINAL` are
`CTX_STATE` error completions; and no step but a `CTX_INIT`, a `CTX_IMPORT` or a reset ends that. -/
def Obligations.FinalizedContextIsTerminal : Prop :=
  (∀ s t : State, exec .ctxFinal s = .next t → t.errcode = .ok → t.fsm = .finalized) ∧
  (∀ (s : State) (i : Instr), s.fsm = .finalized → i = .ctxUpdate ∨ i = .ctxFinal →
    exec i s = .next { s with engine := .idle, done := true, errcode := .ctxState }) ∧
  ∀ s t : State, s.fsm = .finalized → step s = .next t → ¬ ResetNext s → ¬ CompletesNext .ctxInit s →
    ¬ CompletesNext .ctxImport s → t.fsm = .finalized

/-! ## The hash function -/

/-- 00_scope.md R12: `rotl(x, n) = ((x << k) | (x >> (32 - k))) mod 2^32` with `k = n mod 32`, and `rotl(x, n) = x` when
`k = 0`. -/
def Obligations.RotationIsCyclicLeft : Prop :=
  ∀ (x : Word) (n : Nat),
    (rotl x n).toNat = (x.toNat * 2 ^ (n % 32) + x.toNat / 2 ^ (32 - n % 32)) % 2 ^ 32 ∧
      (n % 32 = 0 → rotl x n = x) ∧ rotl x n = x.rotateLeft n

/-- 40_compression_core.md R117, R118, R119 (log 15): the 68 expanded words of a 64-byte block, `P1` written out. -/
def Obligations.MessageExpansion : Prop :=
  ∀ block : List Byte, block.length = 64 →
    (expand block).length = 68 ∧
    (∀ i, i < 16 → (expand block).getD i 0 =
      be32 (block.getD (4 * i) 0) (block.getD (4 * i + 1) 0) (block.getD (4 * i + 2) 0) (block.getD (4 * i + 3) 0)) ∧
    ∀ i, 16 ≤ i → i < 68 →
      let x := (expand block).getD (i - 16) 0 ^^^ (expand block).getD (i - 9) 0 ^^^
        ((expand block).getD (i - 3) 0).rotateLeft 15
      (expand block).getD i 0 =
        (x ^^^ x.rotateLeft 15 ^^^ x.rotateLeft 23) ^^^ ((expand block).getD (i - 13) 0).rotateLeft 7 ^^^
          (expand block).getD (i - 6) 0

/-- 40_compression_core.md R112 to R116, R120, R121, R124 (log 15): the 64 rounds of `CF`, from the state `V`, over the expanded words, and
the final XOR. -/
def Obligations.CompressionRounds : Prop :=
  ∀ (v : Words8) (block : List Byte), block.length = 64 →
    ∃ x : Nat → Words8, x 0 = v ∧ (∀ k, (cf v block).get k = (x 64).get k ^^^ v.get k) ∧
      ∀ j, j < 64 →
        let w := (expand block).getD j 0
        let w1 := (expand block).getD j 0 ^^^ (expand block).getD (j + 4) 0
        let t : Word := if j < 16 then 0x79CC4519 else 0x7A879D8A
        let (a, b, c, d) := ((x j).w0, (x j).w1, (x j).w2, (x j).w3)
        let (e, f, g, h) := ((x j).w4, (x j).w5, (x j).w6, (x j).w7)
        let ss1 := (a.rotateLeft 12 + e + t.rotateLeft (j % 32)).rotateLeft 7
        let tt1 := (if j < 16 then a ^^^ b ^^^ c else (a &&& b) ||| (a &&& c) ||| (b &&& c)) + d + (ss1 ^^^ a.rotateLeft 12) + w1
        let tt2 := (if j < 16 then e ^^^ f ^^^ g else (e &&& f) ||| (~~~e &&& g)) + h + ss1 + w
        x (j + 1) =
          ⟨tt1, a, b.rotateLeft 9, c, tt2 ^^^ tt2.rotateLeft 9 ^^^ tt2.rotateLeft 17, e, f.rotateLeft 19, g⟩

/-- 41_streaming_hasher.md R157, 42_merkle_tree.md R170, 70_reset_and_hazards.md R243, R244: how many blocks `CF` runs over: for
an absorb, `floor((BUFLEN + LEN) / 64)` blocks, which with the new buffer are the old buffer and the input; for the padding, the
one or two blocks of `pad` on the buffer and the bit count; for the one-shot hash, `floor(LEN / 64)` and the padding's, which
together are the message and its padding bytes; two for a tree node (log 10). -/
def Obligations.CompressionCounts : Prop :=
  (∀ (c : Hasher) (msg : List Byte), c.buf.length ≤ 63 →
    ∃ blocks : List (List Byte), (∀ b ∈ blocks, b.length = 64) ∧ blocks.length = (c.buf.length + msg.length) / 64 ∧
      (absorb c msg).v = blocks.foldl cf c.v ∧ blocks.flatten ++ (absorb c msg).buf = c.buf ++ msg) ∧
  (∀ c : Hasher, c.buf.length ≤ 63 →
    (∀ b ∈ pad c.buf c.bitcnt, b.length = 64) ∧ (pad c.buf c.bitcnt).length = finalCompressions c.buf.length ∧
      padAndCompress c = (pad c.buf c.bitcnt).foldl cf c.v) ∧
  (∀ msg : List Byte,
    ∃ blocks : List (List Byte), (∀ b ∈ blocks, b.length = 64) ∧
      blocks.length = msg.length / 64 + finalCompressions (msg.length % 64) ∧
      blocks.flatten = msg ++ paddingBytes msg.length ∧ hashWords msg = blocks.foldl cf iv) ∧
  ∀ l r : Words8,
    combine l r = cf (cf iv (ser l ++ ser r)) (0x80 :: List.replicate 55 0 ++ bytes64 512)

/-- 41_streaming_hasher.md R143: any split of a byte sequence leaves the same context as one absorb of the whole; absorbing
equals feeding the bytes one at a time; the bit count is additive modulo 2^64. -/
def Obligations.ChunkingInvariance : Prop :=
  (∀ (c : Hasher) (parts : List (List Byte)), c.buf.length ≤ 63 →
    parts.foldl absorb c = absorb c parts.flatten) ∧
  (∀ (c : Hasher) (msg : List Byte), c.buf.length ≤ 63 → absorb c msg = msg.foldl absorbByte c) ∧
  ∀ (c : Hasher) (msg : List Byte), (absorb c msg).bitcnt = c.bitcnt + BitVec.ofNat 64 (8 * msg.length)

/-- 41_streaming_hasher.md R145, R146: the padding of a remainder: blocks of exactly 64 bytes, one up to 55 bytes and two from
56 on, which together are the remainder, `0x80`, zeros up to 56 mod 64, and the 64-bit bit count. -/
def Obligations.PaddingLayout : Prop :=
  ∀ (r : List Byte) (c : BitCount), r.length ≤ 63 →
    (∀ block ∈ pad r c, block.length = 64) ∧ (pad r c).length = finalCompressions r.length ∧
    ∃ z, z < 64 ∧ (r.length + 1 + z) % 64 = 56 ∧
      (pad r c).flatten = r ++ 0x80 :: List.replicate z 0 ++ bytes64 c

/-- 41_streaming_hasher.md R147: the padding controller, started over any 64 bytes of storage whose first `BUFLEN` are the
buffered ones, ends after at most seven transitions with the digest that R148 gives. -/
def Obligations.PaddingControllerRefinesFinal : Prop :=
  ∀ (c : Hasher) (storage : List Byte), c.buf.length ≤ 63 → storage.length = 64 →
    storage.take c.buf.length = c.buf →
    (padControllerRun c.buf.length c.bitcnt 7 (padControllerStart storage c.v)).st = .ended ∧
      (padControllerRun c.buf.length c.bitcnt 7 (padControllerStart storage c.v)).digest = some (padAndCompress c)

/-- 41_streaming_hasher.md R150: for a message that fits `DIN`, `HASH` gives the digest of `CTX_INIT`, `CTX_UPDATE` and
`CTX_FINAL`. -/
def Obligations.HashEqualsInitUpdateFinal : Prop :=
  ∀ (s : State) (msg : List Byte), s.len.toNat ≤ 4096 → msg.length = s.len.toNat →
    (∀ k (h : k < msg.length), Memory.read s.mem (0x10000 + k) = some msg[k]) →
    ∃ h a b c, exec .hash s = .next h ∧ exec .ctxInit s = .next a ∧ exec .ctxUpdate a = .next b ∧
      exec .ctxFinal b = .next c ∧ h.digest = c.digest ∧ h.ctx = s.ctx

/-- 41_streaming_hasher.md R156, first part: importing the exported state of a whole number of blocks and absorbing on gives the
context that absorbing everything gives. -/
def Obligations.ResumptionEquivalence : Prop :=
  ∀ m suffix : List Byte, m.length % 64 = 0 → m.length < 2 ^ 61 →
    absorb ⟨(absorb freshHasher m).v, BitVec.ofNat 64 (8 * m.length), []⟩ suffix = absorb freshHasher (m ++ suffix)

/-- 41_streaming_hasher.md R156, second part: length extension. -/
def Obligations.LengthExtension : Prop :=
  ∀ m suffix : List Byte, m.length < 2 ^ 61 →
    (m ++ paddingBytes m.length).length % 64 = 0 ∧
    padAndCompress
        (absorb ⟨hashWords m, BitVec.ofNat 64 (8 * (m.length + (paddingBytes m.length).length)), []⟩ suffix) =
      hashWords (m ++ paddingBytes m.length ++ suffix)

/-- 70_reset_and_hazards.md R239, 41_streaming_hasher.md R154, R155: with an empty buffer, `CTX_EXPORT` then `CTX_IMPORT` gives
the active context back; with bytes buffered, the export does not hold them and the import is an `IMPORT_ALIGN` error. -/
def Obligations.ExportThenImportResumes : Prop :=
  (∀ s : State, Inv s → s.fsm = .active → s.buflen = 0 →
    ∃ a b, exec .ctxExport s = .next a ∧ exec .ctxImport a = .next b ∧ b.ctx = s.ctx ∧ b.fsm = .active) ∧
  ∀ s : State, Inv s → s.fsm = .active → s.buflen ≠ 0 →
    ∃ a b, exec .ctxExport s = .next a ∧ exec .ctxImport a = .next b ∧ b.errcode = .importAlign ∧
      ∀ c, exec .ctxImport { a with cioLo := 0, cioHi := 0 } = .next c → c.ctx.buf = []

/-! ## The bus -/

/-- 20_memory.md R60, R64 to R68, R71, 60_exceptions.md R206, R209, R220: an access is a bus error exactly under R68's conditions:
then a read answers 0, a write answers no data, and nothing else changes. Any other access is answered `OKAY`, but for one that
faults: an idle read of a `DIN` or `TMEM` word of which a byte has never been written, and no other (that a read while busy never
faults is the model's choice, log 22). An idle read of a written window word answers its four bytes, the first most significant,
also while a tree is held. -/
def Obligations.BusErrors : Prop :=
  ∀ (a : BusAccess) (s : State),
    (BusAccess.rejected a s →
      busAccess a s = .next { s with busResp := some ⟨.busErr, if a.we then none else some 0⟩ }) ∧
    (¬ BusAccess.rejected a s →
      (∃ t d, busAccess a s = .next t ∧ t.busResp = some ⟨.okay, d⟩) ∨ busAccess a s = .fault .unwrittenRead) ∧
    (∀ f : Fault, busAccess a s = .fault f ↔
      ¬ BusAccess.rejected a s ∧ a.we = false ∧ s.busy = false ∧ 0x10000 ≤ a.addr.toNat ∧
        ∃ k, k < 4 ∧ Memory.read s.mem (a.addr.toNat + k) = none) ∧
    (¬ BusAccess.rejected a s → a.we = false → s.busy = false → 0x10000 ≤ a.addr.toNat →
      ∀ b0 b1 b2 b3 : Byte, Memory.read s.mem a.addr.toNat = some b0 → Memory.read s.mem (a.addr.toNat + 1) = some b1 →
        Memory.read s.mem (a.addr.toNat + 2) = some b2 → Memory.read s.mem (a.addr.toNat + 3) = some b3 →
        ∃ v : Word, v.toNat = b0.toNat * 2 ^ 24 + b1.toNat * 2 ^ 16 + b2.toNat * 2 ^ 8 + b3.toNat ∧
          busAccess a s = .next { s with busResp := some ⟨.okay, some v⟩ })

/-- 60_exceptions.md R209: access while busy. What a read of unspecified value answers is the model's free value of its draw
counter (log 6), also for a window word with a never-written byte (log 22); that the soft-reset write is answered `OKAY` is the
model's reading (log 12). -/
def Obligations.AccessWhileBusy : Prop :=
  ∀ (s : State), s.busy = true →
    (∀ a : BusAccess, BusAccess.legal a → a.we = true → a.addr ≠ 0x008 →
      busAccess a s = .next { s with busResp := some ⟨.busErr, none⟩ }) ∧
    (∀ v : Word, v.getLsbD 1 = false →
      busAccess (writeAccess 0x008 v) s = .next { s with irqEn := v.getLsbD 0, busResp := some ⟨.okay, none⟩ }) ∧
    (∀ v : Word, v.getLsbD 1 = true →
      busAccess (writeAccess 0x008 v) s = .next { softReset s with busResp := some ⟨.okay, none⟩ }) ∧
    (∀ a : BusAccess, BusAccess.legal a → a.we = false → a.addr.toNat < 0x10000 →
      regAt a.addr.toNat ∈ [.status, .ctrl, .cmd, .capMaxLeaves, .capDinBytes, .reserved, .len] →
      busAccess a s = .next { s with busResp := some ⟨.okay, some (regRead (regAt a.addr.toNat) s)⟩ }) ∧
    (∀ a : BusAccess, BusAccess.legal a → a.we = false → a.addr.toNat < 0x10000 →
      regAt a.addr.toNat ∉ [.status, .ctrl, .cmd, .capMaxLeaves, .capDinBytes, .reserved, .len] →
      busAccess a s =
        .next { s with busResp := some ⟨.okay, some (Config.freeRead s.draws)⟩, draws := s.draws + 1 }) ∧
    ∀ a : BusAccess, BusAccess.legal a → a.we = false → 0x10000 ≤ a.addr.toNat → ¬ InHole a.addr.toNat →
      busAccess a s =
        .next { s with busResp := some ⟨.okay, some (Config.freeRead s.draws)⟩, draws := s.draws + 1 }

/-- 20_memory.md R60: a word written to a window at `a` stands big-endian at `a .. a+3`, no other byte, no register and nothing of
the context changes, and the word reads back. -/
def Obligations.WindowWordsAreBigEndian : Prop :=
  ∀ (s : State) (a w : Word), ¬ BusAccess.rejected (writeAccess a w) s → s.busy = false → 0x10000 ≤ a.toNat →
    ∃ t, busAccess (writeAccess a w) s = .next t ∧ t = { s with mem := t.mem, busResp := some ⟨.okay, none⟩ } ∧
      (∀ k, k < 4 → Memory.read t.mem (a.toNat + k) = some (w.extractLsb' (24 - 8 * k) 8)) ∧
      (∀ x, x < a.toNat ∨ a.toNat + 4 ≤ x → Memory.read t.mem x = Memory.read s.mem x) ∧
      busAccess (readAccess a) t = .next { t with busResp := some ⟨.okay, some w⟩ }

/-- 20_memory.md R70: a read changes nothing but the bus answer (and, for a read that answers an unspecified value, the model's
draw counter); while idle it may be repeated with the same result. -/
def Obligations.ReadsHaveNoSideEffect : Prop :=
  ∀ (a : BusAccess) (s t : State), a.we = false → busAccess a s = .next t →
    t = { s with busResp := t.busResp, draws := t.draws } ∧
      (s.busy = false → t.draws = s.draws ∧ busAccess a t = .next t)

/-- 10_state.md R23, R26, R33, R34, R35, R40: what an idle write to each aligned register offset but `CMD`, `STATUS` and the
`CTRL` soft reset changes: `IRQ_EN`, `LEN`, one word of `SIO`, `CIO_LO` or `CIO_HI`, and nothing else; read-only and reserved
offsets ignore it. The answer is `OKAY`. -/
def Obligations.RegisterWrites : Prop :=
  ∀ (s : State) (v : Word), s.busy = false →
    let writes (off : Nat) (t : State) : Prop :=
      busAccess (writeAccess (BitVec.ofNat 32 off) v) s = .next { t with busResp := some ⟨.okay, none⟩ }
    (v.getLsbD 1 = false → writes 0x008 { s with irqEn := v.getLsbD 0 }) ∧
    writes 0x00C { s with len := v } ∧ writes 0x040 { s with cioLo := v } ∧ writes 0x044 { s with cioHi := v } ∧
    (∀ k : Fin 8, ∃ sio, writes (0x020 + 4 * k) { s with sio := sio } ∧
      ∀ j : Fin 8, (wordList sio).getD j 0 = if j = k then v else (wordList s.sio).getD j 0) ∧
    ∀ off, off % 4 = 0 → (0x010 ≤ off ∧ off ≤ 0x01C) ∨ (0x048 ≤ off ∧ off ≤ 0xFFFC) → writes off s

/-- 10_state.md R25, R31, 60_exceptions.md R201: the fields of `STATUS`, with the code of each error and `ERR` set where it is not
0, and that its reserved bits read 0; `FSM` never reads 3. -/
def Obligations.StatusFields : Prop :=
  ∀ s : State, Inv s →
    s.statusWord.getLsbD 0 = s.busy ∧ s.statusWord.getLsbD 1 = s.done ∧
    s.statusWord.getLsbD 2 = decide (s.statusWord.extractLsb' 8 8 ≠ 0) ∧ s.statusWord.getLsbD 3 = false ∧
    s.statusWord.extractLsb' 4 2 ≠ 3 ∧ (s.statusWord.extractLsb' 4 2 = 0 ↔ s.fsm = .uninit) ∧
    (s.statusWord.extractLsb' 4 2 = 1 ↔ s.fsm = .active) ∧ (s.statusWord.extractLsb' 4 2 = 2 ↔ s.fsm = .finalized) ∧
    s.statusWord.getLsbD 6 = s.treeValid ∧ s.statusWord.getLsbD 7 = false ∧
    (s.statusWord.extractLsb' 8 8).toNat = (match s.errcode with
      | .ok => 0x00
      | .badCmd => 0x01
      | .ctxState => 0x02
      | .lenRange => 0x03
      | .treeEmpty => 0x04
      | .treeOvercap => 0x05
      | .treeExists => 0x06
      | .treeNone => 0x07
      | .importAlign => 0x08) ∧
    (s.statusWord.extractLsb' 16 6).toNat = s.ctx.buf.length ∧
    s.statusWord.extractLsb' 22 10 = 0 ∧
    (s.busy = true → s.statusWord.getLsbD 1 = false ∧ s.statusWord.extractLsb' 8 8 = 0)

/-- 10_state.md R25, R46: an idle write to `STATUS` clears `DONE` when its bit 1 is set, and does nothing else. -/
def Obligations.WritingStatusClearsDone : Prop :=
  ∀ (s : State) (v : Word), s.busy = false →
    busAccess (writeAccess 0x004 v) s =
      .next { s with done := if v.getLsbD 1 = true then false else s.done, busResp := some ⟨.okay, none⟩ }

/-- 60_exceptions.md R207: the interrupt output. -/
def Obligations.InterruptFollowsDone : Prop :=
  (∀ s : State, s.irq = (s.statusWord.getLsbD 1 && s.ctrlWord.getLsbD 0)) ∧
  (∀ (op : Word) (s t : State), execute op s = .next t → t.irq = s.irqEn) ∧
  (∀ (s : State) (w : Word), s.busy = false →
    ∃ t, busAccess (writeAccess 0x000 w) s = .next t ∧ t.irq = false) ∧
  (∀ (s : State) (v : Word), s.busy = false → v.getLsbD 1 = true →
    ∃ t, busAccess (writeAccess 0x004 v) s = .next t ∧ t.irq = false) ∧
  (∀ (s : State) (v : Word), v.getLsbD 1 = false → v.getLsbD 0 = false →
    ∃ t, busAccess (writeAccess 0x008 v) s = .next t ∧ t.irq = false ∧ t.done = s.done) ∧
  ∀ s : State, (softReset s).irq = false ∧ (powerOnReset s).irq = false

/-- 70_reset_and_hazards.md R231: a write of 1 to `CTRL.SOFT_RESET` performs the reset, busy or not, before the next event; its bit
0 is ignored; `SOFT_RESET` reads 0. That the write is answered `OKAY`, and that the answer survives the reset, is the model's
reading (log 12). -/
def Obligations.SoftResetByCtrlWrite : Prop :=
  (∀ (s : State) (v : Word) (rest : List Event), v.getLsbD 1 = true →
    s.script = .access (writeAccess 0x008 v) :: rest →
    step s = .next { softReset { s with script := rest } with busResp := some ⟨.okay, none⟩ }) ∧
  (∀ s : State, (softReset s).irqEn = false) ∧
  ∀ s : State, s.ctrlWord.getLsbD 1 = false

/-- 70_reset_and_hazards.md R232: a reset while busy abandons the command without its effect: no `DONE`, no `irq`, every register
at its reset value. Under a soft reset the windows keep every byte, except that after an abandoned `TREE_BUILD` the bytes of
slots at or above `LEN` may have other values (93_implementation_defined.md U9). That which bytes have been written stays is the
model's reading (log 7). -/
def Obligations.AbandonedCommandHasNoEffect : Prop :=
  ∀ s : State, s.busy = true →
    (∀ t : State, t = softReset s ∨ t = powerOnReset s →
      t.engine = .idle ∧ t.done = false ∧ t.irq = false ∧ t.fsm = .uninit ∧ t.ctx.buf = [] ∧
        ∀ r : Reg, r ≠ .capMaxLeaves → r ≠ .capDinBytes → regRead r t = 0) ∧
    (∀ a, (Memory.read (softReset s).mem a).isSome = (Memory.read s.mem a).isSome) ∧
    (∀ a, a < 0x1000000 + 32 * s.len.toNat → Memory.read (softReset s).mem a = Memory.read s.mem a) ∧
    (s.engine ≠ .exec (encode .treeBuild) → (softReset s).mem = s.mem)

/-- 70_reset_and_hazards.md R245, 60_exceptions.md R220: a busy engine completes within the events the script still holds and one
more step, unless a reset intervenes (or the command stops on an unwritten byte). The script is the model's (log 1). -/
def Obligations.EveryCommandCompletes : Prop :=
  ∀ s : State, s.busy = true → (∀ e ∈ s.script, ¬ Event.resets e) →
    ∃ k, k ≤ s.script.length + 1 ∧
      ((∃ t, Sys2Proof.core.run k s = .next t ∧ t.busy = false ∧ t.done = true) ∨
        Sys2Proof.core.run k s = .fault .unwrittenRead)

/-- 30_encoding.md R105: running `LOADMSG` from an idle state leaves the bytes in `DIN`, readable as the next message, and `LEN`
set (a program is a script: log 3). -/
def Obligations.LoadMsgLoadsTheMessage : Prop :=
  ∀ (s : State) (msg : List Byte), s.busy = false → msg.length ≤ 4096 →
    s.script = pseudoEvents (.loadMsg msg) →
    ∃ t, Sys2Proof.core.run s.script.length s = .next t ∧ t.script = [] ∧ t.busy = false ∧
      t.len.toNat = msg.length ∧ readMessage t = some msg ∧
      ∀ a, 0x11000 ≤ a → Memory.read t.mem a = Memory.read s.mem a

/-- 30_encoding.md R91, R105: running `ISSUE` (a `CMD` write, then `WAIT`) from an idle state gives the command's own next state,
with the last read of `STATUS` answered; `polls` of the `WAIT`'s reads find the engine busy (log 2, log 20). -/
def Obligations.IssueRunsTheCommand : Prop :=
  ∀ (s t : State) (i : Instr) (polls : Nat), s.busy = false → s.script = pseudoEvents (.issue i polls) →
    exec i { s with engine := .exec (encode i), done := false, errcode := .ok } = .next t →
    Sys2Proof.core.run s.script.length s =
      .next { t with script := [], busResp := some ⟨.okay, some t.statusWord⟩ }

/-! ## Capacity -/

/-- 42_merkle_tree.md R176: the node count is the sum of the level sizes; its recurrence, its bound and its sample values. -/
def Obligations.NodeCount : Prop :=
  (∀ n, 1 ≤ n → n ≤ 2 ^ 32 → nodeCount n = ((List.range (Nat.clog 2 n + 1)).map (levelSize n)).sum) ∧
  nodeCount 1 = 1 ∧
  (∀ n, 1 < n → n ≤ 2 ^ 32 → nodeCount n = n + nodeCount ((n + 1) / 2)) ∧
  (∀ n, 1 ≤ n → n ≤ 2 ^ 32 → nodeCount n ≤ 2 * n + Nat.clog 2 n) ∧
  nodeCount 2 = 3 ∧ nodeCount 3 = 6 ∧ nodeCount 7 = 14 ∧ nodeCount 100000 = 200006 ∧
  nodeCap = nodeCount Config.maxLeaves

/-- 00_scope.md R10, R16, 10_state.md R39, 20_memory.md R63: `MAX_LEAVES` lies in its bounds, `TMEM` fits its part of the
aperture, `CAP_MAX_LEAVES` and `CAP_DIN_BYTES` read the parameters in every state, and the four regions are R63's ranges. -/
def Obligations.ApertureMap : Prop :=
  100000 ≤ Config.maxLeaves ∧ Config.maxLeaves ≤ 3900000 ∧ 32 * nodeCap ≤ 0x0F000000 ∧
  (∀ s : State, (regRead .capMaxLeaves s).toNat = Config.maxLeaves ∧ (regRead .capDinBytes s).toNat = 4096) ∧
  ∀ off : Nat, (regionAt off = .registers ↔ off < 0x10000) ∧ (regionAt off = .din ↔ 0x10000 ≤ off ∧ off < 0x11000) ∧
    (regionAt off = .tmem ↔ 0x1000000 ≤ off ∧ off < 0x1000000 + 32 * nodeCap) ∧ (regionAt off = .hole ↔ InHole off)

/-! ## The proof consumer -/

/-- 43_proof_consumer.md R190, R191, R195 (log 19): for every held tree and every leaf, an inclusion proof exists, has `TREE_DEPTH`
entries, at each level the sibling (or the node itself where it has none), and verifies against the root; into a storage of less
than `TREE_DEPTH` entries it fails fast. A proof verifies exactly where the running hash, combined with each entry in the order
the index's parity gives, ends in the root. The tree is read as CORE holds it, busy or not (log 19). -/
def Obligations.InclusionProofsVerify : Prop :=
  (∀ (s : State) (room i : Nat) (leaf : Words8), TreeCoherent s → s.treeValid = true → i < s.treeN.toNat →
    readNode s.mem i = some leaf →
    (s.treeDepth.toNat ≤ room →
      ∃ proof, proveInclusion s room i = .ok proof ∧ proof.length = s.treeDepth.toNat ∧
        (∀ l, l < s.treeDepth.toNat →
          readNode s.mem (levelOffset s.treeN.toNat l +
            (if (i / 2 ^ l) ^^^ 1 < levelSize s.treeN.toNat l then (i / 2 ^ l) ^^^ 1 else i / 2 ^ l)) =
              some (proof.getD l zeroWords)) ∧
        verifyInclusion s.treeRoot leaf i s.treeN.toNat proof = true) ∧
    (room < s.treeDepth.toNat → proveInclusion s room i = .error .bufferTooSmall)) ∧
  ∀ (leaf : Words8) (i : Nat) (proof : List Words8), ∃ h : Nat → Words8,
    h 0 = leaf ∧
    (∀ l, l < proof.length →
      h (l + 1) = if (i / 2 ^ l) % 2 = 0 then combine (h l) (proof.getD l zeroWords)
        else combine (proof.getD l zeroWords) (h l)) ∧
    ∀ (root : Words8) (n : Nat), verifyInclusion root leaf i n proof = true ↔ h proof.length = root

/-- 43_proof_consumer.md R192, R193, R194, R195, decision D26 (log 19): over sorted leaves the insertion point `p` splits the
leaves into those below the target and the others. An absent target gets the bounding leaves and `neighbor_index`: the last leaf
where `p = N`, the first where `p = 0`, else those at `p-1` and `p`; the proof verifies. A present target gets an empty proof, with
an index the spec leaves open, that does not verify. A storage smaller than the proof fails fast, and unsorted leaves are
refused. The tree's query fails fast into a storage of less than `TREE_DEPTH` entries, and else is the query over its leaves, read
as CORE holds them, busy or not. Of any proofs, one entry verifies where the target differs from it, two where the target lies
strictly between them, and no other number of entries does. -/
def Obligations.NonInclusionProofs : Prop :=
  ∀ (leaves : List Words8) (target root : Words8) (draw room n : Nat), 1 ≤ leaves.length →
    let p := insertionPoint leaves target
    let answers (proof : List Words8) (idx : Nat) : Prop :=
      (proof.length ≤ room → proveNonInclusion leaves room target draw = .ok (proof, idx)) ∧
      (room < proof.length → proveNonInclusion leaves room target draw = .error .bufferTooSmall)
    (sortedLeaves leaves = true →
      p ≤ leaves.length ∧ ∀ k (h : k < leaves.length), nodeLt leaves[k] target = true ↔ k < p) ∧
    (sortedLeaves leaves = true → target ∉ leaves →
      ∃ proof idx, answers proof idx ∧ verifyNonInclusion root target n proof idx = true ∧
        (p = leaves.length → proof = [leaves.getD (leaves.length - 1) zeroWords] ∧ idx = leaves.length - 1) ∧
        (p = 0 → proof = [leaves.getD 0 zeroWords] ∧ idx = 0) ∧
        (0 < p → p < leaves.length →
          proof = [leaves.getD (p - 1) zeroWords, leaves.getD p zeroWords] ∧ idx = p - 1)) ∧
    (sortedLeaves leaves = true → target ∈ leaves →
      ∃ idx, answers [] idx ∧ verifyNonInclusion root target n [] idx = false) ∧
    (sortedLeaves leaves = false → proveNonInclusion leaves room target draw = .error .unsortedLeaves) ∧
    (∀ s : State, s.treeValid = true → leaves.length = s.treeN.toNat →
      (∀ k (h : k < leaves.length), readNode s.mem k = some leaves[k]) →
      (room < s.treeDepth.toNat → proveNonInclusionOf s room target draw = .error .bufferTooSmall) ∧
      (s.treeDepth.toNat ≤ room →
        proveNonInclusionOf s room target draw = proveNonInclusion leaves room target draw)) ∧
    ∀ (x y : Words8) (proof : List Words8) (idx : Nat),
      (verifyNonInclusion root target n [x] idx = true ↔ target ≠ x) ∧
      (verifyNonInclusion root target n [x, y] idx = true ↔ nodeLt x target = true ∧ nodeLt target y = true) ∧
      (proof.length ≠ 1 → proof.length ≠ 2 → verifyNonInclusion root target n proof idx = false)

/-- 43_proof_consumer.md's `cmp` (log 19): a value lies below another exactly where, at the first byte in which they differ, its
byte is the smaller unsigned number. -/
def Obligations.CompareIsLexicographic : Prop :=
  ∀ a b : Words8, nodeLt a b = true ↔
    ∃ k, k < 32 ∧ (∀ j, j < k → (ser a).getD j 0 = (ser b).getD j 0) ∧
      ((ser a).getD k 0).toNat < ((ser b).getD k 0).toNat

/-! ## The register map -/

/-- 10_state.md R23, R40, 20_memory.md R71: which register stands at each aligned offset of the register block, and what an idle
read of it answers; it changes nothing but the bus answer. -/
def Obligations.RegisterMapAndIdleReads : Prop :=
  (regAt 0x000 = .cmd ∧ regAt 0x004 = .status ∧ regAt 0x008 = .ctrl ∧ regAt 0x00C = .len ∧ regAt 0x010 = .treeN ∧
    regAt 0x014 = .treeDepth ∧ regAt 0x018 = .capMaxLeaves ∧ regAt 0x01C = .capDinBytes ∧
    regAt 0x040 = .cioLo ∧ regAt 0x044 = .cioHi ∧
    (∀ k : Fin 8, regAt (0x020 + 4 * k) = .sio k ∧ regAt (0x060 + 4 * k) = .digest k ∧
      regAt (0x080 + 4 * k) = .treeRoot k) ∧
    ∀ off, off % 4 = 0 → (0x048 ≤ off ∧ off ≤ 0x05C) ∨ (0x0A0 ≤ off ∧ off ≤ 0xFFFC) → regAt off = .reserved) ∧
  ∀ s : State, s.busy = false →
    let reads (off : Nat) (v : Word) : Prop :=
      busAccess (readAccess (BitVec.ofNat 32 off)) s = .next { s with busResp := some ⟨.okay, some v⟩ }
    reads 0x000 0 ∧ reads 0x004 s.statusWord ∧ reads 0x008 s.ctrlWord ∧ reads 0x00C s.len ∧ reads 0x010 s.treeN ∧
    reads 0x014 s.treeDepth ∧ reads 0x018 (BitVec.ofNat 32 Config.maxLeaves) ∧ reads 0x01C 4096 ∧
    reads 0x040 s.cioLo ∧ reads 0x044 s.cioHi ∧
    (∀ k : Fin 8, reads (0x020 + 4 * k) ((wordList s.sio).getD k 0) ∧
      reads (0x060 + 4 * k) ((wordList s.digest).getD k 0) ∧
      reads (0x080 + 4 * k) ((wordList s.treeRoot).getD k 0)) ∧
    ∀ off, off % 4 = 0 → (0x048 ≤ off ∧ off ≤ 0x05C) ∨ (0x0A0 ≤ off ∧ off ≤ 0xFFFC) → reads off 0
end

