-- ==== Sys2Proof/Laws/State.lean ====
section
/-! SUPPORT. One lemma per field per named update of State, true by rfl, so that no proof unfolds a record update. -/

namespace Sys2Proof.Machine

/-! ## issue -/

@[simp] theorem issue_engine (w : Word) (s : State) : (issue w s).engine = .exec w := rfl
@[simp] theorem issue_done (w : Word) (s : State) : (issue w s).done = false := rfl
@[simp] theorem issue_errcode (w : Word) (s : State) : (issue w s).errcode = .ok := rfl
@[simp] theorem issue_irqEn (w : Word) (s : State) : (issue w s).irqEn = s.irqEn := rfl
@[simp] theorem issue_len (w : Word) (s : State) : (issue w s).len = s.len := rfl
@[simp] theorem issue_sio (w : Word) (s : State) : (issue w s).sio = s.sio := rfl
@[simp] theorem issue_cioLo (w : Word) (s : State) : (issue w s).cioLo = s.cioLo := rfl
@[simp] theorem issue_cioHi (w : Word) (s : State) : (issue w s).cioHi = s.cioHi := rfl
@[simp] theorem issue_digest (w : Word) (s : State) : (issue w s).digest = s.digest := rfl
@[simp] theorem issue_treeValid (w : Word) (s : State) : (issue w s).treeValid = s.treeValid := rfl
@[simp] theorem issue_treeN (w : Word) (s : State) : (issue w s).treeN = s.treeN := rfl
@[simp] theorem issue_treeDepth (w : Word) (s : State) : (issue w s).treeDepth = s.treeDepth := rfl
@[simp] theorem issue_treeRoot (w : Word) (s : State) : (issue w s).treeRoot = s.treeRoot := rfl
@[simp] theorem issue_fsm (w : Word) (s : State) : (issue w s).fsm = s.fsm := rfl
@[simp] theorem issue_ctx (w : Word) (s : State) : (issue w s).ctx = s.ctx := rfl
@[simp] theorem issue_mem (w : Word) (s : State) : (issue w s).mem = s.mem := rfl
@[simp] theorem issue_busResp (w : Word) (s : State) : (issue w s).busResp = s.busResp := rfl
@[simp] theorem issue_script (w : Word) (s : State) : (issue w s).script = s.script := rfl
@[simp] theorem issue_draws (w : Word) (s : State) : (issue w s).draws = s.draws := rfl

/-! ## finish -/

@[simp] theorem finish_engine (c : ErrCode) (s : State) : (finish c s).engine = .idle := rfl
@[simp] theorem finish_done (c : ErrCode) (s : State) : (finish c s).done = true := rfl
@[simp] theorem finish_errcode (c : ErrCode) (s : State) : (finish c s).errcode = c := rfl
@[simp] theorem finish_irqEn (c : ErrCode) (s : State) : (finish c s).irqEn = s.irqEn := rfl
@[simp] theorem finish_len (c : ErrCode) (s : State) : (finish c s).len = s.len := rfl
@[simp] theorem finish_sio (c : ErrCode) (s : State) : (finish c s).sio = s.sio := rfl
@[simp] theorem finish_cioLo (c : ErrCode) (s : State) : (finish c s).cioLo = s.cioLo := rfl
@[simp] theorem finish_cioHi (c : ErrCode) (s : State) : (finish c s).cioHi = s.cioHi := rfl
@[simp] theorem finish_digest (c : ErrCode) (s : State) : (finish c s).digest = s.digest := rfl
@[simp] theorem finish_treeValid (c : ErrCode) (s : State) : (finish c s).treeValid = s.treeValid := rfl
@[simp] theorem finish_treeN (c : ErrCode) (s : State) : (finish c s).treeN = s.treeN := rfl
@[simp] theorem finish_treeDepth (c : ErrCode) (s : State) : (finish c s).treeDepth = s.treeDepth := rfl
@[simp] theorem finish_treeRoot (c : ErrCode) (s : State) : (finish c s).treeRoot = s.treeRoot := rfl
@[simp] theorem finish_fsm (c : ErrCode) (s : State) : (finish c s).fsm = s.fsm := rfl
@[simp] theorem finish_ctx (c : ErrCode) (s : State) : (finish c s).ctx = s.ctx := rfl
@[simp] theorem finish_mem (c : ErrCode) (s : State) : (finish c s).mem = s.mem := rfl
@[simp] theorem finish_busResp (c : ErrCode) (s : State) : (finish c s).busResp = s.busResp := rfl
@[simp] theorem finish_script (c : ErrCode) (s : State) : (finish c s).script = s.script := rfl
@[simp] theorem finish_draws (c : ErrCode) (s : State) : (finish c s).draws = s.draws := rfl

/-! ## softReset -/

@[simp] theorem softReset_engine (s : State) : (softReset s).engine = .idle := rfl
@[simp] theorem softReset_done (s : State) : (softReset s).done = false := rfl
@[simp] theorem softReset_errcode (s : State) : (softReset s).errcode = .ok := rfl
@[simp] theorem softReset_irqEn (s : State) : (softReset s).irqEn = false := rfl
@[simp] theorem softReset_len (s : State) : (softReset s).len = 0 := rfl
@[simp] theorem softReset_sio (s : State) : (softReset s).sio = zeroWords := rfl
@[simp] theorem softReset_cioLo (s : State) : (softReset s).cioLo = 0 := rfl
@[simp] theorem softReset_cioHi (s : State) : (softReset s).cioHi = 0 := rfl
@[simp] theorem softReset_digest (s : State) : (softReset s).digest = zeroWords := rfl
@[simp] theorem softReset_treeValid (s : State) : (softReset s).treeValid = false := rfl
@[simp] theorem softReset_treeN (s : State) : (softReset s).treeN = 0 := rfl
@[simp] theorem softReset_treeDepth (s : State) : (softReset s).treeDepth = 0 := rfl
@[simp] theorem softReset_treeRoot (s : State) : (softReset s).treeRoot = zeroWords := rfl
@[simp] theorem softReset_fsm (s : State) : (softReset s).fsm = .uninit := rfl
@[simp] theorem softReset_ctx (s : State) : (softReset s).ctx = freeHasher s.draws := rfl
@[simp] theorem softReset_mem (s : State) : (softReset s).mem = memAfterSoftReset s := rfl
@[simp] theorem softReset_busResp (s : State) : (softReset s).busResp = s.busResp := rfl
@[simp] theorem softReset_script (s : State) : (softReset s).script = s.script := rfl
@[simp] theorem softReset_draws (s : State) : (softReset s).draws = s.draws + 1 := rfl

/-! ## powerOnReset -/

@[simp] theorem powerOnReset_engine (s : State) : (powerOnReset s).engine = .idle := rfl
@[simp] theorem powerOnReset_done (s : State) : (powerOnReset s).done = false := rfl
@[simp] theorem powerOnReset_errcode (s : State) : (powerOnReset s).errcode = .ok := rfl
@[simp] theorem powerOnReset_irqEn (s : State) : (powerOnReset s).irqEn = false := rfl
@[simp] theorem powerOnReset_len (s : State) : (powerOnReset s).len = 0 := rfl
@[simp] theorem powerOnReset_sio (s : State) : (powerOnReset s).sio = zeroWords := rfl
@[simp] theorem powerOnReset_cioLo (s : State) : (powerOnReset s).cioLo = 0 := rfl
@[simp] theorem powerOnReset_cioHi (s : State) : (powerOnReset s).cioHi = 0 := rfl
@[simp] theorem powerOnReset_digest (s : State) : (powerOnReset s).digest = zeroWords := rfl
@[simp] theorem powerOnReset_treeValid (s : State) : (powerOnReset s).treeValid = false := rfl
@[simp] theorem powerOnReset_treeN (s : State) : (powerOnReset s).treeN = 0 := rfl
@[simp] theorem powerOnReset_treeDepth (s : State) : (powerOnReset s).treeDepth = 0 := rfl
@[simp] theorem powerOnReset_treeRoot (s : State) : (powerOnReset s).treeRoot = zeroWords := rfl
@[simp] theorem powerOnReset_fsm (s : State) : (powerOnReset s).fsm = .uninit := rfl
@[simp] theorem powerOnReset_ctx (s : State) : (powerOnReset s).ctx = freeHasher s.draws := rfl
@[simp] theorem powerOnReset_mem (s : State) : (powerOnReset s).mem = [] := rfl
@[simp] theorem powerOnReset_busResp (s : State) : (powerOnReset s).busResp = none := rfl
@[simp] theorem powerOnReset_script (s : State) : (powerOnReset s).script = s.script := rfl
@[simp] theorem powerOnReset_draws (s : State) : (powerOnReset s).draws = s.draws + 1 := rfl

/-! ## respondRead -/

@[simp] theorem respondRead_engine (v : Word) (s : State) : (respondRead v s).engine = s.engine := rfl
@[simp] theorem respondRead_done (v : Word) (s : State) : (respondRead v s).done = s.done := rfl
@[simp] theorem respondRead_errcode (v : Word) (s : State) : (respondRead v s).errcode = s.errcode := rfl
@[simp] theorem respondRead_irqEn (v : Word) (s : State) : (respondRead v s).irqEn = s.irqEn := rfl
@[simp] theorem respondRead_len (v : Word) (s : State) : (respondRead v s).len = s.len := rfl
@[simp] theorem respondRead_sio (v : Word) (s : State) : (respondRead v s).sio = s.sio := rfl
@[simp] theorem respondRead_cioLo (v : Word) (s : State) : (respondRead v s).cioLo = s.cioLo := rfl
@[simp] theorem respondRead_cioHi (v : Word) (s : State) : (respondRead v s).cioHi = s.cioHi := rfl
@[simp] theorem respondRead_digest (v : Word) (s : State) : (respondRead v s).digest = s.digest := rfl
@[simp] theorem respondRead_treeValid (v : Word) (s : State) : (respondRead v s).treeValid = s.treeValid := rfl
@[simp] theorem respondRead_treeN (v : Word) (s : State) : (respondRead v s).treeN = s.treeN := rfl
@[simp] theorem respondRead_treeDepth (v : Word) (s : State) : (respondRead v s).treeDepth = s.treeDepth := rfl
@[simp] theorem respondRead_treeRoot (v : Word) (s : State) : (respondRead v s).treeRoot = s.treeRoot := rfl
@[simp] theorem respondRead_fsm (v : Word) (s : State) : (respondRead v s).fsm = s.fsm := rfl
@[simp] theorem respondRead_ctx (v : Word) (s : State) : (respondRead v s).ctx = s.ctx := rfl
@[simp] theorem respondRead_mem (v : Word) (s : State) : (respondRead v s).mem = s.mem := rfl
@[simp] theorem respondRead_busResp (v : Word) (s : State) : (respondRead v s).busResp = some ⟨.okay, some v⟩ := rfl
@[simp] theorem respondRead_script (v : Word) (s : State) : (respondRead v s).script = s.script := rfl
@[simp] theorem respondRead_draws (v : Word) (s : State) : (respondRead v s).draws = s.draws := rfl

/-! ## respondWrite -/

@[simp] theorem respondWrite_engine (s : State) : (respondWrite s).engine = s.engine := rfl
@[simp] theorem respondWrite_done (s : State) : (respondWrite s).done = s.done := rfl
@[simp] theorem respondWrite_errcode (s : State) : (respondWrite s).errcode = s.errcode := rfl
@[simp] theorem respondWrite_irqEn (s : State) : (respondWrite s).irqEn = s.irqEn := rfl
@[simp] theorem respondWrite_len (s : State) : (respondWrite s).len = s.len := rfl
@[simp] theorem respondWrite_sio (s : State) : (respondWrite s).sio = s.sio := rfl
@[simp] theorem respondWrite_cioLo (s : State) : (respondWrite s).cioLo = s.cioLo := rfl
@[simp] theorem respondWrite_cioHi (s : State) : (respondWrite s).cioHi = s.cioHi := rfl
@[simp] theorem respondWrite_digest (s : State) : (respondWrite s).digest = s.digest := rfl
@[simp] theorem respondWrite_treeValid (s : State) : (respondWrite s).treeValid = s.treeValid := rfl
@[simp] theorem respondWrite_treeN (s : State) : (respondWrite s).treeN = s.treeN := rfl
@[simp] theorem respondWrite_treeDepth (s : State) : (respondWrite s).treeDepth = s.treeDepth := rfl
@[simp] theorem respondWrite_treeRoot (s : State) : (respondWrite s).treeRoot = s.treeRoot := rfl
@[simp] theorem respondWrite_fsm (s : State) : (respondWrite s).fsm = s.fsm := rfl
@[simp] theorem respondWrite_ctx (s : State) : (respondWrite s).ctx = s.ctx := rfl
@[simp] theorem respondWrite_mem (s : State) : (respondWrite s).mem = s.mem := rfl
@[simp] theorem respondWrite_busResp (s : State) : (respondWrite s).busResp = some ⟨.okay, none⟩ := rfl
@[simp] theorem respondWrite_script (s : State) : (respondWrite s).script = s.script := rfl
@[simp] theorem respondWrite_draws (s : State) : (respondWrite s).draws = s.draws := rfl

/-! ## respondError -/

@[simp] theorem respondError_engine (we : Bool) (s : State) : (respondError we s).engine = s.engine := rfl
@[simp] theorem respondError_done (we : Bool) (s : State) : (respondError we s).done = s.done := rfl
@[simp] theorem respondError_errcode (we : Bool) (s : State) : (respondError we s).errcode = s.errcode := rfl
@[simp] theorem respondError_irqEn (we : Bool) (s : State) : (respondError we s).irqEn = s.irqEn := rfl
@[simp] theorem respondError_len (we : Bool) (s : State) : (respondError we s).len = s.len := rfl
@[simp] theorem respondError_sio (we : Bool) (s : State) : (respondError we s).sio = s.sio := rfl
@[simp] theorem respondError_cioLo (we : Bool) (s : State) : (respondError we s).cioLo = s.cioLo := rfl
@[simp] theorem respondError_cioHi (we : Bool) (s : State) : (respondError we s).cioHi = s.cioHi := rfl
@[simp] theorem respondError_digest (we : Bool) (s : State) : (respondError we s).digest = s.digest := rfl
@[simp] theorem respondError_treeValid (we : Bool) (s : State) : (respondError we s).treeValid = s.treeValid := rfl
@[simp] theorem respondError_treeN (we : Bool) (s : State) : (respondError we s).treeN = s.treeN := rfl
@[simp] theorem respondError_treeDepth (we : Bool) (s : State) : (respondError we s).treeDepth = s.treeDepth := rfl
@[simp] theorem respondError_treeRoot (we : Bool) (s : State) : (respondError we s).treeRoot = s.treeRoot := rfl
@[simp] theorem respondError_fsm (we : Bool) (s : State) : (respondError we s).fsm = s.fsm := rfl
@[simp] theorem respondError_ctx (we : Bool) (s : State) : (respondError we s).ctx = s.ctx := rfl
@[simp] theorem respondError_mem (we : Bool) (s : State) : (respondError we s).mem = s.mem := rfl
@[simp] theorem respondError_busResp (we : Bool) (s : State) : (respondError we s).busResp = some ⟨.busErr, if we then none else some 0⟩ := rfl
@[simp] theorem respondError_script (we : Bool) (s : State) : (respondError we s).script = s.script := rfl
@[simp] theorem respondError_draws (we : Bool) (s : State) : (respondError we s).draws = s.draws := rfl

/-! ## respondFree -/

@[simp] theorem respondFree_engine (s : State) : (respondFree s).engine = s.engine := rfl
@[simp] theorem respondFree_done (s : State) : (respondFree s).done = s.done := rfl
@[simp] theorem respondFree_errcode (s : State) : (respondFree s).errcode = s.errcode := rfl
@[simp] theorem respondFree_irqEn (s : State) : (respondFree s).irqEn = s.irqEn := rfl
@[simp] theorem respondFree_len (s : State) : (respondFree s).len = s.len := rfl
@[simp] theorem respondFree_sio (s : State) : (respondFree s).sio = s.sio := rfl
@[simp] theorem respondFree_cioLo (s : State) : (respondFree s).cioLo = s.cioLo := rfl
@[simp] theorem respondFree_cioHi (s : State) : (respondFree s).cioHi = s.cioHi := rfl
@[simp] theorem respondFree_digest (s : State) : (respondFree s).digest = s.digest := rfl
@[simp] theorem respondFree_treeValid (s : State) : (respondFree s).treeValid = s.treeValid := rfl
@[simp] theorem respondFree_treeN (s : State) : (respondFree s).treeN = s.treeN := rfl
@[simp] theorem respondFree_treeDepth (s : State) : (respondFree s).treeDepth = s.treeDepth := rfl
@[simp] theorem respondFree_treeRoot (s : State) : (respondFree s).treeRoot = s.treeRoot := rfl
@[simp] theorem respondFree_fsm (s : State) : (respondFree s).fsm = s.fsm := rfl
@[simp] theorem respondFree_ctx (s : State) : (respondFree s).ctx = s.ctx := rfl
@[simp] theorem respondFree_mem (s : State) : (respondFree s).mem = s.mem := rfl
@[simp] theorem respondFree_busResp (s : State) : (respondFree s).busResp = some ⟨.okay, some (Config.freeRead s.draws)⟩ := rfl
@[simp] theorem respondFree_script (s : State) : (respondFree s).script = s.script := rfl
@[simp] theorem respondFree_draws (s : State) : (respondFree s).draws = s.draws + 1 := rfl

/-! ## latchCommand -/

@[simp] theorem latchCommand_engine (w : Word) (s : State) : (latchCommand w s).engine = .exec w := rfl
@[simp] theorem latchCommand_done (w : Word) (s : State) : (latchCommand w s).done = false := rfl
@[simp] theorem latchCommand_errcode (w : Word) (s : State) : (latchCommand w s).errcode = .ok := rfl
@[simp] theorem latchCommand_irqEn (w : Word) (s : State) : (latchCommand w s).irqEn = s.irqEn := rfl
@[simp] theorem latchCommand_len (w : Word) (s : State) : (latchCommand w s).len = s.len := rfl
@[simp] theorem latchCommand_sio (w : Word) (s : State) : (latchCommand w s).sio = s.sio := rfl
@[simp] theorem latchCommand_cioLo (w : Word) (s : State) : (latchCommand w s).cioLo = s.cioLo := rfl
@[simp] theorem latchCommand_cioHi (w : Word) (s : State) : (latchCommand w s).cioHi = s.cioHi := rfl
@[simp] theorem latchCommand_digest (w : Word) (s : State) : (latchCommand w s).digest = s.digest := rfl
@[simp] theorem latchCommand_treeValid (w : Word) (s : State) : (latchCommand w s).treeValid = s.treeValid := rfl
@[simp] theorem latchCommand_treeN (w : Word) (s : State) : (latchCommand w s).treeN = s.treeN := rfl
@[simp] theorem latchCommand_treeDepth (w : Word) (s : State) : (latchCommand w s).treeDepth = s.treeDepth := rfl
@[simp] theorem latchCommand_treeRoot (w : Word) (s : State) : (latchCommand w s).treeRoot = s.treeRoot := rfl
@[simp] theorem latchCommand_fsm (w : Word) (s : State) : (latchCommand w s).fsm = s.fsm := rfl
@[simp] theorem latchCommand_ctx (w : Word) (s : State) : (latchCommand w s).ctx = s.ctx := rfl
@[simp] theorem latchCommand_mem (w : Word) (s : State) : (latchCommand w s).mem = s.mem := rfl
@[simp] theorem latchCommand_busResp (w : Word) (s : State) : (latchCommand w s).busResp = s.busResp := rfl
@[simp] theorem latchCommand_script (w : Word) (s : State) : (latchCommand w s).script = .engineTurn :: s.script := rfl
@[simp] theorem latchCommand_draws (w : Word) (s : State) : (latchCommand w s).draws = s.draws := rfl

/-! ## Computed flags -/

@[simp] theorem busy_finish (c : ErrCode) (s : State) : (finish c s).busy = false := rfl
@[simp] theorem busy_issue (w : Word) (s : State) : (issue w s).busy = true := rfl
@[simp] theorem busy_softReset (s : State) : (softReset s).busy = false := rfl
@[simp] theorem busy_powerOnReset (s : State) : (powerOnReset s).busy = false := rfl

/-- `BUSY = 1` says the engine holds a command word (10_state.md R45). -/
theorem busy_iff (s : State) : s.busy = true ↔ ∃ op, s.engine = .exec op := by
  unfold State.busy
  cases s.engine <;> simp

/-- `BUSY = 0` says the engine is idle (10_state.md R45). -/
theorem not_busy_iff (s : State) : s.busy = false ↔ s.engine = .idle := by
  unfold State.busy
  cases s.engine <;> simp

end Sys2Proof.Machine
end

