-- ==== Sys2Proof/Laws/Bytes.lean ====
section
/-! SUPPORT. Serialisation and its inverse (00_scope.md R13), rotation (R12). -/

namespace Sys2Proof.Machine

@[simp] theorem bytes32_length (w : Word) : (bytes32 w).length = 4 := rfl

@[simp] theorem bytes64_length (c : BitCount) : (bytes64 c).length = 8 := rfl

@[simp] theorem ser_length (v : Words8) : (ser v).length = 32 := rfl

/-- `be32` undoes `bytes32`. -/
@[simp] theorem be32_bytes (w : Word) :
    be32 (w.extractLsb' 24 8) (w.extractLsb' 16 8) (w.extractLsb' 8 8) (w.extractLsb' 0 8) = w := by
  unfold be32
  ext i hi
  simp only [BitVec.getElem_append, BitVec.getElem_extractLsb']
  split
  · simp [BitVec.getLsbD_eq_getElem, hi]
  · split
    · rw [show 8 + (i - 8) = i by omega]; simp [BitVec.getLsbD_eq_getElem, hi]
    · split
      · rw [show 16 + (i - 8 - 8) = i by omega]; simp [BitVec.getLsbD_eq_getElem, hi]
      · rw [show 24 + (i - 8 - 8 - 8) = i by omega]; simp [BitVec.getLsbD_eq_getElem, hi]

/-- `bytes32` undoes `be32`. -/
@[simp] theorem bytes32_be32 (b0 b1 b2 b3 : Byte) : bytes32 (be32 b0 b1 b2 b3) = [b0, b1, b2, b3] := by
  unfold bytes32 be32
  have h0 : (b0 ++ b1 ++ b2 ++ b3 : BitVec 32).extractLsb' 24 8 = b0 := by
    ext i hi
    simp only [BitVec.getElem_extractLsb', BitVec.getLsbD_append]
    rw [if_neg (by omega), if_neg (by omega), if_neg (by omega), show 24 + i - 8 - 8 - 8 = i by omega]
    simp [BitVec.getLsbD_eq_getElem, hi]
  have h1 : (b0 ++ b1 ++ b2 ++ b3 : BitVec 32).extractLsb' 16 8 = b1 := by
    ext i hi
    simp only [BitVec.getElem_extractLsb', BitVec.getLsbD_append]
    rw [if_neg (by omega), if_neg (by omega), if_pos (by omega), show 16 + i - 8 - 8 = i by omega]
    simp [BitVec.getLsbD_eq_getElem, hi]
  have h2 : (b0 ++ b1 ++ b2 ++ b3 : BitVec 32).extractLsb' 8 8 = b2 := by
    ext i hi
    simp only [BitVec.getElem_extractLsb', BitVec.getLsbD_append]
    rw [if_neg (by omega), if_pos (by omega), show 8 + i - 8 = i by omega]
    simp [BitVec.getLsbD_eq_getElem, hi]
  have h3 : (b0 ++ b1 ++ b2 ++ b3 : BitVec 32).extractLsb' 0 8 = b3 := by
    ext i hi
    simp only [BitVec.getElem_extractLsb', BitVec.getLsbD_append]
    rw [if_pos (by omega), show 0 + i = i by omega]
    simp [BitVec.getLsbD_eq_getElem, hi]
  rw [h0, h1, h2, h3]

theorem bytesToWords_bytes32_append (w : Word) (rest : List Byte) :
    bytesToWords (bytes32 w ++ rest) = w :: bytesToWords rest := by
  simp [bytes32, bytesToWords]

/-- `words` undoes `ser`. -/
@[simp] theorem words_ser (v : Words8) : words (ser v) = v := by
  unfold words ser
  simp only [List.append_assoc]
  have h8 : bytesToWords (bytes32 v.w7) = [v.w7] := by
    simpa [bytesToWords] using bytesToWords_bytes32_append v.w7 []
  simp only [bytesToWords_bytes32_append, h8]
  rfl

theorem bytesToWords_length : ∀ (k : Nat) (d : List Byte), d.length = 4 * k → (bytesToWords d).length = k
  | 0, d, h => by
    have : d = [] := List.eq_nil_of_length_eq_zero (by omega)
    subst this; rfl
  | k + 1, b0 :: b1 :: b2 :: b3 :: rest, h => by
    simp only [bytesToWords, List.length_cons]
    rw [bytesToWords_length k rest (by simp at h; omega)]
  | k + 1, [], h => by simp at h
  | k + 1, [_], h => by simp at h; omega
  | k + 1, [_, _], h => by simp at h; omega
  | k + 1, [_, _, _], h => by simp at h; omega

/-- `ser` undoes `words` on a 32-byte string. -/
theorem ser_words (d : List Byte) (h : d.length = 32) : ser (words d) = d := by
  match d, h with
  | [a0, a1, a2, a3, b0, b1, b2, b3, c0, c1, c2, c3, d0, d1, d2, d3, e0, e1, e2, e3, f0, f1, f2, f3, g0, g1, g2, g3,
      h0, h1, h2, h3], _ =>
    simp [words, bytesToWords, Words8.ofList, ser]

@[simp] theorem words8_get_set_same (d : Words8) (k : Fin 8) (w : Word) : (d.set k w).get k = w := by
  match k with
  | 0 | 1 | 2 | 3 | 4 | 5 | 6 | 7 => rfl

theorem words8_get_set_other (d : Words8) (k j : Fin 8) (w : Word) (h : j ≠ k) : (d.set k w).get j = d.get j := by
  revert h
  match k, j with
  | 0, 0 | 1, 1 | 2, 2 | 3, 3 | 4, 4 | 5, 5 | 6, 6 | 7, 7 => intro h; exact absurd rfl h
  | 0, 1 | 0, 2 | 0, 3 | 0, 4 | 0, 5 | 0, 6 | 0, 7 => intro _; rfl
  | 1, 0 | 1, 2 | 1, 3 | 1, 4 | 1, 5 | 1, 6 | 1, 7 => intro _; rfl
  | 2, 0 | 2, 1 | 2, 3 | 2, 4 | 2, 5 | 2, 6 | 2, 7 => intro _; rfl
  | 3, 0 | 3, 1 | 3, 2 | 3, 4 | 3, 5 | 3, 6 | 3, 7 => intro _; rfl
  | 4, 0 | 4, 1 | 4, 2 | 4, 3 | 4, 5 | 4, 6 | 4, 7 => intro _; rfl
  | 5, 0 | 5, 1 | 5, 2 | 5, 3 | 5, 4 | 5, 6 | 5, 7 => intro _; rfl
  | 6, 0 | 6, 1 | 6, 2 | 6, 3 | 6, 4 | 6, 5 | 6, 7 => intro _; rfl
  | 7, 0 | 7, 1 | 7, 2 | 7, 3 | 7, 4 | 7, 5 | 7, 6 => intro _; rfl

/-- Two eight-word values with the same words are equal. -/
theorem words8_ext_get {a b : Words8} (h : ∀ k, a.get k = b.get k) : a = b := by
  obtain ⟨a0, a1, a2, a3, a4, a5, a6, a7⟩ := a
  obtain ⟨b0, b1, b2, b3, b4, b5, b6, b7⟩ := b
  have h0 := h 0; have h1 := h 1; have h2 := h 2; have h3 := h 3
  have h4 := h 4; have h5 := h 5; have h6 := h 6; have h7 := h 7
  simp only [Words8.get] at h0 h1 h2 h3 h4 h5 h6 h7
  subst h0 h1 h2 h3 h4 h5 h6 h7
  rfl

/-- Concatenation as a number. -/
theorem append_toNat {n m : Nat} (x : BitVec n) (z : BitVec m) : (x ++ z).toNat = x.toNat * 2 ^ m + z.toNat := by
  rw [BitVec.toNat_append, Nat.shiftLeft_eq, Nat.mul_comm, ← Nat.two_pow_add_eq_or_of_lt z.isLt]

/-- `be32` as a number (00_scope.md R13). -/
theorem be32_toNat (b0 b1 b2 b3 : Byte) :
    (be32 b0 b1 b2 b3).toNat = b0.toNat * 2 ^ 24 + b1.toNat * 2 ^ 16 + b2.toNat * 2 ^ 8 + b3.toNat := by
  simp only [be32, append_toNat]
  omega

/-- Rotation depends on the count modulo 32 only (00_scope.md R12). -/
theorem rotl_mod (x : Word) (n : Nat) : rotl x n = rotl x (n % 32) := by
  unfold rotl; rw [Nat.mod_mod]

end Sys2Proof.Machine
end

