-- ==== Sys2Proof/Laws/Memory.lean ====
section
/-! SUPPORT. The laws of the windows' bytes: a read after a write, the bytes a write leaves alone, and that every memory
operation keeps the canonical form. -/

namespace Sys2Proof.Machine

/-! ## One byte -/

@[simp] theorem read_write_same (m : Memory) (a : Nat) (b : Byte) : Memory.read (Memory.write m a b) a = some b := by
  induction m with
  | nil => simp [Memory.write, Memory.read]
  | cons c rest ih =>
    simp only [Memory.write]
    split
    · simp [Memory.read]
    · split
      · simp [Memory.read]
      · simp [Memory.read, *]

theorem read_write_other (m : Memory) (a x : Nat) (b : Byte) (h : x ≠ a) :
    Memory.read (Memory.write m a b) x = Memory.read m x := by
  induction m with
  | nil => simp [Memory.write, Memory.read, h.symm]
  | cons c rest ih =>
    simp only [Memory.write]
    split
    · simp [Memory.read, h.symm]
    · split
      · rename_i hc
        subst hc
        simp [Memory.read, h.symm]
      · simp [Memory.read, ih]

/-- Which addresses are listed after a write. -/
theorem mem_write {m : Memory} {a : Nat} {b : Byte} {c : Host.Cell} (h : c ∈ Memory.write m a b) :
    c.1 = a ∨ c ∈ m := by
  induction m with
  | nil => simp [Memory.write] at h; simp [h]
  | cons d rest ih =>
    simp only [Memory.write] at h
    split at h
    · rcases List.mem_cons.mp h with h | h
      · simp [h]
      · exact .inr h
    · split at h
      · rcases List.mem_cons.mp h with h | h
        · simp [h]
        · exact .inr (List.mem_cons_of_mem _ h)
      · rcases List.mem_cons.mp h with h | h
        · simp [h]
        · rcases ih h with h | h
          · exact .inl h
          · exact .inr (List.mem_cons_of_mem _ h)

/-- The canonical form says the addresses are pairwise strictly rising. -/
theorem wf_iff_pairwise (m : Memory) : Memory.wf m = true ↔ m.Pairwise (fun c d => c.1 < d.1) := by
  induction m with
  | nil => simp [Memory.wf]
  | cons c rest ih =>
    cases rest with
    | nil => simp [Memory.wf]
    | cons d more =>
      simp only [Memory.wf, Bool.and_eq_true, decide_eq_true_eq, ih]
      constructor
      · rintro ⟨hcd, hp⟩
        refine List.pairwise_cons.mpr ⟨fun e he => ?_, hp⟩
        rcases List.mem_cons.mp he with rfl | he
        · exact hcd
        · exact Nat.lt_trans hcd ((List.pairwise_cons.mp hp).1 e he)
      · intro hp
        exact ⟨(List.pairwise_cons.mp hp).1 d (by simp), (List.pairwise_cons.mp hp).2⟩

theorem wf_write (m : Memory) (a : Nat) (b : Byte) (h : Memory.wf m = true) : Memory.wf (Memory.write m a b) = true := by
  rw [wf_iff_pairwise] at *
  induction m with
  | nil => simp [Memory.write]
  | cons c rest ih =>
    have hc := (List.pairwise_cons.mp h).1
    have hr := (List.pairwise_cons.mp h).2
    simp only [Memory.write]
    split
    · rename_i hac
      refine List.pairwise_cons.mpr ⟨fun e he => ?_, h⟩
      rcases List.mem_cons.mp he with rfl | he
      · exact hac
      · exact Nat.lt_trans hac (hc e he)
    · split
      · rename_i hca
        refine List.pairwise_cons.mpr ⟨fun e he => ?_, hr⟩
        have := hc e he
        simp only
        omega
      · rename_i hac hca
        refine List.pairwise_cons.mpr ⟨fun e he => ?_, ih hr⟩
        rcases mem_write he with h' | h'
        · omega
        · exact hc e h'

/-! ## Byte strings -/

theorem read_writeBytes_outside (m : Memory) (bs : List Byte) (a x : Nat) (h : x < a ∨ a + bs.length ≤ x) :
    Memory.read (Memory.writeBytes m a bs) x = Memory.read m x := by
  induction bs generalizing m a with
  | nil => rfl
  | cons b bs ih =>
    simp only [Memory.writeBytes, List.length_cons] at *
    rw [ih _ _ (by omega), read_write_other _ _ _ _ (by omega)]

theorem read_writeBytes_inside (m : Memory) (bs : List Byte) (a k : Nat) (h : k < bs.length) :
    Memory.read (Memory.writeBytes m a bs) (a + k) = some bs[k] := by
  induction bs generalizing m a k with
  | nil => simp at h
  | cons b bs ih =>
    simp only [Memory.writeBytes]
    cases k with
    | zero => rw [read_writeBytes_outside _ _ _ _ (by omega)]; simp
    | succ k =>
      rw [show a + (k + 1) = a + 1 + k by omega, ih _ _ _ (by simpa using h)]
      simp

theorem mem_writeBytes {m : Memory} {a : Nat} {bs : List Byte} {c : Host.Cell} (h : c ∈ Memory.writeBytes m a bs) :
    (a ≤ c.1 ∧ c.1 < a + bs.length) ∨ c ∈ m := by
  induction bs generalizing m a with
  | nil => exact .inr h
  | cons b bs ih =>
    rcases ih h with h | h
    · left; simp only [List.length_cons]; omega
    · rcases mem_write h with h | h
      · left; simp only [List.length_cons]; omega
      · exact .inr h

theorem wf_writeBytes (m : Memory) (a : Nat) (bs : List Byte) (h : Memory.wf m = true) :
    Memory.wf (Memory.writeBytes m a bs) = true := by
  induction bs generalizing m a with
  | nil => exact h
  | cons b bs ih => exact ih _ _ (wf_write _ _ _ h)

/-- A byte string is readable exactly when each of its bytes is, and then it is those bytes. -/
theorem readBytes_eq_some (m : Memory) (a n : Nat) (bs : List Byte) :
    Memory.readBytes m a n = some bs ↔
      bs.length = n ∧ ∀ k (h : k < bs.length), Memory.read m (a + k) = some bs[k] := by
  induction n generalizing a bs with
  | zero =>
    simp only [Memory.readBytes, Option.some.injEq]
    constructor
    · rintro rfl; simp
    · rintro ⟨h, _⟩; exact (List.eq_nil_of_length_eq_zero h).symm
  | succ n ih =>
    simp only [Memory.readBytes]
    constructor
    · intro h
      split at h
      · rename_i b bs' hb hbs
        cases h
        obtain ⟨hl, hk⟩ := (ih _ _).mp hbs
        refine ⟨by simp [hl], fun k h => ?_⟩
        cases k with
        | zero => simpa using hb
        | succ k =>
          have := hk k (by simpa using h)
          rw [show a + (k + 1) = a + 1 + k by omega, this]; simp
      · cases h
    · rintro ⟨hl, hk⟩
      cases bs with
      | nil => simp at hl
      | cons b bs =>
        have h0 := hk 0 (by simp)
        have hr : Memory.readBytes m (a + 1) n = some bs := by
          refine (ih _ _).mpr ⟨by simpa using hl, fun k h => ?_⟩
          have := hk (k + 1) (by simpa using h)
          rw [show a + 1 + k = a + (k + 1) by omega, this]; simp
        simp only [Nat.add_zero, List.getElem_cons_zero] at h0
        rw [h0, hr]

theorem readBytes_length {m : Memory} {a n : Nat} {bs : List Byte} (h : Memory.readBytes m a n = some bs) :
    bs.length = n := ((readBytes_eq_some m a n bs).mp h).1

theorem readBytes_isSome (m : Memory) (a n : Nat) :
    (∃ bs, Memory.readBytes m a n = some bs) ↔ ∀ x, a ≤ x → x < a + n → (Memory.read m x).isSome := by
  induction n generalizing a with
  | zero => simp only [Memory.readBytes]; exact ⟨fun _ x h1 h2 => by omega, fun _ => ⟨[], rfl⟩⟩
  | succ n ih =>
    constructor
    · rintro ⟨bs, h⟩ x h1 h2
      obtain ⟨hl, hk⟩ := (readBytes_eq_some m a (n + 1) bs).mp h
      have := hk (x - a) (by omega)
      rw [show a + (x - a) = x by omega] at this
      simp [this]
    · intro h
      obtain ⟨bs, hbs⟩ := (ih (a + 1)).mpr fun x h1 h2 => h x (by omega) (by omega)
      have h0 := h a (by omega) (by omega)
      obtain ⟨b, hb⟩ := Option.isSome_iff_exists.mp h0
      exact ⟨b :: bs, by simp [Memory.readBytes, hb, hbs]⟩

/-- Reading depends only on the bytes read. -/
theorem readBytes_congr {m m' : Memory} {a n : Nat}
    (h : ∀ x, a ≤ x → x < a + n → Memory.read m x = Memory.read m' x) :
    Memory.readBytes m a n = Memory.readBytes m' a n := by
  induction n generalizing a with
  | zero => rfl
  | succ n ih =>
    simp only [Memory.readBytes]
    rw [h a (by omega) (by omega), ih fun x h1 h2 => h x (by omega) (by omega)]

/-- Reading back a byte string just written. -/
theorem readBytes_writeBytes_same (m : Memory) (a : Nat) (bs : List Byte) :
    Memory.readBytes (Memory.writeBytes m a bs) a bs.length = some bs :=
  (readBytes_eq_some _ _ _ _).mpr ⟨rfl, fun k h => read_writeBytes_inside m bs a k h⟩

/-! ## Havoc -/

theorem read_havocFrom (lo draw : Nat) (m : Memory) (x : Nat) :
    Memory.read (Memory.havocFrom lo draw m) x =
      if lo ≤ x then (Memory.read m x).map fun _ => Config.freeByte draw x else Memory.read m x := by
  induction m with
  | nil => simp [Memory.havocFrom, Memory.read]
  | cons c rest ih =>
    simp only [Memory.havocFrom, List.map_cons] at *
    by_cases hc : lo ≤ c.1
    · simp only [hc, if_true, Memory.read]
      by_cases hx : c.1 = x
      · subst hx; simp [hc]
      · simp only [hx, if_false]; exact ih
    · simp only [hc, if_false, Memory.read]
      by_cases hx : c.1 = x
      · subst hx; simp [hc]
      · simp only [hx, if_false]; exact ih

theorem mem_havocFrom {lo draw : Nat} {m : Memory} {c : Host.Cell} (h : c ∈ Memory.havocFrom lo draw m) :
    ∃ d ∈ m, d.1 = c.1 := by
  obtain ⟨d, hd, rfl⟩ := List.mem_map.mp h
  refine ⟨d, hd, ?_⟩
  split <;> rfl

theorem wf_havocFrom (lo draw : Nat) (m : Memory) (h : Memory.wf m = true) :
    Memory.wf (Memory.havocFrom lo draw m) = true := by
  rw [wf_iff_pairwise] at *
  unfold Memory.havocFrom
  refine List.pairwise_map.mpr (h.imp fun {c d} hcd => ?_)
  split <;> split <;> exact hcd

/-! ## Nodes -/

theorem readNode_congr {m m' : Memory} {slot : Nat}
    (h : ∀ x, slotAddr slot ≤ x → x < slotAddr (slot + 1) → Memory.read m x = Memory.read m' x) :
    readNode m slot = readNode m' slot := by
  unfold readNode
  rw [readBytes_congr fun x h1 h2 => h x h1 (by simp only [slotAddr] at *; omega)]

theorem readNode_writeNode_same (m : Memory) (slot : Nat) (x : Words8) : readNode (writeNode m slot x) slot = some x := by
  have := readBytes_writeBytes_same m (slotAddr slot) (ser x)
  rw [ser_length] at this
  simp [readNode, writeNode, this]

theorem readNode_writeNode_other (m : Memory) (slot slot' : Nat) (x : Words8) (h : slot' ≠ slot) :
    readNode (writeNode m slot x) slot' = readNode m slot' := by
  refine readNode_congr fun y h1 h2 => read_writeBytes_outside _ _ _ _ ?_
  rw [ser_length]
  simp only [slotAddr] at *
  omega

theorem readNode_writeNodes_outside (m : Memory) (slot slot' : Nat) (xs : List Words8)
    (h : slot' < slot ∨ slot + xs.length ≤ slot') : readNode (writeNodes m slot xs) slot' = readNode m slot' := by
  induction xs generalizing m slot with
  | nil => rfl
  | cons x xs ih =>
    simp only [writeNodes, List.length_cons] at *
    rw [ih _ _ (by omega), readNode_writeNode_other _ _ _ _ (by omega)]

theorem readNode_writeNodes_inside (m : Memory) (slot : Nat) (xs : List Words8) (k : Nat) (h : k < xs.length) :
    readNode (writeNodes m slot xs) (slot + k) = some xs[k] := by
  induction xs generalizing m slot k with
  | nil => simp at h
  | cons x xs ih =>
    simp only [writeNodes]
    cases k with
    | zero => rw [readNode_writeNodes_outside _ _ _ _ (by omega)]; simpa using readNode_writeNode_same m slot x
    | succ k =>
      rw [show slot + (k + 1) = slot + 1 + k by omega, ih _ _ _ (by simpa using h)]
      simp

theorem read_writeNodes_outside (m : Memory) (slot : Nat) (xs : List Words8) (a : Nat)
    (h : a < slotAddr slot ∨ slotAddr (slot + xs.length) ≤ a) :
    Memory.read (writeNodes m slot xs) a = Memory.read m a := by
  induction xs generalizing m slot with
  | nil => rfl
  | cons x xs ih =>
    simp only [writeNodes, List.length_cons] at *
    rw [ih, writeNode, read_writeBytes_outside]
    · rw [ser_length]; simp only [slotAddr] at *; omega
    · simp only [slotAddr] at *; omega

theorem mem_writeNodes {m : Memory} {slot : Nat} {xs : List Words8} {c : Host.Cell} (h : c ∈ writeNodes m slot xs) :
    (slotAddr slot ≤ c.1 ∧ c.1 < slotAddr (slot + xs.length)) ∨ c ∈ m := by
  induction xs generalizing m slot with
  | nil => exact .inr h
  | cons x xs ih =>
    simp only [writeNodes] at h
    rcases ih h with h | h
    · left; simp only [slotAddr, List.length_cons] at *; omega
    · rcases mem_writeBytes (by simpa only [writeNode] using h) with h | h
      · left; rw [ser_length] at h; simp only [slotAddr, List.length_cons] at *; omega
      · exact .inr h

theorem wf_writeNodes (m : Memory) (slot : Nat) (xs : List Words8) (h : Memory.wf m = true) :
    Memory.wf (writeNodes m slot xs) = true := by
  induction xs generalizing m slot with
  | nil => exact h
  | cons x xs ih =>
    simp only [writeNodes, writeNode]
    exact ih _ _ (wf_writeBytes _ _ _ h)

theorem readNodes_eq_some (m : Memory) (slot n : Nat) (xs : List Words8) :
    readNodes m slot n = some xs ↔ xs.length = n ∧ ∀ k (h : k < xs.length), readNode m (slot + k) = some xs[k] := by
  induction n generalizing slot xs with
  | zero =>
    simp only [readNodes, Option.some.injEq]
    constructor
    · rintro rfl; simp
    · rintro ⟨h, _⟩; exact (List.eq_nil_of_length_eq_zero h).symm
  | succ n ih =>
    simp only [readNodes]
    constructor
    · intro h
      split at h
      · rename_i b bs' hb hbs
        cases h
        obtain ⟨hl, hk⟩ := (ih _ _).mp hbs
        refine ⟨by simp [hl], fun k h => ?_⟩
        cases k with
        | zero => simpa using hb
        | succ k =>
          have := hk k (by simpa using h)
          rw [show slot + (k + 1) = slot + 1 + k by omega, this]; simp
      · cases h
    · rintro ⟨hl, hk⟩
      cases xs with
      | nil => simp at hl
      | cons b bs =>
        have h0 := hk 0 (by simp)
        have hr : readNodes m (slot + 1) n = some bs := by
          refine (ih _ _).mpr ⟨by simpa using hl, fun k h => ?_⟩
          have := hk (k + 1) (by simpa using h)
          rw [show slot + 1 + k = slot + (k + 1) by omega, this]; simp
        simp only [Nat.add_zero, List.getElem_cons_zero] at h0
        rw [h0, hr]

/-- Leaves are readable where every one of their bytes has been written. -/
theorem readNodes_isSome (m : Memory) (slot n : Nat)
    (h : ∀ a, slotAddr slot ≤ a → a < slotAddr (slot + n) → (Memory.read m a).isSome) :
    ∃ xs, readNodes m slot n = some xs := by
  induction n generalizing slot with
  | zero => exact ⟨[], rfl⟩
  | succ n ih =>
    obtain ⟨xs, hxs⟩ := ih (slot + 1) fun a h1 h2 => h a (by simp only [slotAddr] at *; omega)
      (by simp only [slotAddr] at *; omega)
    obtain ⟨bs, hbs⟩ := (readBytes_isSome m (slotAddr slot) 32).mpr fun a h1 h2 =>
      h a h1 (by simp only [slotAddr] at *; omega)
    exact ⟨words bs :: xs, by simp [readNodes, readNode, hbs, hxs]⟩

/-- Reading fails exactly where a byte has not been written. -/
theorem readBytes_eq_none (m : Memory) (a n : Nat) :
    Memory.readBytes m a n = none ↔ ∃ k, k < n ∧ Memory.read m (a + k) = none := by
  rw [← Option.not_isSome_iff_eq_none, Option.isSome_iff_exists, readBytes_isSome]
  constructor
  · intro h
    simp only [not_forall, Bool.not_eq_true, Option.isSome_eq_false_iff, Option.isNone_iff_eq_none] at h
    obtain ⟨x, h1, h2, h3⟩ := h
    exact ⟨x - a, by omega, by rw [show a + (x - a) = x by omega]; exact h3⟩
  · rintro ⟨k, h1, h2⟩ h
    have := h (a + k) (by omega) (by omega)
    simp [h2] at this

/-- Reading leaves fails exactly where a byte of them has not been written. -/
theorem readNodes_eq_none (m : Memory) (slot n : Nat) :
    readNodes m slot n = none ↔ ∃ k, k < 32 * n ∧ Memory.read m (slotAddr slot + k) = none := by
  constructor
  · intro h
    by_contra hno
    obtain ⟨xs, hxs⟩ := readNodes_isSome m slot n fun a h1 h2 => by
      rw [Option.isSome_iff_ne_none]
      intro ha
      exact hno ⟨a - slotAddr slot, by simp only [slotAddr] at *; omega,
        by rw [show slotAddr slot + (a - slotAddr slot) = a by omega]; exact ha⟩
    rw [h] at hxs; cases hxs
  · rintro ⟨k, h1, h2⟩
    by_contra hno
    obtain ⟨xs, hxs⟩ := Option.ne_none_iff_exists'.mp hno
    obtain ⟨hl, hx⟩ := (readNodes_eq_some _ _ _ _).mp hxs
    have hn := hx (k / 32) (by omega)
    unfold readNode at hn
    split at hn
    · rename_i bs hbs
      have := (readBytes_isSome m _ 32).mp ⟨bs, hbs⟩ (slotAddr slot + k) (by simp only [slotAddr]; omega)
        (by simp only [slotAddr]; omega)
      simp [h2] at this
    · cases hn

end Sys2Proof.Machine
end

