-- ==== Sys2Proof/Laws/Tree.lean ====
section
/-! SUPPORT. The tree's shape (42_merkle_tree.md R172 to R177): the level sizes the builder computes are the spec's, the levels it
builds hold the spec's nodes, and the window `TMEM` is large enough for every tree. -/

namespace Sys2Proof.Machine

/-! ## Level sizes -/

theorem levelSize_succ_eq (n l : Nat) : levelSize n (l + 1) = levelSize ((n + 1) / 2) l := by
  induction l with
  | zero => rfl
  | succ l ih => simp only [levelSize] at *; rw [ih]

theorem clog_two_succ {n : Nat} (h : 2 ≤ n) : Nat.clog 2 n = Nat.clog 2 ((n + 1) / 2) + 1 := by
  rw [Nat.clog_of_two_le (by omega) h]; rfl

theorem levelSize_pos {n : Nat} (h : 1 ≤ n) (l : Nat) : 1 ≤ levelSize n l := by
  induction l with
  | zero => exact h
  | succ l ih => simp only [levelSize]; omega

/-- The top level has one node. -/
theorem levelSize_clog {n : Nat} (h : 1 ≤ n) : levelSize n (Nat.clog 2 n) = 1 := by
  induction n using Nat.strong_induction_on with
  | _ n ih =>
    rcases Nat.lt_or_ge n 2 with h2 | h2
    · have : n = 1 := by omega
      subst this; simp [levelSize]
    · rw [clog_two_succ h2, levelSize_succ_eq]
      exact ih _ (by omega) (by omega)

/-- Below the top every level has at least two nodes. -/
theorem levelSize_below_top {n l : Nat} (h : l < Nat.clog 2 n) : 2 ≤ levelSize n l := by
  induction l generalizing n with
  | zero =>
    rcases Nat.lt_or_ge n 2 with h2 | h2
    · have : Nat.clog 2 n = 0 := Nat.clog_of_right_le_one (by omega) 2
      omega
    · exact h2
  | succ l ih =>
    rcases Nat.lt_or_ge n 2 with h2 | h2
    · have : Nat.clog 2 n = 0 := Nat.clog_of_right_le_one (by omega) 2
      omega
    · rw [levelSize_succ_eq]
      rw [clog_two_succ h2] at h
      exact ih (by omega)

/-- The builder's level sizes are the spec's, from the leaves to the top (R172, R175). -/
theorem levelSizes_eq (fuel n : Nat) (h1 : 1 ≤ n) (h2 : n ≤ 2 ^ fuel) :
    levelSizes fuel n = (List.range (Nat.clog 2 n + 1)).map (levelSize n) := by
  induction fuel generalizing n with
  | zero =>
    have : n = 1 := by simp at h2; omega
    subst this; simp [levelSizes, levelSize, List.range_succ]
  | succ fuel ih =>
    simp only [levelSizes]
    split
    · have : n = 1 := by omega
      subst this; simp [levelSize, List.range_succ]
    · rw [ih _ (by omega) (by rw [Nat.pow_succ] at h2; omega), clog_two_succ (n := n) (by omega),
        List.range_succ_eq_map (n := Nat.clog 2 ((n + 1) / 2) + 1)]
      simp only [List.map_cons, List.map_map, levelSize]
      congr 1
      apply List.map_congr_left
      intro l _
      simp only [Function.comp, Nat.succ_eq_add_one]
      exact (levelSize_succ_eq n l).symm

/-- The levels' sizes add up to the offset after the last one (R177). -/
theorem sum_levelSize (n d : Nat) : ((List.range d).map (levelSize n)).sum = levelOffset n d := by
  induction d with
  | zero => rfl
  | succ d ih => rw [List.range_succ]; simp [ih, levelOffset]

theorem nodeCount_eq {n : Nat} (h1 : 1 ≤ n) (h2 : n ≤ 2 ^ 32) : nodeCount n = levelOffset n (Nat.clog 2 n + 1) := by
  rw [nodeCount, levelSizes_eq maxLevels _ h1 h2, sum_levelSize]

theorem treeDepthOf_eq {n : Nat} (h1 : 1 ≤ n) (h2 : n ≤ 2 ^ 32) : treeDepthOf n = Nat.clog 2 n := by
  rw [treeDepthOf, levelSizes_eq maxLevels _ h1 h2]; simp

theorem levelOffset_mono (n : Nat) {a b : Nat} (h : a ≤ b) : levelOffset n a ≤ levelOffset n b := by
  induction h with
  | refl => exact Nat.le_refl _
  | step _ ih => simp only [levelOffset]; omega

/-- More leaves, no fewer nodes. -/
theorem levelSizes_sum_mono (fuel : Nat) {n m : Nat} (h : n ≤ m) :
    (levelSizes fuel n).sum ≤ (levelSizes fuel m).sum := by
  induction fuel generalizing n m with
  | zero => simpa [levelSizes] using h
  | succ fuel ih =>
    simp only [levelSizes]
    split <;> split
    · simpa using h
    · simp only [List.sum_cons, List.sum_nil]; omega
    · omega
    · simp only [List.sum_cons]
      have := ih (n := (n + 1) / 2) (m := (m + 1) / 2) (by omega)
      omega

theorem nodeCount_mono {n m : Nat} (h : n ≤ m) : nodeCount n ≤ nodeCount m := levelSizes_sum_mono _ h

/-! ## The open capacity -/

theorem maxLeaves_bounds : Config.minCapacity ≤ Config.maxLeaves ∧ Config.maxLeaves ≤ Config.maxCapacity := by
  unfold Config.maxLeaves Config.minCapacity Config.maxCapacity
  omega

/-- The short cut in `overCapacity` changes nothing (log 9). -/
theorem overCapacity_iff (n : Nat) : overCapacity n = true ↔ Config.maxLeaves < n := by
  have := maxLeaves_bounds.1
  simp only [overCapacity, Bool.and_eq_true, decide_eq_true_eq]
  omega

/-- The short cut in `inTmem` changes nothing (log 9). -/
theorem inTmem_iff (o : Nat) : inTmem o = true ↔ o < 32 * nodeCap := by
  have h : nodeCount Config.minCapacity ≤ nodeCap := nodeCount_mono maxLeaves_bounds.1
  simp only [inTmem, Bool.or_eq_true, decide_eq_true_eq]
  omega

/-- `TMEM` ends inside its part of the aperture (00_scope.md R16). -/
theorem nodeCap_le : nodeCap ≤ nodeCount Config.maxCapacity := nodeCount_mono maxLeaves_bounds.2

theorem maxLeaves_lt : Config.maxLeaves < 2 ^ 32 := by
  have := maxLeaves_bounds.2
  unfold Config.maxCapacity at this
  omega

/-- An offset of a slot below `NODE_CAP` lies in `TMEM`. -/
theorem regionAt_tmem {a : Nat} (h1 : tmemBase ≤ a) (h2 : a < slotAddr nodeCap) : regionAt a = .tmem := by
  unfold regionAt
  unfold slotAddr at h2
  have hd : dinBase + Config.dinBytes ≤ tmemBase := by decide
  have hd' : dinBase ≤ tmemBase := by decide
  rw [if_neg (by omega), if_neg (by omega), if_neg (by omega), if_pos ((inTmem_iff _).mpr (by omega))]

/-! ## Levels -/

theorem nextLevel_length (level : List Words8) : (nextLevel level).length = (level.length + 1) / 2 := by
  induction level using nextLevel.induct with
  | case1 => rfl
  | case2 x => simp [nextLevel]
  | case3 x y rest ih => simp only [nextLevel, List.length_cons, ih]; omega

/-- Node `i` of the next level (R171, R174). -/
theorem nextLevel_getElem? (level : List Words8) (i : Nat) :
    (nextLevel level)[i]? =
      match level[2 * i]?, level[2 * i + 1]? with
      | some x, some y => some (combine x y)
      | some x, none => some (combine x x)
      | none, _ => none := by
  induction level using nextLevel.induct generalizing i with
  | case1 => simp [nextLevel]
  | case2 x => cases i with
    | zero => simp [nextLevel]
    | succ i => simp [nextLevel, show 2 * (i + 1) = (2 * i + 1) + 1 by omega]
  | case3 x y rest ih => cases i with
    | zero => simp [nextLevel]
    | succ i =>
      simp only [nextLevel, List.getElem?_cons_succ, ih, show 2 * (i + 1) = 2 * i + 1 + 1 by omega]

/-- Level `l` of the tree over a list of leaves. -/
def levelList (leaves : List Words8) : Nat → List Words8
  | 0 => leaves
  | l + 1 => nextLevel (levelList leaves l)

theorem levelList_length (leaves : List Words8) (l : Nat) :
    (levelList leaves l).length = levelSize leaves.length l := by
  induction l with
  | zero => rfl
  | succ l ih => simp only [levelList, levelSize, nextLevel_length, ih]

theorem levelList_succ_eq (leaves : List Words8) (l : Nat) :
    levelList leaves (l + 1) = levelList (nextLevel leaves) l := by
  induction l with
  | zero => rfl
  | succ l ih => simp only [levelList] at *; rw [ih]

/-- The levels hold the spec's nodes (R174). -/
theorem levelList_getElem? (leaves : List Words8) (leaf : Nat → Words8)
    (hleaf : ∀ i, i < leaves.length → leaves[i]? = some (leaf i)) (l i : Nat) (h : i < levelSize leaves.length l) :
    (levelList leaves l)[i]? = some (nodeValue leaf leaves.length l i) := by
  induction l generalizing i with
  | zero => exact hleaf i h
  | succ l ih =>
    simp only [levelSize] at h
    simp only [levelList, nextLevel_getElem?, nodeValue]
    rw [ih (2 * i) (by omega)]
    by_cases h2 : 2 * i + 1 < levelSize leaves.length l
    · rw [ih (2 * i + 1) h2, if_pos h2]
    · rw [if_neg h2, List.getElem?_eq_none (by rw [levelList_length]; omega)]

/-- The levels the builder makes above the leaves (R172, R180). -/
theorem levelsAbove_eq (fuel : Nat) (leaves : List Words8) (h1 : 1 ≤ leaves.length) (h2 : leaves.length ≤ 2 ^ fuel) :
    levelsAbove fuel leaves = (List.range (Nat.clog 2 leaves.length)).map fun l => levelList leaves (l + 1) := by
  induction fuel generalizing leaves with
  | zero =>
    have : leaves.length = 1 := by simp at h2; omega
    simp [levelsAbove, this]
  | succ fuel ih =>
    simp only [levelsAbove]
    split
    · have : leaves.length = 1 := by omega
      simp [this]
    · have hl := nextLevel_length leaves
      rw [ih (nextLevel leaves) (by omega) (by rw [Nat.pow_succ] at h2; omega), hl,
        clog_two_succ (n := leaves.length) (by omega), List.range_succ_eq_map]
      simp only [List.map_cons, List.map_map, levelList]
      congr 1
      apply List.map_congr_left
      intro l _
      simp only [Function.comp, Nat.succ_eq_add_one]
      rw [← levelList_succ_eq]

/-- Leaves and levels together are the levels `0 .. D`. -/
theorem leaves_append_above (leaves : List Words8) (h1 : 1 ≤ leaves.length) (h2 : leaves.length ≤ 2 ^ 32) :
    leaves ++ (levelsAbove maxLevels leaves).flatten =
      ((List.range (Nat.clog 2 leaves.length + 1)).map (levelList leaves)).flatten := by
  rw [levelsAbove_eq maxLevels _ h1 h2, List.range_succ_eq_map]
  simp only [List.map_cons, List.map_map, List.flatten_cons, levelList]
  rfl

/-- An entry of a run of levels stands at the level's offset (R177). -/
theorem flatten_levels_getElem? (leaves : List Words8) (d l i : Nat) (hl : l < d)
    (hi : i < levelSize leaves.length l) :
    ((List.range d).map (levelList leaves)).flatten[levelOffset leaves.length l + i]? = (levelList leaves l)[i]? := by
  have hlen : ∀ d, ((List.range d).map (levelList leaves)).flatten.length = levelOffset leaves.length d := by
    intro d
    induction d with
    | zero => rfl
    | succ d ih => rw [List.range_succ]; simp only [List.map_append, List.flatten_append, List.length_append, ih,
        levelOffset, List.map_cons, List.map_nil, List.flatten_cons, List.flatten_nil, List.append_nil, levelList_length]
  induction d with
  | zero => omega
  | succ d ih =>
    rw [List.range_succ]
    simp only [List.map_append, List.flatten_append, List.map_cons, List.map_nil, List.flatten_cons, List.flatten_nil,
      List.append_nil]
    rcases Nat.lt_or_ge l d with h | h
    · rw [List.getElem?_append_left, ih h]
      rw [hlen]
      have := levelOffset_mono leaves.length (show l + 1 ≤ d by omega)
      simp only [levelOffset] at this
      omega
    · have : l = d := by omega
      subst this
      rw [List.getElem?_append_right (by rw [hlen]; omega), hlen]
      congr 1
      omega

theorem leaves_append_above_length (leaves : List Words8) (h1 : 1 ≤ leaves.length) (h2 : leaves.length ≤ 2 ^ 32) :
    (leaves ++ (levelsAbove maxLevels leaves).flatten).length = nodeCount leaves.length := by
  rw [nodeCount_eq h1 h2, leaves_append_above _ h1 h2, List.length_flatten, List.map_map, ← sum_levelSize]
  congr 1
  apply List.map_congr_left
  intro l _
  exact levelList_length leaves l

/-- Where the builder puts each node, and what it puts there (R174, R177). -/
theorem built_node (leaves : List Words8) (leaf : Nat → Words8)
    (hleaf : ∀ i, i < leaves.length → leaves[i]? = some (leaf i))
    (h1 : 1 ≤ leaves.length) (h2 : leaves.length ≤ 2 ^ 32) (l i : Nat) (hl : l ≤ Nat.clog 2 leaves.length)
    (hi : i < levelSize leaves.length l) :
    (leaves ++ (levelsAbove maxLevels leaves).flatten)[levelOffset leaves.length l + i]? =
      some (nodeValue leaf leaves.length l i) := by
  rw [leaves_append_above _ h1 h2, flatten_levels_getElem? _ _ _ _ (by omega) hi, levelList_getElem? _ _ hleaf _ _ hi]

/-- The leaves the builder reads. -/
theorem readNodes_leaf {m : Memory} {n : Nat} {lv : List Words8} (hr : readNodes m 0 n = some lv) (leaf : Nat → Words8)
    (hl : ∀ i, i < n → readNode m i = some (leaf i)) :
    lv.length = n ∧ ∀ i, i < lv.length → lv[i]? = some (leaf i) := by
  obtain ⟨h1, h2⟩ := (readNodes_eq_some _ _ _ _).mp hr
  refine ⟨h1, fun i hi => ?_⟩
  have := h2 i hi
  rw [Nat.zero_add, hl i (by omega)] at this
  rw [List.getElem?_eq_getElem hi]; exact this.symm

/-- What the builder computes: the memory, the depth and the root (R174, R175, R177). -/
theorem build_holds {m : Memory} {lv : List Words8} {n : Nat} (h1 : 1 ≤ n) (h2 : n ≤ 2 ^ 32) (hr : readNodes m 0 n = some lv)
    (leaf : Nat → Words8) (hl : ∀ i, i < n → readNode m i = some (leaf i)) :
    HoldsTree (writeNodes m n (levelsAbove maxLevels lv).flatten) leaf n (Nat.clog 2 n) ∧
    (levelsAbove maxLevels lv).length = Nat.clog 2 n ∧
    (lv ++ (levelsAbove maxLevels lv).flatten).getLastD zeroWords = nodeValue leaf n (Nat.clog 2 n) 0 := by
  obtain ⟨hlen, hleaf⟩ := readNodes_leaf hr leaf hl
  subst hlen
  refine ⟨?_, ?_, ?_⟩
  · intro l hl' i hi
    have hb := built_node lv leaf hleaf h1 h2 l i hl' hi
    rcases Nat.lt_or_ge (levelOffset lv.length l + i) lv.length with hlt | hge
    · rw [readNode_writeNodes_outside _ _ _ _ (.inl hlt), hl _ hlt, ← hb, List.getElem?_append_left hlt, hleaf _ hlt]
    · rw [List.getElem?_append_right hge] at hb
      obtain ⟨hk, he⟩ := List.getElem?_eq_some_iff.mp hb
      have := readNode_writeNodes_inside m lv.length _ _ hk
      rw [show lv.length + (levelOffset lv.length l + i - lv.length) = levelOffset lv.length l + i by omega] at this
      rw [this, he]
  · rw [levelsAbove_eq maxLevels _ h1 h2]; simp
  · have hb := built_node lv leaf hleaf h1 h2 (Nat.clog 2 lv.length) 0 (Nat.le_refl _) (by rw [levelSize_clog h1]; omega)
    have hlen := leaves_append_above_length lv h1 h2
    rw [nodeCount_eq h1 h2] at hlen
    simp only [levelOffset, levelSize_clog h1] at hlen
    rw [List.getLastD_eq_getLast?, List.getLast?_eq_getElem?, hlen]
    simpa using congrArg (Option.getD · zeroWords) hb

end Sys2Proof.Machine
end

