-- ==== Sys2Proof/Laws/Exec.lean ====
section
/-! SUPPORT. What each command can do, said once: if it answers a next state, one of these cases holds. -/

namespace Sys2Proof.Machine

theorem execCtxInit_next {s t : State} (h : execCtxInit s = .next t) :
    t = finish .ok { s with ctx := freshHasher, fsm := .active } := by
  simpa [execCtxInit, completeOk] using h.symm

theorem execCtxUpdate_next {s t : State} (h : execCtxUpdate s = .next t) :
    (s.fsm ≠ .active ∧ t = finish .ctxState s) ∨
    (s.fsm = .active ∧ Config.dinBytes < s.len.toNat ∧ t = finish .lenRange s) ∨
    ∃ m, s.fsm = .active ∧ s.len.toNat ≤ Config.dinBytes ∧ readMessage s = some m ∧
      t = finish .ok { s with ctx := absorb s.ctx m } := by
  unfold execCtxUpdate completeError completeOk at h
  split at h
  · cases h; exact .inl ⟨‹_›, rfl⟩
  · split at h
    · cases h; exact .inr (.inl ⟨by simp_all, ‹_›, rfl⟩)
    · split at h
      · cases h
      · cases h; exact .inr (.inr ⟨_, by simp_all, by omega, ‹_›, rfl⟩)

theorem execCtxFinal_next {s t : State} (h : execCtxFinal s = .next t) :
    (s.fsm ≠ .active ∧ t = finish .ctxState s) ∨
    (s.fsm = .active ∧ t = finish .ok { s with
      ctx := { s.ctx with v := padAndCompress s.ctx, buf := [] }, digest := padAndCompress s.ctx, fsm := .finalized }) := by
  unfold execCtxFinal completeError completeOk at h
  split at h
  · cases h; exact .inl ⟨‹_›, rfl⟩
  · cases h; exact .inr ⟨by simp_all, rfl⟩

theorem execHash_next {s t : State} (h : execHash s = .next t) :
    (Config.dinBytes < s.len.toNat ∧ t = finish .lenRange s) ∨
    ∃ m, s.len.toNat ≤ Config.dinBytes ∧ readMessage s = some m ∧ t = finish .ok { s with digest := hashWords m } := by
  unfold execHash completeError completeOk at h
  split at h
  · cases h; exact .inl ⟨‹_›, rfl⟩
  · split at h
    · cases h
    · cases h; exact .inr ⟨_, by omega, ‹_›, by simp [hash]⟩

theorem execCompress_next {s t : State} (h : execCompress s = .next t) :
    ∃ b, readBlock s = some b ∧ t = finish .ok { s with sio := cf s.sio b } := by
  unfold execCompress completeOk at h
  split at h
  · cases h
  · cases h; exact ⟨_, ‹_›, rfl⟩

theorem execCtxExport_next {s t : State} (h : execCtxExport s = .next t) :
    (s.fsm = .uninit ∧ t = finish .ctxState s) ∨
    (s.fsm ≠ .uninit ∧ t = finish .ok { s with
      sio := s.ctx.v, cioLo := countLow s.ctx.bitcnt, cioHi := countHigh s.ctx.bitcnt }) := by
  unfold execCtxExport completeError completeOk at h
  split at h
  · cases h; exact .inl ⟨‹_›, rfl⟩
  · cases h; exact .inr ⟨‹_›, rfl⟩

theorem execCtxImport_next {s t : State} (h : execCtxImport s = .next t) :
    (s.cio.toNat % 512 ≠ 0 ∧ t = finish .importAlign s) ∨
    (s.cio.toNat % 512 = 0 ∧ t = finish .ok { s with ctx := ⟨s.sio, s.cio, []⟩, fsm := .active }) := by
  unfold execCtxImport completeError completeOk at h
  split at h
  · cases h; exact .inl ⟨‹_›, rfl⟩
  · cases h; exact .inr ⟨by omega, rfl⟩

theorem execTreeBuild_next {s t : State} (h : execTreeBuild s = .next t) :
    (s.treeValid = true ∧ t = finish .treeExists s) ∨
    (s.treeValid = false ∧ s.len.toNat = 0 ∧ t = finish .treeEmpty s) ∨
    (s.treeValid = false ∧ s.len.toNat ≠ 0 ∧ Config.maxLeaves < s.len.toNat ∧ t = finish .treeOvercap s) ∨
    ∃ leaves, s.treeValid = false ∧ 1 ≤ s.len.toNat ∧ s.len.toNat ≤ Config.maxLeaves ∧
      readNodes s.mem 0 s.len.toNat = some leaves ∧
      t = finish .ok { s with
        mem := writeNodes s.mem s.len.toNat (levelsAbove maxLevels leaves).flatten
        treeN := s.len
        treeDepth := BitVec.ofNat 32 (levelsAbove maxLevels leaves).length
        treeRoot := (leaves ++ (levelsAbove maxLevels leaves).flatten).getLastD zeroWords
        treeValid := true } := by
  unfold execTreeBuild completeError completeOk at h
  split at h
  · cases h; exact .inl ⟨‹_›, rfl⟩
  · split at h
    · cases h; exact .inr (.inl ⟨by simp_all, ‹_›, rfl⟩)
    · split at h
      · rename_i hover
        cases h; exact .inr (.inr (.inl ⟨by simp_all, ‹_›, (overCapacity_iff _).mp hover, rfl⟩))
      · rename_i hover
        split at h
        · cases h
        · cases h
          refine .inr (.inr (.inr ⟨_, by simp_all, by omega, ?_, ‹_›, rfl⟩))
          rw [overCapacity_iff] at hover; omega

theorem execTreeFree_next {s t : State} (h : execTreeFree s = .next t) :
    (s.treeValid = true ∧ t = finish .ok { s with
      treeValid := false, treeN := 0, treeDepth := 0, treeRoot := zeroWords }) ∨
    (s.treeValid = false ∧ t = finish .treeNone s) := by
  unfold execTreeFree completeError completeOk at h
  split at h
  · cases h; exact .inl ⟨‹_›, rfl⟩
  · cases h; exact .inr ⟨by simp_all, rfl⟩

/-- The bits of `CIO` as the number 30_encoding.md R94 gives. -/
theorem cio_toNat (s : State) : s.cio.toNat = s.cioHi.toNat * 2 ^ 32 + s.cioLo.toNat := by
  unfold State.cio
  rw [BitVec.toNat_append, Nat.shiftLeft_eq, Nat.mul_comm, ← Nat.two_pow_add_eq_or_of_lt s.cioLo.isLt, Nat.mul_comm]

end Sys2Proof.Machine
end

