-- ==== Sys2Proof/Laws/Bus.lean ====
section
/-! SUPPORT. What one bus access can do, said once (20_memory.md R68, R71). -/

namespace Sys2Proof.Machine

theorem dinBase_eq : dinBase = 0x10000 := rfl

theorem dinEnd_eq : dinBase + Config.dinBytes = 0x11000 := rfl

theorem tmemBase_eq : tmemBase = 0x1000000 := rfl

/-- The regions are the ranges of 20_memory.md R63. -/
theorem regionAt_eq (off : Nat) :
    regionAt off =
      if off < 0x10000 then .registers
      else if off < 0x11000 then .din
      else if off < 0x1000000 then .hole
      else if off < 0x1000000 + 32 * nodeCap then .tmem
      else .hole := by
  unfold regionAt
  rw [dinEnd_eq, dinBase_eq, tmemBase_eq]
  split_ifs with h1 h2 h3 h4 h5 h5
  · rfl
  · rfl
  · rfl
  · rfl
  · rw [inTmem_iff] at h4; omega
  · rw [inTmem_iff] at h4; omega
  · rfl

theorem regionAt_din {off : Nat} (h : regionAt off = .din) : 0x10000 ≤ off ∧ off < 0x11000 := by
  rw [regionAt_eq] at h
  split_ifs at h
  omega

theorem regionAt_tmem_bounds {off : Nat} (h : regionAt off = .tmem) :
    0x1000000 ≤ off ∧ off < 0x1000000 + 32 * nodeCap := by
  rw [regionAt_eq] at h
  split_ifs at h
  omega

theorem regionAt_of_din {off : Nat} (h1 : 0x10000 ≤ off) (h2 : off < 0x11000) : regionAt off = .din := by
  rw [regionAt_eq, if_neg (by omega), if_pos (by omega)]

theorem regionAt_of_registers {off : Nat} (h : off < 0x10000) : regionAt off = .registers := by
  rw [regionAt_eq, if_pos (by omega)]

theorem regionAt_of_tmem {off : Nat} (h1 : 0x1000000 ≤ off) (h2 : off < 0x1000000 + 32 * nodeCap) :
    regionAt off = .tmem := by
  rw [regionAt_eq, if_neg (by omega), if_neg (by omega), if_neg (by omega), if_pos h2]

/-- The byte after an aligned word's start lies in the start's region. -/
theorem regionAt_word {off k : Nat} (ha : off % 4 = 0) (hk : k < 4) (hr : regionAt off = .din ∨ regionAt off = .tmem) :
    regionAt (off + k) = regionAt off := by
  rcases hr with h | h
  · have := regionAt_din h
    rw [h]; exact regionAt_of_din (by omega) (by omega)
  · have := regionAt_tmem_bounds h
    rw [h]
    exact regionAt_of_tmem (by omega) (by omega)

/-- Why an access that passes the checks passes them. -/
theorem busCheck_none {a : BusAccess} {s : State} (h : busCheck a s = none) :
    a.addr.toNat % 4 = 0 ∧ a.size = .four ∧ regionAt a.addr.toNat ≠ .hole ∧
      (s.busy = true → a.we = true → a.addr.toNat = ctrlOffset) ∧
      (a.we = true → regionAt a.addr.toNat = .tmem → s.treeValid = false) := by
  unfold busCheck at h
  split at h
  · cases h
  · split at h
    · cases h
    · split at h
      · cases h
      · split at h
        · cases h
        · split at h
          · cases h
          · simp_all

/-- The checks, and nothing else, stop an access (20_memory.md R68). -/
theorem busCheck_of {a : BusAccess} {s : State} (h1 : a.addr.toNat % 4 = 0) (h2 : a.size = .four)
    (h3 : regionAt a.addr.toNat ≠ .hole) (h4 : s.busy = true → a.we = true → a.addr.toNat = ctrlOffset)
    (h5 : a.we = true → regionAt a.addr.toNat = .tmem → s.treeValid = false) : busCheck a s = none := by
  unfold busCheck
  rw [if_neg (by omega), if_neg (by simp [h2]), if_neg h3, if_neg, if_neg]
  · rintro ⟨hw, hr, ht⟩
    simp [h5 hw hr] at ht
  · rintro ⟨hb, hw, hne⟩
    exact hne (h4 hb hw)

/-- A legal register write that the checks let through (20_memory.md R71). -/
theorem busAccess_registerWrite {a : BusAccess} {s : State} (h1 : a.addr.toNat % 4 = 0) (h2 : a.size = .four)
    (hw : a.we = true) (hr : a.addr.toNat < 0x10000) (h4 : s.busy = true → a.addr.toNat = ctrlOffset) :
    busAccess a s = .next (respondWrite (regWrite (regAt a.addr.toNat) a.wdata s)) := by
  have hreg := regionAt_of_registers hr
  unfold busAccess
  rw [busCheck_of h1 h2 (by simp [hreg]) (fun hb _ => h4 hb) (by simp [hreg])]
  simp only [hw, if_true, hostWrite, hreg]

/-- A legal register read (20_memory.md R71, 60_exceptions.md R209). -/
theorem busAccess_registerRead {a : BusAccess} {s : State} (h1 : a.addr.toNat % 4 = 0) (h2 : a.size = .four)
    (hw : a.we = false) (hr : a.addr.toNat < 0x10000) :
    busAccess a s =
      if (s.busy && freeWhileBusy (regAt a.addr.toNat)) = true then .next (respondFree s)
      else .next (respondRead (regRead (regAt a.addr.toNat) s) s) := by
  have hreg := regionAt_of_registers hr
  unfold busAccess
  rw [busCheck_of h1 h2 (by simp [hreg]) (by simp [hw]) (by simp [hw])]
  simp only [hw, hostRead, hreg, Bool.false_eq_true, if_false]

/-- A legal window read (20_memory.md R71). -/
theorem busAccess_windowRead {a : BusAccess} {s : State} (h1 : a.addr.toNat % 4 = 0) (h2 : a.size = .four)
    (hw : a.we = false) (hr : regionAt a.addr.toNat = .din ∨ regionAt a.addr.toNat = .tmem) :
    busAccess a s = windowRead a.addr.toNat s := by
  unfold busAccess
  rw [busCheck_of h1 h2 (by rcases hr with h | h <;> simp [h]) (by simp [hw]) (by simp [hw])]
  rcases hr with h | h <;> simp only [hw, hostRead, h, Bool.false_eq_true, if_false]

/-- A legal idle window write (20_memory.md R71). -/
theorem busAccess_windowWrite {a : BusAccess} {s : State} (h1 : a.addr.toNat % 4 = 0) (h2 : a.size = .four)
    (hw : a.we = true) (hb : s.busy = false)
    (hr : regionAt a.addr.toNat = .din ∨ (regionAt a.addr.toNat = .tmem ∧ s.treeValid = false)) :
    busAccess a s =
      .next (respondWrite { s with mem := Memory.writeBytes s.mem a.addr.toNat (bytes32 a.wdata) }) := by
  unfold busAccess
  rw [busCheck_of h1 h2 (by rcases hr with h | h <;> simp [h]) (by simp [hb])
    (by rcases hr with h | h <;> simp [h])]
  rcases hr with h | ⟨h, _⟩ <;> simp only [hw, hostWrite, h, if_true]

/-- The word of four written bytes (20_memory.md R60). -/
theorem wordAt_written {m : Memory} {a : Nat} {b0 b1 b2 b3 : Byte} (h0 : Memory.read m a = some b0)
    (h1 : Memory.read m (a + 1) = some b1) (h2 : Memory.read m (a + 2) = some b2)
    (h3 : Memory.read m (a + 3) = some b3) : wordAt m a = some (be32 b0 b1 b2 b3) := by
  simp only [wordAt, Memory.readBytes, h0, h1, Nat.add_assoc, Nat.reduceAdd, h2, h3]

/-- A word is missing exactly where one of its bytes is (10_state.md R42, R43). -/
theorem wordAt_eq_none {m : Memory} {a : Nat} : wordAt m a = none ↔ ∃ k, k < 4 ∧ Memory.read m (a + k) = none := by
  constructor
  · intro h
    by_contra hc
    have hw : ∀ k, k < 4 → ∃ b, Memory.read m (a + k) = some b :=
      fun k hk => Option.ne_none_iff_exists'.mp fun h' => hc ⟨k, hk, h'⟩
    obtain ⟨b0, h0⟩ := hw 0 (by omega)
    obtain ⟨b1, h1⟩ := hw 1 (by omega)
    obtain ⟨b2, h2⟩ := hw 2 (by omega)
    obtain ⟨b3, h3⟩ := hw 3 (by omega)
    cases (wordAt_written (a := a) h0 h1 h2 h3).symm.trans h
  · intro h
    rw [wordAt, (readBytes_eq_none m a 4).mpr h]

/-- An idle window read faults exactly where its word is missing (60_exceptions.md R220); while busy none faults (log 22). -/
theorem windowRead_fault {off : Nat} {s : State} {f : Fault} :
    windowRead off s = .fault f ↔ s.busy = false ∧ wordAt s.mem off = none := by
  cases f
  unfold windowRead
  cases s.busy <;> cases wordAt s.mem off <;> simp

/-- A window read that answers: a free value while busy, else the word. -/
theorem windowRead_next {off : Nat} {s t : State} (h : windowRead off s = .next t) :
    (s.busy = true ∧ t = respondFree s) ∨ (s.busy = false ∧ ∃ v, wordAt s.mem off = some v ∧ t = respondRead v s) := by
  unfold windowRead at h
  split at h
  · cases h; exact .inl ⟨‹_›, rfl⟩
  · split at h
    · cases h
    · cases h; exact .inr ⟨by simp_all, _, ‹_›, rfl⟩

/-- A read that answers. -/
theorem hostRead_next {off : Nat} {s t : State} (h : hostRead off s = .next t) :
    t = respondFree s ∨ (∃ v, t = respondRead v s) ∨ t = respondError false s := by
  unfold hostRead at h
  split at h
  · split at h <;> cases h
    · exact .inl rfl
    · exact .inr (.inl ⟨_, rfl⟩)
  · rcases windowRead_next h with ⟨_, h⟩ | ⟨_, v, _, h⟩
    · exact .inl h
    · exact .inr (.inl ⟨v, h⟩)
  · rcases windowRead_next h with ⟨_, h⟩ | ⟨_, v, _, h⟩
    · exact .inl h
    · exact .inr (.inl ⟨v, h⟩)
  · cases h; exact .inr (.inr rfl)

/-- One access that answers: a bus error, a read's answer, or a performed write. -/
theorem busAccess_next {a : BusAccess} {s t : State} (h : busAccess a s = .next t) :
    (t = respondError a.we s) ∨
    (a.we = false ∧ (t = respondFree s ∨ ∃ v, t = respondRead v s)) ∨
    (busCheck a s = none ∧ a.we = true ∧ t = respondWrite (hostWrite a.addr.toNat a.wdata s)) := by
  unfold busAccess at h
  split at h
  · cases h; exact .inl rfl
  · rename_i hc
    split at h
    · cases h; exact .inr (.inr ⟨hc, ‹_›, rfl⟩)
    · rename_i hw
      have hw' : a.we = false := by simpa using hw
      rcases hostRead_next h with h | h | h
      · exact .inr (.inl ⟨hw', .inl h⟩)
      · exact .inr (.inl ⟨hw', .inr h⟩)
      · exact .inl (by rw [h, hw'])

/-- A performed write: a register, or a word of a window. -/
theorem hostWrite_cases (off : Nat) (v : Word) (s : State) :
    (regionAt off = .registers ∧ hostWrite off v s = regWrite (regAt off) v s) ∨
    ((regionAt off = .din ∨ regionAt off = .tmem) ∧
      hostWrite off v s = { s with mem := Memory.writeBytes s.mem off (bytes32 v) }) ∨
    (regionAt off = .hole ∧ hostWrite off v s = s) := by
  unfold hostWrite
  split
  · exact .inl ⟨‹_›, rfl⟩
  · exact .inr (.inl ⟨.inl ‹_›, rfl⟩)
  · exact .inr (.inl ⟨.inr ‹_›, rfl⟩)
  · exact .inr (.inr ⟨‹_›, rfl⟩)

/-- A register write: issue, `DONE` cleared, soft reset, `IRQ_EN`, one of the stored registers, or nothing. -/
theorem regWrite_cases (r : Reg) (v : Word) (s : State) :
    (r = .cmd ∧ regWrite r v s = issue v s) ∨
    (r = .status ∧ regWrite r v s = { s with done := if v.getLsbD 1 then false else s.done }) ∨
    (r = .ctrl ∧ v.getLsbD 1 = true ∧ regWrite r v s = softReset s) ∨
    (r = .ctrl ∧ v.getLsbD 1 = false ∧ regWrite r v s = { s with irqEn := v.getLsbD 0 }) ∨
    (∃ l sio lo hi, regWrite r v s = { s with len := l, sio := sio, cioLo := lo, cioHi := hi }) := by
  cases r with
  | cmd => exact .inl ⟨rfl, rfl⟩
  | status =>
    refine .inr (.inl ⟨rfl, ?_⟩)
    simp only [regWrite]
    split <;> rfl
  | ctrl =>
    cases hv : v.getLsbD 1 with
    | true => exact .inr (.inr (.inl ⟨rfl, rfl, by simp only [regWrite, hv]; rfl⟩))
    | false => exact .inr (.inr (.inr (.inl ⟨rfl, rfl, by simp only [regWrite, hv]; rfl⟩)))
  | len => exact .inr (.inr (.inr (.inr ⟨v, s.sio, s.cioLo, s.cioHi, rfl⟩)))
  | sio k => exact .inr (.inr (.inr (.inr ⟨s.len, s.sio.set k v, s.cioLo, s.cioHi, rfl⟩)))
  | cioLo => exact .inr (.inr (.inr (.inr ⟨s.len, s.sio, v, s.cioHi, rfl⟩)))
  | cioHi => exact .inr (.inr (.inr (.inr ⟨s.len, s.sio, s.cioLo, v, rfl⟩)))
  | treeN => exact .inr (.inr (.inr (.inr ⟨s.len, s.sio, s.cioLo, s.cioHi, rfl⟩)))
  | treeDepth => exact .inr (.inr (.inr (.inr ⟨s.len, s.sio, s.cioLo, s.cioHi, rfl⟩)))
  | capMaxLeaves => exact .inr (.inr (.inr (.inr ⟨s.len, s.sio, s.cioLo, s.cioHi, rfl⟩)))
  | capDinBytes => exact .inr (.inr (.inr (.inr ⟨s.len, s.sio, s.cioLo, s.cioHi, rfl⟩)))
  | digest k => exact .inr (.inr (.inr (.inr ⟨s.len, s.sio, s.cioLo, s.cioHi, rfl⟩)))
  | treeRoot k => exact .inr (.inr (.inr (.inr ⟨s.len, s.sio, s.cioLo, s.cioHi, rfl⟩)))
  | reserved => exact .inr (.inr (.inr (.inr ⟨s.len, s.sio, s.cioLo, s.cioHi, rfl⟩)))

theorem ite_reg_ne {c : Prop} [Decidable c] {x y z : Reg} (hx : x ≠ z) (hy : y ≠ z) : (if c then x else y) ≠ z := by
  by_cases h : c
  · rwa [if_pos h]
  · rwa [if_neg h]

/-- Above `CTRL` no register has a side effect (10_state.md R23). -/
theorem regAt_above {off : Nat} (h : 12 ≤ off) : regAt off ≠ .cmd ∧ regAt off ≠ .status ∧ regAt off ≠ .ctrl := by
  unfold regAt
  rw [if_neg (by omega), if_neg (by omega), if_neg (by omega)]
  refine ⟨?_, ?_, ?_⟩ <;> repeat' refine ite_reg_ne ?_ ?_
  all_goals (intro h; injection h)

/-- `CMD`, `STATUS` and `CTRL` stand at one offset each (10_state.md R23). -/
theorem regAt_cmd {off : Nat} (ha : off % 4 = 0) (h : regAt off = .cmd) : off = 0x000 := by
  by_contra hne
  have h12 : ¬ 12 ≤ off := fun hge => (regAt_above hge).1 h
  have : off = 4 ∨ off = 8 := by omega
  rcases this with rfl | rfl <;> exact absurd h (by decide)

theorem regAt_status {off : Nat} (ha : off % 4 = 0) (h : regAt off = .status) : off = 0x004 := by
  by_contra hne
  have h12 : ¬ 12 ≤ off := fun hge => (regAt_above hge).2.1 h
  have : off = 0 ∨ off = 8 := by omega
  rcases this with rfl | rfl <;> exact absurd h (by decide)

theorem regAt_ctrl {off : Nat} (ha : off % 4 = 0) (h : regAt off = .ctrl) : off = 0x008 := by
  by_contra hne
  have h12 : ¬ 12 ≤ off := fun hge => (regAt_above hge).2.2 h
  have : off = 0 ∨ off = 4 := by omega
  rcases this with rfl | rfl <;> exact absurd h (by decide)

end Sys2Proof.Machine
end

