-- ==== Sys2Proof/Laws/Flags.lean ====
section
/-! SUPPORT. The fields of the `STATUS` and `CTRL` words (10_state.md R25, R26). -/

namespace Sys2Proof.Machine

/-- `STATUS` as a number. -/
theorem statusWord_toNat (s : State) :
    s.statusWord.toNat =
      (s.buflen.extractLsb' 0 6).toNat * 2 ^ 16 + s.errcode.toByte.toNat * 2 ^ 8 + s.treeValid.toNat * 2 ^ 6 +
        s.fsm.toBits.toNat * 2 ^ 4 + s.err.toNat * 2 ^ 2 + s.done.toNat * 2 + s.busy.toNat := by
  unfold State.statusWord
  generalize s.buflen.extractLsb' 0 6 = b
  generalize s.errcode.toByte = e
  generalize s.fsm.toBits = f
  generalize s.treeValid = v
  generalize s.err = r
  generalize s.done = d
  generalize s.busy = y
  erw [append_toNat, append_toNat]
  rw [append_toNat, append_toNat, append_toNat, append_toNat, append_toNat, append_toNat, append_toNat]
  simp only [BitVec.toNat_ofBool]
  have : (0 : BitVec 10).toNat = 0 := rfl
  have : (0 : BitVec 1).toNat = 0 := rfl
  omega

/-- The bounds that make the fields of `STATUS` separate. -/
theorem status_bounds (s : State) :
    (s.buflen.extractLsb' 0 6).toNat < 64 ∧ s.errcode.toByte.toNat < 256 ∧ s.treeValid.toNat < 2 ∧
      s.fsm.toBits.toNat < 4 ∧ s.err.toNat < 2 ∧ s.done.toNat < 2 ∧ s.busy.toNat < 2 :=
  ⟨(s.buflen.extractLsb' 0 6).isLt, s.errcode.toByte.isLt, Bool.toNat_lt _, s.fsm.toBits.isLt, Bool.toNat_lt _,
    Bool.toNat_lt _, Bool.toNat_lt _⟩

theorem field_toNat (w : Word) (lo len : Nat) : (w.extractLsb' lo len).toNat = w.toNat / 2 ^ lo % 2 ^ len := by
  rw [BitVec.extractLsb'_toNat, Nat.shiftRight_eq_div_pow]

theorem bit_eq (w : Word) (i : Nat) (b : Bool) (h : w.toNat / 2 ^ i % 2 = b.toNat) : w.getLsbD i = b := by
  rw [BitVec.getLsbD, Nat.testBit_eq_decide_div_mod_eq, h]
  cases b <;> rfl

theorem status_busy (s : State) : s.statusWord.getLsbD 0 = s.busy :=
  bit_eq _ _ _ (by rw [statusWord_toNat]; have := status_bounds s; omega)

theorem status_done (s : State) : s.statusWord.getLsbD 1 = s.done :=
  bit_eq _ _ _ (by rw [statusWord_toNat]; have := status_bounds s; omega)

theorem status_err (s : State) : s.statusWord.getLsbD 2 = s.err :=
  bit_eq _ _ _ (by rw [statusWord_toNat]; have := status_bounds s; omega)

theorem status_bit3 (s : State) : s.statusWord.getLsbD 3 = false :=
  bit_eq _ _ _ (by rw [statusWord_toNat, Bool.toNat_false]; have := status_bounds s; omega)

theorem status_treeValid (s : State) : s.statusWord.getLsbD 6 = s.treeValid :=
  bit_eq _ _ _ (by rw [statusWord_toNat]; have := status_bounds s; omega)

theorem status_bit7 (s : State) : s.statusWord.getLsbD 7 = false :=
  bit_eq _ _ _ (by rw [statusWord_toNat, Bool.toNat_false]; have := status_bounds s; omega)

theorem status_fsm (s : State) : s.statusWord.extractLsb' 4 2 = s.fsm.toBits := by
  apply BitVec.eq_of_toNat_eq
  rw [field_toNat, statusWord_toNat]; have := status_bounds s; omega

theorem status_errcode (s : State) : s.statusWord.extractLsb' 8 8 = s.errcode.toByte := by
  apply BitVec.eq_of_toNat_eq
  rw [field_toNat, statusWord_toNat]; have := status_bounds s; omega

theorem status_buflen (s : State) : (s.statusWord.extractLsb' 16 6).toNat = s.ctx.buf.length % 64 := by
  rw [field_toNat, statusWord_toNat]
  have hb : (s.buflen.extractLsb' 0 6).toNat = s.ctx.buf.length % 64 := by
    rw [BitVec.extractLsb'_toNat, State.buflen, BitVec.toNat_ofNat, Nat.shiftRight_zero]; omega
  have := status_bounds s; omega

theorem status_reserved (s : State) : s.statusWord.extractLsb' 22 10 = 0 := by
  apply BitVec.eq_of_toNat_eq
  rw [field_toNat, statusWord_toNat]
  have : (0 : BitVec 10).toNat = 0 := rfl
  have := status_bounds s; omega

theorem ctrl_irqEn (s : State) : s.ctrlWord.getLsbD 0 = s.irqEn := by
  cases h : s.irqEn <;> simp [State.ctrlWord, h]

theorem ctrl_softReset (s : State) : s.ctrlWord.getLsbD 1 = false := by
  cases h : s.irqEn <;> simp [State.ctrlWord, h]

end Sys2Proof.Machine
end

