-- ==== Sys2Proof/Laws/Hasher.lean ====
section
/-! SUPPORT. What absorbing leaves in the buffer and the bit count (41_streaming_hasher.md R141, R144), the sizes of the padded
blocks (R145). -/

namespace Sys2Proof.Machine

/-- `absorbBlocks` takes 64 bytes a block. -/
theorem absorbBlocks_rest (k : Nat) (v : Words8) (rest : List Byte) :
    (absorbBlocks k v rest).2 = rest.drop (64 * k) := by
  induction k generalizing v rest with
  | zero => rfl
  | succ k ih => simp only [absorbBlocks]; rw [ih, List.drop_drop]; congr 1; omega

/-- Absorbing keeps `BUFLEN` the byte count modulo 64. -/
theorem absorb_buf_length (c : Hasher) (m : List Byte) (h : c.buf.length ≤ 63) :
    (absorb c m).buf.length = (c.buf.length + m.length) % 64 := by
  unfold absorb
  split
  · rename_i h0; rw [h0]; omega
  · unfold fillBuffer
    simp only
    split
    · split
      · rename_i h1 h2
        simp only [List.length_append, List.length_take, List.length_drop, List.nil_append, absorbBlocks_rest] at *
        omega
      · rename_i h1 h2
        simp only [List.length_append, List.length_take, List.length_drop, absorbBlocks_rest] at *
        omega
    · simp only [List.length_append, List.length_drop, absorbBlocks_rest]
      omega

/-- Absorbing adds the bits of the input, modulo 2^64 (R144). -/
theorem absorb_bitcnt (c : Hasher) (m : List Byte) : (absorb c m).bitcnt = c.bitcnt + BitVec.ofNat 64 (8 * m.length) := by
  unfold absorb
  split
  · rename_i h0; simp [h0]
  · unfold fillBuffer
    simp only
    split
    · split <;> rfl
    · rfl

/-- An empty input is not absorbed (R142, R143). -/
@[simp] theorem absorb_nil (c : Hasher) : absorb c [] = c := rfl

@[simp] theorem freshHasher_buf : freshHasher.buf = [] := rfl

@[simp] theorem freshHasher_bitcnt : freshHasher.bitcnt = 0 := rfl

@[simp] theorem freshHasher_v : freshHasher.v = iv := rfl

end Sys2Proof.Machine
end

