-- ==== Sys2Proof/Laws/HostSide.lean ====
section
/-! SUPPORT. The small laws of the host's side: the eight words as a list (30_encoding.md R105) and the proof consumer's storage
check (43_proof_consumer.md R195). -/

namespace Sys2Proof.Machine

@[simp] theorem wordList_length (v : Words8) : (wordList v).length = 8 := rfl

/-- The list's entry `k` is word `k`. -/
theorem wordList_getD (v : Words8) (k : Fin 8) : (wordList v).getD k 0 = v.get k :=
  match k with
  | 0 | 1 | 2 | 3 | 4 | 5 | 6 | 7 => rfl

/-- A storage that holds the proof gets it. -/
theorem answerIn_of_le {room : Nat} {proof : List Words8} (index : Nat) (h : proof.length ≤ room) :
    answerIn room proof index = .ok (proof, index) := if_neg (by omega)

/-- An undersized storage fails fast. -/
theorem answerIn_of_lt {room : Nat} {proof : List Words8} (index : Nat) (h : room < proof.length) :
    answerIn room proof index = .error .bufferTooSmall := if_pos h

end Sys2Proof.Machine
end

