-- ==== Sys2Proof/Laws/PerInstr.lean ====
section
/-! SUPPORT. What holds of every command as syntax, one lemma per constructor (30_encoding.md R90, R92, R96). -/

namespace Sys2Proof.Laws.EncodedRow

/-- The command is well formed, its word has its opcode in `OPCODE` and zero in `RSVD`, and the decoder reads it back. -/
def Statement (i : Instr) : Prop :=
  i.wf = true ∧ opcodeField (encode i) = i.opcode ∧ reservedField (encode i) = 0 ∧ decode (encode i) = .ok i ∧
    decodeTableWord 32 (encode i).toNat = some i

theorem ctxInit : Statement .ctxInit := ⟨rfl, rfl, rfl, rfl, rfl⟩

theorem ctxUpdate : Statement .ctxUpdate := ⟨rfl, rfl, rfl, rfl, rfl⟩

theorem ctxFinal : Statement .ctxFinal := ⟨rfl, rfl, rfl, rfl, rfl⟩

theorem hash : Statement .hash := ⟨rfl, rfl, rfl, rfl, rfl⟩

theorem compress : Statement .compress := ⟨rfl, rfl, rfl, rfl, rfl⟩

theorem ctxExport : Statement .ctxExport := ⟨rfl, rfl, rfl, rfl, rfl⟩

theorem ctxImport : Statement .ctxImport := ⟨rfl, rfl, rfl, rfl, rfl⟩

theorem treeBuild : Statement .treeBuild := ⟨rfl, rfl, rfl, rfl, rfl⟩

theorem treeFree : Statement .treeFree := ⟨rfl, rfl, rfl, rfl, rfl⟩

end Sys2Proof.Laws.EncodedRow
end

