-- ==== Sys2Proof/Laws/Step.lean ====
section
/-! SUPPORT. What one step can do, said once. -/

namespace Sys2Proof.Machine

/-- The engine's turn: nothing while idle, a command, or `BAD_CMD`. -/
theorem engineStep_next {s t : State} (h : engineStep s = .next t) :
    (s.engine = .idle ∧ t = s) ∨
    (∃ op i, s.engine = .exec op ∧ decode op = .ok i ∧ exec i s = .next t) ∨
    (∃ op e, s.engine = .exec op ∧ decode op = .error e ∧ t = finish .badCmd s) := by
  unfold engineStep at h
  split at h
  · cases h; exact .inl ⟨‹_›, rfl⟩
  · unfold execute completeError at h
    split at h
    · exact .inr (.inl ⟨_, _, ‹_›, ‹_›, h⟩)
    · cases h; exact .inr (.inr ⟨_, _, ‹_›, ‹_›, rfl⟩)

/-- One step: the engine's turn, an access, or a power-on reset. -/
theorem step_next {s t : State} (h : step s = .next t) :
    (s.script = [] ∧ engineStep s = .next t) ∨
    (∃ rest, s.script = .engineTurn :: rest ∧ engineStep { s with script := rest } = .next t) ∨
    (∃ a rest, s.script = .access a :: rest ∧ busAccess a { s with script := rest } = .next t) ∨
    (∃ rest, s.script = .powerOn :: rest ∧ t = powerOnReset { s with script := rest }) := by
  unfold step at h
  split at h
  · exact .inl ⟨‹_›, h⟩
  · rename_i e rest hs
    cases e with
    | engineTurn => exact .inr (.inl ⟨rest, hs, h⟩)
    | access a => exact .inr (.inr (.inl ⟨a, rest, hs, h⟩))
    | powerOn => cases h; exact .inr (.inr (.inr ⟨rest, hs, rfl⟩))

/-- The first step of a run. -/
theorem run_cons (M : Host.Core) (k : Nat) (s : M.State) :
    M.run (k + 1) s = match M.step s with
      | .next t => M.run k t
      | .fault r => .fault r
      | .refused r => .refused r := rfl

/-- A run whose first step answers. -/
theorem run_succ {s t : State} (k : Nat) (h : step s = .next t) :
    Host.Core.run Sys2Proof.core (k + 1) s = Host.Core.run Sys2Proof.core k t := by
  have hs : Sys2Proof.core.step s = .next t := h
  refine (run_cons Sys2Proof.core k s).trans ?_
  rw [hs]

/-- A run whose first step faults. -/
theorem run_fault {s : State} {f : Fault} (k : Nat) (h : step s = .fault f) :
    Host.Core.run Sys2Proof.core (k + 1) s = .fault f := by
  have hs : Sys2Proof.core.step s = .fault f := h
  refine (run_cons Sys2Proof.core k s).trans ?_
  rw [hs]

end Sys2Proof.Machine
end

