-- ==== Sys2Proof/Laws/Resets.lean ====
section
/-! SUPPORT. What an access that is no soft reset leaves of the tree and the digest, and what a soft reset is. -/

namespace Sys2Proof.Machine

/-- An access that is no soft reset keeps the tree registers and `DIGEST`, and a held tree's bytes. -/
theorem access_tree {s t : State} {a : BusAccess} (h : busAccess a s = .next t) (hnr : ¬ BusAccess.softResets a) :
    t.treeValid = s.treeValid ∧ t.treeN = s.treeN ∧ t.treeDepth = s.treeDepth ∧ t.treeRoot = s.treeRoot ∧
      t.digest = s.digest ∧ (s.treeValid = true → ∀ a, 0x1000000 ≤ a → Memory.read t.mem a = Memory.read s.mem a) := by
  rcases busAccess_next h with rfl | ⟨_, rfl | ⟨v, rfl⟩⟩ | ⟨hc, hw, rfl⟩
  · simp
  · simp
  · simp
  · have hc := busCheck_none hc
    rcases hostWrite_cases a.addr.toNat a.wdata s with ⟨hr, he⟩ | ⟨hr, he⟩ | ⟨hr, he⟩
    · rcases regWrite_cases (regAt a.addr.toNat) a.wdata s with ⟨hr', he'⟩ | ⟨hr', he'⟩ | ⟨hr', hv, he'⟩ | ⟨hr', _, he'⟩ | ⟨l, si, lo, hi, he'⟩
      · simp [he, he']
      · simp [he, he']
      · exfalso; apply hnr
        have := regAt_ctrl hc.1 hr'
        exact ⟨BitVec.eq_of_toNat_eq (by simpa using this), hc.2.1, hw, hv⟩
      · simp [he, he']
      · simp [he, he']
    · simp only [respondWrite_treeValid, respondWrite_treeN, respondWrite_treeDepth, respondWrite_treeRoot, respondWrite_mem, respondWrite_digest, he, true_and]
      intro htv x hx
      apply read_writeBytes_outside
      rw [bytes32_length]
      rcases hr with hr | hr
      · have := regionAt_din hr; omega
      · exact absurd htv (by simp [hc.2.2.2.2 hw hr])
    · simp [he]

/-- A write of 1 to `CTRL.SOFT_RESET` (70_reset_and_hazards.md R231). -/
theorem softReset_access {s t : State} {a : BusAccess} (h : busAccess a s = .next t) (hr : BusAccess.softResets a) :
    t = respondWrite (softReset s) := by
  obtain ⟨h1, h2, h3, h4⟩ := hr
  have e := busAccess_registerWrite (a := a) (s := s) (by rw [h1]; decide) h2 h3 (by rw [h1]; decide) (fun _ => by rw [h1]; decide)
  rw [h1, show regAt (BitVec.toNat (8 : Word)) = .ctrl by decide] at e
  simp only [regWrite, h4, if_true] at e
  rw [e] at h; cases h; rfl

end Sys2Proof.Machine
end

