-- ==== Sys2Proof/Tests/Slice0.lean ====
section
/-! SUPPORT. The model's own tests: ill-formed terms the checks refuse, words written out from 30_encoding.md, vectors of
95_test_vectors.md, and for every statement with hypotheses a state that meets them. Expected values are the spec's. -/

namespace Sys2Proof.Tests

-- One kernel evaluation at a time: side by side, each waiting one would hold a thread stack of its own.
set_option Elab.async false

open Sys2Proof.Machine

/-! ## WellFormed refuses -/

theorem test_illformed_cmdWord : cmdWordWf 0x00000101 = false := by decide

theorem test_illformed_access_size : BusAccess.wf ⟨0x10000, true, .one, 0⟩ = false := by decide

theorem test_illformed_access_address : BusAccess.wf ⟨0x10002, false, .four, 0⟩ = false := by decide

theorem test_illformed_capacity : capacityWf 99999 = false ∧ capacityWf 3900001 = false := by decide

theorem test_illformed_dinBytes : dinBytesWf 4100 = false ∧ dinBytesWf 65600 = false := by decide

theorem test_wellformed_dinBytes : dinBytesWf Config.dinBytes = true := by decide

theorem test_illformed_stmt :
    HostStmt.wf (.wr 0x001 0) = false ∧ HostStmt.wf (.rd 0x002) = false ∧ HostStmt.wf (.rdCheck 0x003 0) = false := by decide

theorem test_illformed_pseudo :
    PseudoStmt.wf (.loadMsg (List.replicate 4097 0)) = false ∧ PseudoStmt.wf (.loadWords 0x10001 []) = false ∧
      PseudoStmt.wf (.loadLeaf 3900000 zeroWords) = false := by decide +kernel

/-! ## Decoding: every command's word, OPCODE [7:0] and RSVD [31:8], bit by bit (30_encoding.md R90, R92) -/

theorem test_decode_ctxInit : decode 0b00000000000000000000000000000001 = .ok .ctxInit := by rfl

theorem test_decode_ctxUpdate : decode 0b00000000000000000000000000000010 = .ok .ctxUpdate := by rfl

theorem test_decode_ctxFinal : decode 0b00000000000000000000000000000011 = .ok .ctxFinal := by rfl

theorem test_decode_hash : decode 0b00000000000000000000000000000100 = .ok .hash := by rfl

theorem test_decode_compress : decode 0b00000000000000000000000000000101 = .ok .compress := by rfl

theorem test_decode_ctxExport : decode 0b00000000000000000000000000000110 = .ok .ctxExport := by rfl

theorem test_decode_ctxImport : decode 0b00000000000000000000000000000111 = .ok .ctxImport := by rfl

theorem test_decode_treeBuild : decode 0b00000000000000000000000000010000 = .ok .treeBuild := by rfl

theorem test_decode_treeFree : decode 0b00000000000000000000000000010001 = .ok .treeFree := by rfl

/-- V80, V81, V82 and the edges of R97's reserved ranges. -/
theorem test_decode_reserved :
    decode 0x00000100 = .error .reservedField ∧ decode 0x80000001 = .error .reservedField ∧
      decode 0x00000000 = .error .reservedOpcode ∧ decode 0x00000008 = .error .reservedOpcode ∧
      decode 0x0000000F = .error .reservedOpcode ∧ decode 0x00000012 = .error .reservedOpcode ∧
      decode 0x000000FF = .error .reservedOpcode := ⟨rfl, rfl, rfl, rfl, rfl, rfl, rfl⟩

/-! ## The hash function's vectors -/

/-- V11. -/
theorem test_rotl : rotl 0x80000001 1 = 0x00000003 ∧ rotl 0x12345678 32 = 0x12345678 ∧
    rotl 0x12345678 33 = 0x2468ACF0 ∧ rotl 0x12345678 4 = 0x23456781 := by decide

/-- V11. -/
theorem test_permutations : p0 0x12345678 = 0xD6688234 ∧ p1 0x12345678 = 0x05014549 ∧ p0 0x80000001 = 0x80030301 ∧
    p1 0x80000001 = 0x80C0C001 := by decide

/-- V10. -/
theorem test_roundConst : roundConst 1 = 0xF3988A32 ∧ roundConst 15 = 0x228CBCE6 ∧ roundConst 16 = 0x9D8A7A87 ∧
    roundConst 32 = 0x7A879D8A ∧ roundConst 63 = 0x3D43CEC5 := by decide

/-- V12. -/
theorem test_boolean_functions :
    ff 15 0xF0F0F0F0 0xCCCCCCCC 0xAAAAAAAA = 0x96969696 ∧ ff 16 0xF0F0F0F0 0xCCCCCCCC 0xAAAAAAAA = 0xE8E8E8E8 ∧
      gg 15 0xF0F0F0F0 0xCCCCCCCC 0xAAAAAAAA = 0x96969696 ∧ gg 16 0xF0F0F0F0 0xCCCCCCCC 0xAAAAAAAA = 0xCACACACA := by
  decide

/-- V13's block. -/
def abcBlock : List Byte := [0x61, 0x62, 0x63, 0x80] ++ List.replicate 59 0 ++ [0x18]

/-- V13. -/
theorem test_expansion : (expand abcBlock).getD 16 0 = 0x9092e200 ∧ (expand abcBlock).getD 19 0 = 0x719c70ed ∧
    (expand abcBlock).getD 67 0 = 0xb99c0545 ∧ auxWord (expand abcBlock) 63 = 0x49e260d5 := by decide +kernel

/-- V13r. -/
theorem test_round0 : cfRounds (expand abcBlock) 1 iv =
    ⟨0xb9edc12b, 0x7380166f, 0x29657292, 0x172442d7, 0xb2ad29f4, 0xa96f30bc, 0xc550b189, 0xe38dee4d⟩ := by decide +kernel

/-- V13r. -/
theorem test_round16 : cfRounds (expand abcBlock) 17 iv =
    ⟨0x796afab1, 0x34d1691e, 0xa52ef0f8, 0x92b57849, 0x067550f5, 0x61f99646, 0xc999f74a, 0x2aa0d251⟩ := by decide +kernel

/-- V14. -/
theorem test_cf_zero : cf zeroWords (List.replicate 64 0) =
    ⟨0x2762550f, 0x18134933, 0xba35ce4e, 0x0a757e65, 0x8c0e7205, 0xfe9e4ff6, 0x5ac5c88b, 0xa3649ac2⟩ := by decide +kernel

/-- V1. -/
theorem test_hash_empty : hashWords [] =
    ⟨0x1ab21d83, 0x55cfa17f, 0x8e611948, 0x31e81a8f, 0x22bec8c7, 0x28fefb74, 0x7ed035eb, 0x5082aa2b⟩ := by decide +kernel

/-- V44: 56 bytes, the two-block threshold. -/
theorem test_hash_56 : hashWords (List.replicate 56 0x61) =
    ⟨0xba00ebed, 0xaab54065, 0xa5fd4f9f, 0x56326016, 0x203166bc, 0xee3eed44, 0xea868d59, 0xd67aa3c8⟩ := by decide +kernel

/-- V43: 55 bytes, the last one-block length. -/
theorem test_hash_55 : hashWords (List.replicate 55 0x61) =
    ⟨0x288337ee, 0xf51eec62, 0xe7544d72, 0x70424c8d, 0xbe656254, 0xc9985287, 0x0a73b245, 0x3a6a7fb1⟩ := by decide +kernel

/-! ## One step of each command, through withFetchWord -/

/-- The outcome is a next state with the property. -/
def nextIs (o : Host.Outcome State Fault Refusal) (p : State → Bool) : Bool :=
  match o with
  | .next t => p t
  | .fault _ => false
  | .refused _ => false

/-- Reset with a message in `DIN` and its length in `LEN`. -/
def loaded (msg : List Byte) : State :=
  { State.reset with mem := Memory.writeBytes [] 0x10000 msg, len := BitVec.ofNat 32 msg.length }

/-- Reset with an active context of `n` zero bytes buffered. -/
def active (n : Nat) : State :=
  { State.reset with fsm := .active, ctx := ⟨iv, BitVec.ofNat 64 (8 * n), List.replicate n 0⟩ }

def abc : List Byte := [0x61, 0x62, 0x63]

/-- `hash("abc")`, V2. -/
def abcDigest : Words8 :=
  ⟨0x66C7F0F4, 0x62EEEDD9, 0xD1F2D46B, 0xDC10E4E2, 0x4167C487, 0x5CF2F7A2, 0x297DA02B, 0x8F4BA8E0⟩

/-- V20's first command. -/
theorem test_ctxInit : nextIs (step (State.reset.withFetchWord 32 0x1)) (fun t =>
    decide (t.ctx.v = iv) && t.statusWord == 0x00000012) = true := by decide +kernel

/-- V21: `STATUS` after an update with three bytes. -/
theorem test_ctxUpdate : nextIs (step ({ loaded abc with fsm := .active, ctx := ⟨iv, 0, []⟩ }.withFetchWord 32 0x2))
    (fun t => t.statusWord == 0x00030012 && t.ctx.bitcnt == 24) = true := by decide +kernel

/-- V24: 65 bytes. -/
theorem test_ctxUpdate_65 : nextIs (step ({ loaded ((List.range 65).map (BitVec.ofNat 8)) with
      fsm := .active, ctx := ⟨iv, 0, []⟩ }.withFetchWord 32 0x2)) (fun t =>
    decide (t.ctx = ⟨⟨0x96A60EC7, 0x1E7EC7A7, 0x890A07DC, 0xBEF2AEA6, 0x9CF8936B, 0xD3F6D07F, 0x47597D30, 0x97DB3CCB⟩, 520,
      [0x40]⟩)) = true := by decide +kernel

/-- P1's end: `DIGEST` and `STATUS`. -/
theorem test_ctxFinal : nextIs (step ({ State.reset with fsm := .active, ctx := ⟨iv, 24, abc⟩ }.withFetchWord 32 0x3))
    (fun t => decide (t.digest = abcDigest) && t.statusWord == 0x00000022) = true := by decide +kernel

/-- V26: the wrapped bit count. -/
theorem test_ctxFinal_wrapped : nextIs (step ({ State.reset with
      fsm := .active, ctx := ⟨cf iv (List.replicate 64 0), 0xFFFFFFFFFFFFFE00 + 512, []⟩ }.withFetchWord 32 0x3)) (fun t =>
    decide (t.digest = ⟨0x3E550ACF, 0xEF1AA47B, 0x0B091986, 0x9D2C7CE9, 0x89A6CCF0, 0x5CE767A6, 0xB3EE8A42, 0x2CA085C7⟩)) =
    true := by decide +kernel

/-- V2. -/
theorem test_hash : nextIs (step ((loaded abc).withFetchWord 32 0x4)) (fun t =>
    decide (t.digest = abcDigest) && t.statusWord == 0x00000002) = true := by decide +kernel

/-- V15. -/
theorem test_compress : nextIs (step ({ loaded abcBlock with sio := iv }.withFetchWord 32 0x5)) (fun t =>
    decide (t.sio = abcDigest) && t.errcode == .ok) = true := by decide +kernel

/-- V21's export: `SIO = IV`, `CIO = 24`. -/
theorem test_ctxExport : nextIs (step ({ active 3 with cioHi := 7 }.withFetchWord 32 0x6)) (fun t =>
    decide (t.sio = iv) && t.cioLo == 24 && t.cioHi == 0) = true := by decide +kernel

/-- V84. -/
theorem test_ctxExport_uninit : nextIs (step (State.reset.withFetchWord 32 0x6)) (fun t =>
    t.statusWord == 0x00000206) = true := by decide +kernel

/-- V25's import: `CIO_LO = 0x200`. -/
theorem test_ctxImport : nextIs (step ({ State.reset with sio := abcDigest, cioLo := 0x200 }.withFetchWord 32 0x7)) (fun t =>
    decide (t.ctx = ⟨abcDigest, 512, []⟩) && t.statusWord == 0x00000012) = true := by decide +kernel

/-- V87: `CIO = 24`. -/
theorem test_ctxImport_align : nextIs (step ({ State.reset with cioLo := 24 }.withFetchWord 32 0x7)) (fun t =>
    t.statusWord == 0x00000806) = true := by decide +kernel

/-- P3's leaves. -/
def leaf0 : Words8 := ⟨0x2DAEF60E, 0x7A0B8F5E, 0x024C81CD, 0x2AB3109F, 0x2B4F155C, 0xF83ADEB2, 0xAE5532F7, 0x4A157FDF⟩
def leaf1 : Words8 := ⟨0x799B719A, 0xC031FC89, 0xC6D8925A, 0x487DAD07, 0x308F837B, 0x7AB7BBC7, 0xCEBD3A41, 0x18FD2F38⟩
def leaf2 : Words8 := ⟨0xC1BE8699, 0x4AE8741D, 0x802CF422, 0xCE0BC117, 0x680AD2B1, 0x39857A37, 0x8F9573A6, 0xF9EC35AD⟩

/-- Reset with leaves in `TMEM` and their number in `LEN`. -/
def planted (leaves : List Words8) : State :=
  { State.reset with mem := writeNodes [] 0 leaves, len := BitVec.ofNat 32 leaves.length }

/-- V60, P3: three leaves. -/
theorem test_treeBuild : nextIs (step ((planted [leaf0, leaf1, leaf2]).withFetchWord 32 0x10)) (fun t =>
    t.statusWord == 0x00000042 && t.treeN == 3 && t.treeDepth == 2 &&
      decide (t.treeRoot = ⟨0x42ac1892, 0x5670f906, 0xe3cccda0, 0x7d35b5c7, 0xbd76d143, 0x7204332b, 0x04bc6d0b, 0x3e8aff98⟩) &&
      wordAt t.mem 0x01000080 == some 0x3ACB4F88 && wordAt t.mem 0x010000A0 == some 0x42AC1892) = true := by decide +kernel

/-- V62: the alternative node function gives another value. -/
theorem test_nodeCombine_alternative : combineBy .rawCf leaf0 leaf1 =
    ⟨0xa2176a1b, 0x7859fc03, 0x4eca6db1, 0xc6591dc8, 0x1c4641af, 0x7a5f9890, 0x4f6451eb, 0xefe97ad9⟩ := by decide +kernel

/-- V86 and V88 with the check order of R202. -/
theorem test_treeErrors : nextIs (step (State.reset.withFetchWord 32 0x10)) (fun t => t.statusWord == 0x00000406) = true ∧
    nextIs (step (State.reset.withFetchWord 32 0x11)) (fun t => t.statusWord == 0x00000706) = true := by decide +kernel

/-- P3's end. -/
theorem test_treeFree : nextIs (step ({ State.reset with treeValid := true, treeN := 1, treeRoot := leaf0 }.withFetchWord 32 0x11))
    (fun t => t.statusWord == 0x00000002 && t.treeN == 0 && t.treeRoot.get 0 == 0) = true := by decide +kernel

/-- V80. -/
theorem test_badCmd : nextIs (step (State.reset.withFetchWord 32 0x100)) (fun t => t.statusWord == 0x00000106) = true := by
  decide +kernel

/-- V90: two errors apply. -/
theorem test_checkOrder : nextIs (step ({ State.reset with fsm := .finalized, len := 5000 }.withFetchWord 32 0x2)) (fun t =>
    t.statusWord == 0x00000226) = true := by decide +kernel

/-! ## One bus access each (V91, P1) -/

theorem test_bus_misaligned : nextIs (busAccess (readAccess 0x002) State.reset) (fun t =>
    t.busResp == some ⟨.busErr, some 0⟩) = true := by decide +kernel

theorem test_bus_narrow : nextIs (busAccess ⟨0x00010000, true, .one, 5⟩ State.reset) (fun t =>
    t.busResp == some ⟨.busErr, none⟩ && decide (t.mem = [])) = true := by decide +kernel

theorem test_bus_hole : nextIs (busAccess (readAccess 0x00020000) State.reset) (fun t =>
    t.busResp == some ⟨.busErr, some 0⟩) = true := by decide +kernel

theorem test_bus_locked : nextIs (busAccess (writeAccess 0x01000000 0) { State.reset with treeValid := true }) (fun t =>
    t.busResp == some ⟨.busErr, none⟩ && decide (t.mem = [])) = true := by decide +kernel

theorem test_bus_busy : nextIs (busAccess (writeAccess 0x00C 5) (issue 1 State.reset)) (fun t =>
    t.busResp == some ⟨.busErr, none⟩ && t.len == 0) = true := by decide +kernel

/-- P1, statement 3: the message word's bytes in order. -/
theorem test_bus_write_din : nextIs (busAccess (writeAccess 0x00010000 0x61626300) State.reset) (fun t =>
    Memory.readBytes t.mem 0x10000 4 == some [0x61, 0x62, 0x63, 0x00]) = true := by decide +kernel

theorem test_bus_unwritten : (match busAccess (readAccess 0x00010000) State.reset with
    | .fault .unwrittenRead => true
    | .next _ => false
    | .refused _ => false) = true := by decide +kernel

theorem test_bus_softReset : nextIs (busAccess (writeAccess 0x008 3) { State.reset with irqEn := true, len := 9 }) (fun t =>
    !t.irqEn && t.len == 0) = true := by decide +kernel

/-- V70, `i = 2`: the leaf without a sibling stands in its own proof; V74, the last row. -/
theorem test_inclusion : verifyInclusion
      ⟨0x42ac1892, 0x5670f906, 0xe3cccda0, 0x7d35b5c7, 0xbd76d143, 0x7204332b, 0x04bc6d0b, 0x3e8aff98⟩ leaf2 2 3
      [leaf2, ⟨0x5af38aae, 0x8434563d, 0x5a478062, 0xbff07d7b, 0xcebc7887, 0xc1ac824d, 0x01025513, 0x7618cbe7⟩] = true ∧
    siblingSlots 0 2 (levelSizes maxLevels 3) = [2, 3] := by decide +kernel

/-- D26's index and R195's storage check: a target between two leaves. -/
theorem test_nonInclusion :
    (match proveNonInclusion [leaf0, leaf1, leaf2] 2 ⟨0x80000000, 0, 0, 0, 0, 0, 0, 0⟩ 0 with
      | .ok (proof, idx) => decide (proof = [leaf1, leaf2]) && idx == 1
      | .error _ => false) = true ∧
    (match proveNonInclusion [leaf0, leaf1, leaf2] 1 ⟨0x80000000, 0, 0, 0, 0, 0, 0, 0⟩ 0 with
      | .ok _ => false
      | .error e => e == .bufferTooSmall) = true := by decide +kernel

/-- U2: a storage of two entries, enough for any non-inclusion proof, is smaller than a tree of depth 17. -/
theorem test_nonInclusion_depth :
    (match proveNonInclusionOf { State.reset with treeValid := true, treeN := 100000, treeDepth := 17 } 2 leaf0 0 with
      | .ok _ => false
      | .error e => e == .bufferTooSmall) = true := by decide +kernel

/-! ## Witnesses: states and operands that meet the hypotheses of the statements -/

/-- One held leaf. -/
def held : State :=
  { State.reset with mem := writeNode [] 0 leaf0, treeValid := true, treeN := 1, treeDepth := 0, treeRoot := leaf0 }

/-- A busy engine. -/
def busyWith (w : Word) : State := issue w State.reset

theorem held_coherent : TreeCoherent held := by
  intro _
  have hb := maxLeaves_bounds
  simp only [Config.minCapacity] at hb
  have hn : held.treeN.toNat = 1 := rfl
  have hd : held.treeDepth.toNat = 0 := rfl
  rw [hn, hd]
  refine ⟨by omega, by omega, by decide, fun _ => leaf0, ?_, rfl⟩
  intro l hl i hi
  have : l = 0 := by omega
  subst this
  simp only [levelSize] at hi
  have : i = 0 := by omega
  subst this
  exact readNode_writeNode_same [] 0 leaf0

/-- Two held leaves and their root. -/
def heldTwo : State :=
  { State.reset with
    mem := writeNodes [] 0 [leaf0, leaf1, combine leaf0 leaf1]
    treeValid := true
    treeN := 2
    treeDepth := 1
    treeRoot := combine leaf0 leaf1 }

theorem heldTwo_node (k : Nat) (x : Words8) (h : [leaf0, leaf1, combine leaf0 leaf1][k]? = some x) :
    readNode heldTwo.mem k = some x := by
  obtain ⟨hk, rfl⟩ := List.getElem?_eq_some_iff.mp h
  have := readNode_writeNodes_inside [] 0 [leaf0, leaf1, combine leaf0 leaf1] k hk
  rwa [Nat.zero_add] at this

theorem heldTwo_coherent : TreeCoherent heldTwo := by
  intro _
  have hb := maxLeaves_bounds
  simp only [Config.minCapacity] at hb
  have hn : heldTwo.treeN.toNat = 2 := rfl
  have hd : heldTwo.treeDepth.toNat = 1 := rfl
  rw [hn, hd]
  refine ⟨by omega, by omega, by decide, fun i => if i = 0 then leaf0 else leaf1, ?_, rfl⟩
  intro l hl i hi
  rcases (show l = 0 ∨ l = 1 by omega) with rfl | rfl
  · simp only [levelSize] at hi
    rcases (show i = 0 ∨ i = 1 by omega) with rfl | rfl
    · exact heldTwo_node 0 _ rfl
    · exact heldTwo_node 1 _ rfl
  · simp only [levelSize] at hi
    have : i = 0 := by omega
    subst this
    exact heldTwo_node 2 _ rfl

theorem active_inv (n : Nat) (h : n ≤ 63) : Inv (active n) := by
  refine ⟨rfl, nofun, by simpa [active] using h, nofun, ?_, nofun, fun _ => ⟨rfl, rfl, rfl⟩⟩
  intro _
  simp [active]
  omega

theorem busy_inv : Inv (busyWith 1) :=
  ⟨rfl, nofun, by decide, fun _ => rfl, nofun, fun _ => ⟨rfl, rfl⟩, fun _ => ⟨rfl, rfl, rfl⟩⟩

theorem no_reset_next {s : State} (h : s.script = []) : ¬ ResetNext s := by
  rintro (⟨r, hr⟩ | ⟨a, r, hr, _⟩) <;> simp [h] at hr

theorem no_completion {s : State} (i : Instr) (h : s.engine = .idle) : ¬ CompletesNext i s := by
  rintro ⟨_, op, ho, _⟩
  simp [h] at ho

theorem loaded_read (msg : List Byte) (k : Nat) (h : k < msg.length) :
    Memory.read (loaded msg).mem (0x10000 + k) = some msg[k] := read_writeBytes_inside [] msg 0x10000 k h

theorem witness_ResetsLeaveTheListedValues : State.reset = State.reset ∧ buildInFlight State.reset = false ∧
    buildInFlight (busyWith 1) = false ∧ { busyWith 1 with script := [.powerOn] }.script = [.powerOn] :=
  ⟨rfl, rfl, rfl, rfl⟩

theorem witness_EveryStepKeepsInv : Inv (active 63) ∧ step (active 63) = .next (active 63) ∧ Inv (busyWith 1) ∧
    ∃ t, step (busyWith 1) = .next t := ⟨active_inv 63 (by omega), rfl, busy_inv, _, rfl⟩

theorem witness_EveryStepKeepsTheTreeCoherent : TreeCoherent held ∧ held.treeValid = true ∧ step held = .next held :=
  ⟨held_coherent, rfl, rfl⟩

theorem witness_AHeldTreeIsImmutable : held.treeValid = true ∧ step held = .next held ∧ ¬ ResetNext held ∧
    ¬ CompletesNext .treeFree held ∧ (writeAccess 0x01000000 0).we = true ∧
    0x1000000 ≤ (writeAccess 0x01000000 0).addr.toNat :=
  ⟨rfl, rfl, no_reset_next rfl, no_completion _ rfl, rfl, by decide⟩

theorem witness_DigestHoldsUntilFinalHashOrReset : step held = .next held ∧ ¬ ResetNext held ∧
    ¬ CompletesNext .ctxFinal held ∧ ¬ CompletesNext .hash held :=
  ⟨rfl, no_reset_next rfl, no_completion _ rfl, no_completion _ rfl⟩

theorem witness_HiddenContextIsUnobservable : SameToHost State.reset { State.reset with ctx := ⟨iv, 5, []⟩ } ∧
    SameToHost (active 3) (active 3) := ⟨⟨rfl, rfl, .inl rfl⟩, rfl, rfl, .inr rfl⟩

theorem witness_ReservedWordsAreBadCmd : decode 0 = .error .reservedOpcode ∧ decode 0x100 = .error .reservedField :=
  ⟨rfl, rfl⟩

theorem witness_DecodesToExactlyTheEncodedWord : ∀ i, (0 : Word) ≠ encode i := by
  intro i
  cases i <;> decide

theorem witness_StepRunsTheLatchedCommand : (busyWith 1).engine = .exec 1 ∧ decode 1 = .ok .ctxInit ∧
    (busyWith 1).script = [] ∧ { busyWith 1 with script := [.engineTurn] }.script = [.engineTurn] ∧
    decodeTableWord 32 0x11 = some .treeFree := ⟨rfl, rfl, rfl, rfl, rfl⟩

/-- A latched word that is no command, and an idle engine, each with the engine's turn next. -/
theorem witness_StepRunsTheLatchedCommand_others : (busyWith 0x100).engine = .exec 0x100 ∧
    decode 0x100 = .error .reservedField ∧ (busyWith 0x100).script = [] ∧
    { busyWith 0x100 with script := [.engineTurn] }.script = [.engineTurn] ∧ State.reset.engine = .idle ∧
    State.reset.script = [] ∧ { State.reset with script := [.engineTurn] }.script = [.engineTurn] :=
  ⟨rfl, rfl, rfl, rfl, rfl, rfl, rfl⟩

theorem witness_IssueAndCompletion : State.reset.busy = false ∧ (busyWith 1).busy = true ∧
    (busyWith 1).engine = .exec 1 ∧ ∃ t, execute 1 (busyWith 1) = .next t := ⟨rfl, rfl, rfl, _, rfl⟩

/-- A written message of `n` bytes, beside a full buffer. -/
theorem message_of (n : Nat) (hn : n ≤ 4096) : ∃ s : State, ∃ msg : List Byte, s.fsm = .active ∧ s.ctx.buf.length ≤ 63 ∧
    s.len.toNat ≤ 4096 ∧ msg.length = s.len.toNat ∧ msg.length = n ∧
    ∀ k (h : k < msg.length), Memory.read s.mem (0x10000 + k) = some msg[k] := by
  have hl : (loaded (List.replicate n 7)).len.toNat = n := by
    simp only [loaded, List.length_replicate, BitVec.toNat_ofNat]
    omega
  refine ⟨{ loaded (List.replicate n 7) with fsm := .active, ctx := ⟨iv, 504, List.replicate 63 0⟩ }, List.replicate n 7,
    rfl, by simp, ?_, ?_, List.length_replicate, loaded_read _⟩
  · simp only [hl, hn]
  · simp only [hl, List.length_replicate]

theorem witness_CtxUpdateCompletes : ∃ s : State, ∃ msg : List Byte, s.fsm = .active ∧ s.ctx.buf.length ≤ 63 ∧
    s.len.toNat ≤ 4096 ∧ msg.length = s.len.toNat ∧ msg.length = 4096 ∧
    ∀ k (h : k < msg.length), Memory.read s.mem (0x10000 + k) = some msg[k] := message_of 4096 (by omega)

theorem witness_CtxUpdateCompletes_others : (active 3).fsm = .active ∧ (active 3).len = 0 ∧ State.reset.fsm ≠ .active ∧
    4096 < { active 3 with len := 4097 }.len.toNat := by decide

theorem witness_CtxFinalCompletes : (active 55).fsm = .active ∧ (active 55).ctx.buf.length = 55 ∧
    (active 56).ctx.buf.length = 56 ∧ (active 63).ctx.buf.length ≤ 63 ∧ State.reset.fsm ≠ .active := by decide

theorem witness_HashCompletes : (∃ s : State, ∃ msg : List Byte, s.len.toNat ≤ 4096 ∧ msg.length = s.len.toNat ∧
      msg.length = 4096 ∧ ∀ k (h : k < msg.length), Memory.read s.mem (0x10000 + k) = some msg[k]) ∧
    4096 < { State.reset with len := 4097 }.len.toNat := by
  obtain ⟨s, msg, _, _, h⟩ := message_of 4096 (by omega)
  exact ⟨⟨s, msg, h⟩, by decide⟩

theorem witness_CompressCompletes : abcBlock.length = 64 ∧
    ∀ k (h : k < abcBlock.length), Memory.read (loaded abcBlock).mem (0x10000 + k) = some abcBlock[k] :=
  ⟨by decide, loaded_read _⟩

theorem witness_CtxExportCompletes : (active 3).fsm ≠ .uninit ∧ State.reset.fsm = .uninit := by decide

theorem witness_CtxImportCompletes : (0xFFFFFFFF * 2 ^ 32 + (0xFFFFFE00#32).toNat) % 512 = 0 ∧
    ({ State.reset with cioLo := 24 }.cioHi.toNat * 2 ^ 32 + { State.reset with cioLo := 24 }.cioLo.toNat) % 512 ≠ 0 := by
  decide

/-- At the capacity, whatever it is. -/
theorem witness_TreeBuildCompletes : ∃ s : State, s.treeValid = false ∧ 1 ≤ s.len.toNat ∧
    s.len.toNat = Config.maxLeaves ∧ ∀ i, i < s.len.toNat → readNode s.mem i = some leaf0 := by
  have hb := maxLeaves_bounds
  simp only [Config.minCapacity, Config.maxCapacity] at hb
  have hl : (planted (List.replicate Config.maxLeaves leaf0)).len.toNat = Config.maxLeaves := by
    simp only [planted, List.length_replicate, BitVec.toNat_ofNat]
    omega
  refine ⟨planted (List.replicate Config.maxLeaves leaf0), rfl, by omega, hl, ?_⟩
  intro i hi
  rw [hl] at hi
  have := readNode_writeNodes_inside [] 0 (List.replicate Config.maxLeaves leaf0) i (by simpa using hi)
  rw [Nat.zero_add, List.getElem_replicate] at this
  exact this

theorem witness_TreeBuildErrors : held.treeValid = true ∧ State.reset.treeValid = false ∧ State.reset.len = 0 ∧
    Config.maxLeaves < { State.reset with len := BitVec.ofNat 32 (Config.maxLeaves + 1) }.len.toNat := by
  have hb := maxLeaves_bounds
  simp only [Config.minCapacity, Config.maxCapacity] at hb
  refine ⟨rfl, rfl, rfl, ?_⟩
  simp only [BitVec.toNat_ofNat]
  omega

theorem witness_TreeFreeCompletes : held.treeValid = true ∧ State.reset.treeValid = false := by decide

/-- A build of two leaves that answers, for the statements about every command's next state. -/
theorem witness_exec_treeBuild : nextIs (exec .treeBuild (planted [leaf0, leaf1])) (fun t => t.errcode == .ok) = true := by
  decide +kernel

/-- Another command that answers, without an error and with one. -/
theorem witness_exec_next : (∃ t, exec .ctxInit State.reset = .next t ∧ t.errcode = .ok) ∧
    ∃ t, exec .ctxUpdate State.reset = .next t ∧ t.errcode = .ctxState := ⟨⟨_, rfl, rfl⟩, _, rfl, rfl⟩

theorem witness_CommandsReadOnlyTheirRow :
    ReadsAgree .treeBuild (planted [leaf0, leaf1]) { planted [leaf0, leaf1] with irqEn := true, fsm := .active } ∧
      (planted [leaf0, leaf1]).len.toNat ≤ 2 ∧ 2 < nodeCount (planted [leaf0, leaf1]).len.toNat ∧
      ReadsAgree .ctxInit State.reset (active 3) :=
  ⟨⟨rfl, fun _ _ _ => rfl, rfl⟩, by decide, by decide, trivial⟩

theorem witness_ErrorCompletionsChangeOnlyStatus : reportedError .ctxFinal State.reset = .ctxState ∧
    reportedError .hash { State.reset with len := 4097 } = .lenRange ∧ reportedError .treeBuild State.reset = .treeEmpty ∧
    reportedError .treeBuild held = .treeExists ∧ reportedError .treeFree State.reset = .treeNone ∧
    reportedError .ctxImport { State.reset with cioLo := 511 } = .importAlign := by decide

theorem witness_FinalizedContextIsTerminal : (∃ t, exec .ctxFinal (active 3) = .next t ∧ t.errcode = .ok) ∧
    step { State.reset with fsm := .finalized } = .next { State.reset with fsm := .finalized } ∧
    ¬ ResetNext { State.reset with fsm := .finalized } ∧
    ¬ CompletesNext .ctxInit { State.reset with fsm := .finalized } ∧
    ¬ CompletesNext .ctxImport { State.reset with fsm := .finalized } :=
  ⟨⟨_, rfl, rfl⟩, rfl, no_reset_next rfl, no_completion _ rfl, no_completion _ rfl⟩

theorem witness_RotationIsCyclicLeft : 32 % 32 = 0 := by decide

theorem witness_a_block : (List.replicate 64 (0 : Byte)).length = 64 := by decide

theorem witness_a_full_remainder : (active 63).ctx.buf.length ≤ 63 ∧ (List.replicate 63 (1 : Byte)).length ≤ 63 := by decide

theorem witness_PaddingControllerRefinesFinal : (active 56).ctx.buf.length ≤ 63 ∧ (List.replicate 64 (0 : Byte)).length = 64 ∧
    (List.replicate 64 (0 : Byte)).take (active 56).ctx.buf.length = (active 56).ctx.buf := by decide

theorem witness_ResumptionEquivalence : (List.replicate 128 (3 : Byte)).length % 64 = 0 ∧
    (List.replicate 128 (3 : Byte)).length < 2 ^ 61 := by decide +kernel

theorem witness_LengthExtension : abc.length < 2 ^ 61 := by decide

theorem witness_ExportThenImportResumes : Inv (active 0) ∧ (active 0).fsm = .active ∧ (active 0).buflen = 0 ∧
    Inv (active 63) ∧ (active 63).fsm = .active ∧ (active 63).buflen ≠ 0 :=
  ⟨active_inv 0 (by omega), rfl, rfl, active_inv 63 (by omega), rfl, by decide⟩

theorem witness_BusErrors : BusAccess.rejected (readAccess 0x002) State.reset ∧
    BusAccess.rejected ⟨0x10000, true, .two, 0⟩ State.reset ∧ BusAccess.rejected (readAccess 0x11000) State.reset ∧
    BusAccess.rejected (writeAccess 0x004 2) (busyWith 1) ∧ BusAccess.rejected (writeAccess 0x1000000 0) held ∧
    ¬ BusAccess.rejected (writeAccess 0x008 0) (busyWith 1) ∧ ¬ BusAccess.rejected (readAccess 0x10FFC) State.reset := by
  refine ⟨.inl (by decide), .inr (.inl (by decide)), .inr (.inr (.inl (.inl (by decide)))),
    .inr (.inr (.inr (.inl (by decide)))), .inr (.inr (.inr (.inr (by decide)))), ?_, ?_⟩
  · rintro (h | h | h | h | h)
    · exact absurd h (by decide)
    · exact absurd h (by decide)
    · simp only [InHole, writeAccess, show (8 : Word).toNat = 8 from rfl] at h
      omega
    · exact absurd h (by decide)
    · exact absurd h (by decide)
  · rintro (h | h | h | h | h)
    · exact absurd h (by decide)
    · exact absurd h (by decide)
    · simp only [InHole, readAccess, show (0x10FFC : Word).toNat = 0x10FFC from rfl] at h
      omega
    · exact absurd h (by decide)
    · exact absurd h (by decide)

/-- Idle window reads: of the first word of `TMEM`, written, while a tree is held, and of the last word of `DIN`, unwritten. -/
theorem witness_BusErrors_windows : ¬ BusAccess.rejected (readAccess 0x1000000) held ∧ held.treeValid = true ∧
    held.busy = false ∧ Memory.readBytes held.mem 0x1000000 4 = some [0x2D, 0xAE, 0xF6, 0x0E] ∧
    ¬ BusAccess.rejected (readAccess 0x10FFC) State.reset ∧ State.reset.busy = false ∧
    Memory.read State.reset.mem 0x10FFF = none := by
  refine ⟨?_, rfl, rfl, by decide +kernel, witness_BusErrors.2.2.2.2.2.2, rfl, rfl⟩
  rintro (h | h | h | h | h)
  · exact absurd h (by decide)
  · exact absurd h (by decide)
  · have hcap : 1 ≤ nodeCap := by
      have h := nodeCount_mono maxLeaves_bounds.1
      have h2 : nodeCount Config.minCapacity = 200006 := by decide +kernel
      have h3 : nodeCap = nodeCount Config.maxLeaves := rfl
      omega
    simp only [InHole, readAccess, show (0x1000000 : Word).toNat = 0x1000000 from rfl] at h
    omega
  · exact absurd h (by decide)
  · exact absurd h (by decide)

theorem witness_AccessWhileBusy_ctrl : (busyWith 1).busy = true ∧ (1 : Word).getLsbD 1 = false ∧ (3 : Word).getLsbD 1 = true := by
  decide

theorem witness_AccessWhileBusy : (busyWith 1).busy = true ∧ BusAccess.legal (writeAccess 0x00C 0) ∧
    (writeAccess 0x00C 0).addr ≠ 0x008 ∧ BusAccess.legal (readAccess 0xFFFC) ∧ regAt 0xFFFC = .reserved ∧
    BusAccess.legal (readAccess 0x00C) ∧ regAt 0x00C = .len ∧ BusAccess.legal (readAccess 0x09C) ∧
    regAt 0x09C = .treeRoot 7 ∧ BusAccess.legal (readAccess 0x10000) ∧ ¬ InHole (readAccess 0x10000).addr.toNat := by
  refine ⟨rfl, ⟨rfl, rfl⟩, by decide, ⟨rfl, rfl⟩, by decide, ⟨rfl, rfl⟩, by decide, ⟨rfl, rfl⟩, by decide, ⟨rfl, rfl⟩, ?_⟩
  simp only [InHole, readAccess, show (0x10000 : Word).toNat = 0x10000 from rfl]
  omega

/-- The last word of `DIN` and the first of `TMEM`. -/
theorem witness_WindowWordsAreBigEndian : ¬ BusAccess.rejected (writeAccess 0x10FFC 5) State.reset ∧
    ¬ BusAccess.rejected (writeAccess 0x1000000 5) State.reset ∧ State.reset.busy = false ∧
    0x10000 ≤ (0x10FFC : Word).toNat := by
  have hcap : 200006 ≤ nodeCap := by
    have h := nodeCount_mono maxLeaves_bounds.1
    have h2 : nodeCount Config.minCapacity = 200006 := by decide +kernel
    have h3 : nodeCap = nodeCount Config.maxLeaves := rfl
    omega
  refine ⟨?_, ?_, rfl, by decide⟩
  · rintro (h | h | h | h | h)
    · exact absurd h (by decide)
    · exact absurd h (by decide)
    · simp only [InHole, writeAccess, show (0x10FFC : Word).toNat = 0x10FFC from rfl] at h
      omega
    · exact absurd h (by decide)
    · exact absurd h (by decide)
  · rintro (h | h | h | h | h)
    · exact absurd h (by decide)
    · exact absurd h (by decide)
    · simp only [InHole, writeAccess, show (0x1000000 : Word).toNat = 0x1000000 from rfl] at h
      omega
    · exact absurd h (by decide)
    · exact absurd h (by decide)

theorem witness_ReadsHaveNoSideEffect : (readAccess 0x004).we = false ∧ State.reset.busy = false ∧
    ∃ t, busAccess (readAccess 0x004) State.reset = .next t := by
  refine ⟨rfl, rfl, _, busAccess_registerRead (by decide) rfl rfl (by decide)⟩

theorem witness_RegisterMapAndIdleReads : State.reset.busy = false ∧ 0x048 % 4 = 0 ∧ 0x048 ≤ 0x05C ∧ 0x05C % 4 = 0 ∧
    0x0A0 % 4 = 0 ∧ 0x0A0 ≤ 0xFFFC ∧ 0xFFFC % 4 = 0 := by decide

theorem witness_RegisterWrites : State.reset.busy = false ∧ (1 : Word).getLsbD 1 = false ∧ 0x010 % 4 = 0 ∧ 0x01C % 4 = 0 ∧
    0x048 % 4 = 0 ∧ 0xFFFC % 4 = 0 := by decide

theorem witness_StatusFields : Inv (active 63) ∧ Inv (busyWith 1) ∧ (busyWith 1).busy = true :=
  ⟨active_inv 63 (by omega), busy_inv, rfl⟩

theorem witness_WritingStatusClearsDone : State.reset.busy = false := rfl

theorem witness_InterruptFollowsDone : (∃ t, execute 0 State.reset = .next t) ∧ State.reset.busy = false ∧
    (2 : Word).getLsbD 1 = true ∧ (0 : Word).getLsbD 1 = false ∧ (0 : Word).getLsbD 0 = false :=
  ⟨⟨_, rfl⟩, rfl, by decide, by decide, by decide⟩

theorem witness_SoftResetByCtrlWrite : (3 : Word).getLsbD 1 = true ∧
    { busyWith 1 with script := [.access (writeAccess 0x008 3)] }.script = [.access (writeAccess 0x008 3)] := ⟨by decide, rfl⟩

theorem witness_AbandonedCommandHasNoEffect : (busyWith 0x10).busy = true ∧ (busyWith 2).engine ≠ .exec (encode .treeBuild) := by
  decide

theorem witness_EveryCommandCompletes : ∃ s : State, s.busy = true ∧
    s.script = [.access (readAccess 0x004), .engineTurn] ∧ ∀ e ∈ s.script, ¬ Event.resets e := by
  refine ⟨{ busyWith 1 with script := [.access (readAccess 0x004), .engineTurn] }, rfl, rfl, ?_⟩
  intro e he
  simp only [List.mem_cons, List.not_mem_nil, or_false] at he
  rcases he with rfl | rfl
  · rintro ⟨h, _⟩
    exact absurd h (by decide)
  · exact id

theorem witness_LoadMsgLoadsTheMessage : ∃ s : State, s.busy = false ∧
    s.script = pseudoEvents (.loadMsg (List.replicate 4096 0)) := ⟨loadProgram _, rfl, rfl⟩

theorem witness_IssueRunsTheCommand : ∃ s t : State, s.busy = false ∧ s.script = pseudoEvents (.issue .ctxInit 2) ∧
    exec .ctxInit { s with engine := .exec (encode .ctxInit), done := false, errcode := .ok } = .next t :=
  ⟨loadProgram (pseudoEvents (.issue .ctxInit 2)), _, rfl, rfl, rfl⟩

theorem witness_NodeCount : 1 ≤ 2 ^ 32 ∧ 1 < 2 ∧ 2 ≤ 2 ^ 32 := by decide

theorem witness_InclusionProofsVerify : TreeCoherent held ∧ held.treeValid = true ∧ 0 < held.treeN.toNat ∧
    held.treeDepth.toNat ≤ 0 ∧ readNode held.mem 0 = some leaf0 :=
  ⟨held_coherent, rfl, by decide, by decide, readNode_writeNode_same [] 0 leaf0⟩

/-- Two held leaves, so that a proof has an entry and a storage can be too small for it. -/
theorem witness_InclusionProofsVerify_two : TreeCoherent heldTwo ∧ heldTwo.treeValid = true ∧ 1 < heldTwo.treeN.toNat ∧
    heldTwo.treeDepth.toNat ≤ 1 ∧ 0 < heldTwo.treeDepth.toNat ∧ readNode heldTwo.mem 1 = some leaf1 :=
  ⟨heldTwo_coherent, rfl, by decide, by decide, by decide,
    heldTwo_node 1 leaf1 rfl⟩

/-- Three leaves in rising order of their first words, and targets below, between, among and above them. -/
theorem witness_NonInclusionProofs :
    sortedLeaves [leaf0, leaf1, leaf2] = true ∧ zeroWords ∉ [leaf0, leaf1, leaf2] ∧
      insertionPoint [leaf0, leaf1, leaf2] zeroWords = 0 ∧
      ⟨0x80000000, 0, 0, 0, 0, 0, 0, 0⟩ ∉ [leaf0, leaf1, leaf2] ∧
      insertionPoint [leaf0, leaf1, leaf2] ⟨0x80000000, 0, 0, 0, 0, 0, 0, 0⟩ = 2 ∧
      ⟨0xFFFFFFFF, 0, 0, 0, 0, 0, 0, 0⟩ ∉ [leaf0, leaf1, leaf2] ∧
      insertionPoint [leaf0, leaf1, leaf2] ⟨0xFFFFFFFF, 0, 0, 0, 0, 0, 0, 0⟩ = 3 ∧
      leaf1 ∈ [leaf0, leaf1, leaf2] ∧ sortedLeaves [leaf2, leaf1] = false := by decide +kernel

/-- A held tree beside the list of its leaves, with a storage that reaches its depth and one that does not. -/
theorem witness_NonInclusionProofs_tree : heldTwo.treeValid = true ∧ [leaf0, leaf1].length = heldTwo.treeN.toNat ∧
    heldTwo.treeDepth.toNat ≤ 1 ∧ 0 < heldTwo.treeDepth.toNat ∧
    ∀ k (h : k < [leaf0, leaf1].length), readNode heldTwo.mem k = some [leaf0, leaf1][k] := by
  refine ⟨rfl, rfl, by decide, by decide, fun k h => heldTwo_node k _ ?_⟩
  simp only [List.length_cons, List.length_nil] at h
  rcases (show k = 0 ∨ k = 1 by omega) with rfl | rfl <;> rfl

end Sys2Proof.Tests
end

section
/-! The statements of 00_scope.md: cyclic rotation (R12), the parameters and the aperture map (R10, R16). -/

namespace Sys2Proof.Machine

/-! ## Rotation -/

theorem rotl_eq_rotateLeft (x : Word) (n : Nat) : rotl x n = x.rotateLeft n := rfl

/-- The bits shifted left and the bits that wrap around do not overlap. -/
theorem shiftLeft_and_wrapped_eq_zero (x : Word) {k : Nat} (hk : k < 32) : x <<< k &&& x >>> (32 - k) = 0 := by
  ext i hi
  rcases Nat.lt_or_ge i k with h | h
  · simp [h]
  · simp [BitVec.getLsbD_of_ge x (32 - k + i) (by omega)]

/-- R12 as a number: with no overlap, OR is a sum. -/
theorem rotl_toNat (x : Word) (n : Nat) :
    (rotl x n).toNat = (x.toNat * 2 ^ (n % 32) + x.toNat / 2 ^ (32 - n % 32)) % 2 ^ 32 := by
  have hk : n % 32 < 32 := Nat.mod_lt _ (by decide)
  rw [rotl, ← BitVec.add_eq_or_of_and_eq_zero _ _ (shiftLeft_and_wrapped_eq_zero x hk), BitVec.toNat_add,
    BitVec.toNat_shiftLeft, BitVec.toNat_ushiftRight, Nat.shiftLeft_eq, Nat.shiftRight_eq_div_pow, Nat.mod_add_mod]

theorem rotl_of_mod_eq_zero (x : Word) {n : Nat} (h : n % 32 = 0) : rotl x n = x := by
  apply BitVec.eq_of_toNat_eq
  have hx := x.isLt
  rw [rotl_toNat, h]
  omega

/-! ## The parameters and the aperture map -/

/-- The largest tree the spec admits fits the part of the aperture from `tmemBase` (R16). -/
theorem tmem_fits : 32 * nodeCap ≤ 0x0F000000 := by
  have hmax : nodeCount Config.maxCapacity = 7800008 := by decide
  have hcap := nodeCap_le
  omega

theorem regRead_capMaxLeaves_toNat (s : State) : (regRead .capMaxLeaves s).toNat = Config.maxLeaves :=
  Nat.mod_eq_of_lt maxLeaves_lt

theorem regRead_capDinBytes_toNat (s : State) : (regRead .capDinBytes s).toNat = 4096 := rfl

theorem regionAt_registers_iff (off : Nat) : regionAt off = .registers ↔ off < 0x10000 := by
  refine ⟨fun h => ?_, regionAt_of_registers⟩
  rw [regionAt_eq] at h
  split_ifs at h
  assumption

theorem regionAt_din_iff (off : Nat) : regionAt off = .din ↔ 0x10000 ≤ off ∧ off < 0x11000 :=
  ⟨regionAt_din, fun ⟨h1, h2⟩ => regionAt_of_din h1 h2⟩

theorem regionAt_tmem_iff (off : Nat) :
    regionAt off = .tmem ↔ 0x1000000 ≤ off ∧ off < 0x1000000 + 32 * nodeCap :=
  ⟨regionAt_tmem_bounds, fun ⟨h1, h2⟩ => regionAt_of_tmem h1 h2⟩

/-- A hole is what the three other regions leave. -/
theorem regionAt_hole_iff (off : Nat) : regionAt off = .hole ↔ InHole off := by
  rw [regionAt_eq, InHole]
  split_ifs
  · exact iff_of_false (by decide) (by omega)
  · exact iff_of_false (by decide) (by omega)
  · exact iff_of_true rfl (by omega)
  · exact iff_of_false (by decide) (by omega)
  · exact iff_of_true rfl (by omega)

end Sys2Proof.Machine

open Sys2Proof.Machine

/-- Settles O31: the two shifts do not overlap, so their OR is the sum R12 writes. -/
theorem rotationIsCyclicLeft : Obligations.RotationIsCyclicLeft := fun x n =>
  ⟨rotl_toNat x n, rotl_of_mod_eq_zero x, rotl_eq_rotateLeft x n⟩

/-- Settles O56: the bounds of `MAX_LEAVES` bound `TMEM` through the node count of the largest capacity, and each region is
its range. -/
theorem apertureMap : Obligations.ApertureMap :=
  ⟨maxLeaves_bounds.1, maxLeaves_bounds.2, tmem_fits,
    fun s => ⟨regRead_capMaxLeaves_toNat s, regRead_capDinBytes_toNat s⟩,
    fun off => ⟨regionAt_registers_iff off, regionAt_din_iff off, regionAt_tmem_iff off, regionAt_hole_iff off⟩⟩

end

section
/-! What a command and a turn of the engine leave unchanged (30_encoding.md R93), as rules for the proofs below. -/

namespace Sys2Proof.Machine

/-! ## Commands -/

/-- An error completion writes `STATUS` only (60_exceptions.md R203). -/
theorem onlyWrites_finish (f : Footprint) (c : ErrCode) (s : State) : OnlyWrites f s (finish c s) := by
  simp [OnlyWrites]

/-- Every command writes only its row of the table (30_encoding.md R93). -/
theorem exec_onlyWrites {i : Instr} {s t : State} (h : exec i s = .next t) : OnlyWrites (writesOf i) s t := by
  cases i with
  | ctxInit =>
    obtain rfl := execCtxInit_next h
    simp [OnlyWrites, writesOf]
  | ctxUpdate =>
    obtain ⟨-, rfl⟩ | ⟨-, -, rfl⟩ | ⟨m, -, -, -, rfl⟩ := execCtxUpdate_next h
    · exact onlyWrites_finish _ _ s
    · exact onlyWrites_finish _ _ s
    · simp [OnlyWrites, writesOf]
  | ctxFinal =>
    obtain ⟨-, rfl⟩ | ⟨-, rfl⟩ := execCtxFinal_next h
    · exact onlyWrites_finish _ _ s
    · simp [OnlyWrites, writesOf]
  | hash =>
    obtain ⟨-, rfl⟩ | ⟨m, -, -, rfl⟩ := execHash_next h
    · exact onlyWrites_finish _ _ s
    · simp [OnlyWrites, writesOf]
  | compress =>
    obtain ⟨b, -, rfl⟩ := execCompress_next h
    simp [OnlyWrites, writesOf]
  | ctxExport =>
    obtain ⟨-, rfl⟩ | ⟨-, rfl⟩ := execCtxExport_next h
    · exact onlyWrites_finish _ _ s
    · simp [OnlyWrites, writesOf]
  | ctxImport =>
    obtain ⟨-, rfl⟩ | ⟨-, rfl⟩ := execCtxImport_next h
    · exact onlyWrites_finish _ _ s
    · simp [OnlyWrites, writesOf]
  | treeBuild =>
    obtain ⟨-, rfl⟩ | ⟨-, -, rfl⟩ | ⟨-, -, -, rfl⟩ | ⟨leaves, -, -, -, -, rfl⟩ := execTreeBuild_next h
    · exact onlyWrites_finish _ _ s
    · exact onlyWrites_finish _ _ s
    · exact onlyWrites_finish _ _ s
    · simp [OnlyWrites, writesOf]
  | treeFree =>
    obtain ⟨-, rfl⟩ | ⟨-, rfl⟩ := execTreeFree_next h
    · simp [OnlyWrites, writesOf]
    · exact onlyWrites_finish _ _ s

theorem exec_digest_eq {i : Instr} {s t : State} (h : exec i s = .next t) (hi : (writesOf i).digest = false) :
    t.digest = s.digest := by
  obtain ⟨-, -, -, -, hdigest, -⟩ := exec_onlyWrites h
  exact hdigest hi

theorem exec_fsm_eq {i : Instr} {s t : State} (h : exec i s = .next t) (hi : (writesOf i).fsm = false) :
    t.fsm = s.fsm := by
  obtain ⟨-, -, -, hfsm, -⟩ := exec_onlyWrites h
  exact hfsm hi

theorem exec_tree_eq {i : Instr} {s t : State} (h : exec i s = .next t) (hi : (writesOf i).tree = false) :
    t.treeValid = s.treeValid ∧ t.treeN = s.treeN ∧ t.treeDepth = s.treeDepth ∧ t.treeRoot = s.treeRoot := by
  obtain ⟨-, -, -, -, -, -, -, htree, -⟩ := exec_onlyWrites h
  exact htree hi

theorem exec_mem_eq {i : Instr} {s t : State} (h : exec i s = .next t) (hi : (writesOf i).tmem = false) :
    t.mem = s.mem := by
  obtain ⟨-, -, -, -, -, -, -, -, hmem, -⟩ := exec_onlyWrites h
  exact hmem hi

/-! ## One turn -/

theorem step_of_empty {s : State} (h : s.script = []) : step s = engineStep s := by
  simp only [step, h]

theorem step_of_cons {s : State} {e : Event} {rest : List Event} (h : s.script = e :: rest) :
    step s = perform e { s with script := rest } := by
  simp only [step, h]

theorem engineStep_of_idle {s : State} (h : s.engine = .idle) : engineStep s = .next s := by
  simp only [engineStep, h]

theorem engineStep_of_exec {s : State} {w : Word} (h : s.engine = .exec w) : engineStep s = execute w s := by
  simp only [engineStep, h]

theorem execute_of_command {w : Word} {i : Instr} (h : decode w = .ok i) (s : State) : execute w s = exec i s := by
  simp only [execute, h]

theorem execute_of_badCmd {w : Word} {e : BadCmd} (h : decode w = .error e) (s : State) :
    execute w s = .next (finish .badCmd s) := by
  simp only [execute, h, completeError]

theorem decodeTableWord_eq_some {nbits w : Nat} {i : Instr} (h : decodeTableWord nbits w = some i) :
    decode (tableWord nbits w) = .ok i := by
  unfold decodeTableWord at h
  split at h
  · cases h; assumption
  · cases h

end Sys2Proof.Machine

open Sys2Proof.Machine

/-- Settles O11: each clause is the engine's turn on the state whose script has lost that turn. -/
theorem stepRunsTheLatchedCommand : Obligations.StepRunsTheLatchedCommand := by
  refine ⟨fun s w i he hd => ⟨fun hs => ?_, fun rest hs => ?_⟩, fun s w e he hd => ⟨fun hs => ?_, fun rest hs => ?_⟩,
    fun s he => ⟨fun hs => ?_, fun rest hs => ?_⟩, fun s w i hd => ?_⟩
  · rw [step_of_empty hs, engineStep_of_exec he, execute_of_command hd]
  · rw [step_of_cons hs]
    exact (engineStep_of_exec (s := { s with script := rest }) he).trans (execute_of_command hd _)
  · rw [step_of_empty hs, engineStep_of_exec he, execute_of_badCmd hd]
    rfl
  · rw [step_of_cons hs]
    exact (engineStep_of_exec (s := { s with script := rest }) he).trans (execute_of_badCmd hd _)
  · rw [step_of_empty hs, engineStep_of_idle he]
  · rw [step_of_cons hs]
    exact engineStep_of_idle (s := { s with script := rest }) he
  · exact execute_of_command (decodeTableWord_eq_some hd) _

/-- Settles O29: six commands do not write `FSM` at all, the other three are read off their cases. -/
theorem lifecycleTable : Obligations.LifecycleTable := by
  intro i s t h
  cases i with
  | ctxInit => obtain rfl := execCtxInit_next h; rfl
  | ctxFinal =>
    obtain ⟨hf, rfl⟩ | ⟨hf, rfl⟩ := execCtxFinal_next h
    · simp [hf]
    · simp [hf]
  | ctxImport =>
    rw [← cio_toNat]
    obtain ⟨hc, rfl⟩ | ⟨hc, rfl⟩ := execCtxImport_next h
    · simp [hc]
    · simp [hc]
  | ctxUpdate | hash | compress | ctxExport | treeBuild | treeFree => exact exec_fsm_eq h rfl

end

section
/-! What every step keeps: the machine invariant (10_state.md R25, R32, R37, R38, R48, R49; 20_memory.md R63) and the held tree
(42_merkle_tree.md R174 to R183). -/

namespace Sys2Proof.Machine

/-! ## The invariant: one rule per state operation -/

theorem inv_finish {s : State} (h : Inv s) (c : ErrCode) : Inv (finish c s) where
  memCanonical := h.memCanonical
  memInWindows := h.memInWindows
  bufShort := h.bufShort
  bufOnlyActive := h.bufOnlyActive
  countMatches := h.countMatches
  busyQuiet := nofun
  noTreeZero := h.noTreeZero

theorem inv_issue {s : State} (h : Inv s) (w : Word) : Inv (issue w s) where
  memCanonical := h.memCanonical
  memInWindows := h.memInWindows
  bufShort := h.bufShort
  bufOnlyActive := h.bufOnlyActive
  countMatches := h.countMatches
  busyQuiet := fun _ => ⟨rfl, rfl⟩
  noTreeZero := h.noTreeZero

/-- The fields that the invariant does not speak of can be anything. -/
theorem inv_setOthers {s : State} (h : Inv s) {q : Bool} {l lo hi : Word} {sio digest : Words8}
    {r : Option BusResponse} {script : List Event} {n : Nat} :
    Inv { s with irqEn := q, len := l, sio := sio, cioLo := lo, cioHi := hi, digest := digest, busResp := r, script := script,
                 draws := n } where
  memCanonical := h.memCanonical
  memInWindows := h.memInWindows
  bufShort := h.bufShort
  bufOnlyActive := h.bufOnlyActive
  countMatches := h.countMatches
  busyQuiet := h.busyQuiet
  noTreeZero := h.noTreeZero

theorem inv_setDone {s : State} (h : Inv s) {d : Bool} (hd : s.busy = true → d = false) : Inv { s with done := d } where
  memCanonical := h.memCanonical
  memInWindows := h.memInWindows
  bufShort := h.bufShort
  bufOnlyActive := h.bufOnlyActive
  countMatches := h.countMatches
  busyQuiet := fun hb => ⟨hd hb, (h.busyQuiet hb).2⟩
  noTreeZero := h.noTreeZero

/-- A context that buffers fewer than 64 bytes, and only while active, with the bit count of R32. -/
theorem inv_setContext {s : State} (h : Inv s) {c : Hasher} {f : CtxFsm} (hshort : c.buf.length ≤ 63)
    (honly : f ≠ .active → c.buf = []) (hcount : f = .active → c.bitcnt.toNat % 512 = 8 * c.buf.length) :
    Inv { s with ctx := c, fsm := f } where
  memCanonical := h.memCanonical
  memInWindows := h.memInWindows
  bufShort := hshort
  bufOnlyActive := honly
  countMatches := hcount
  busyQuiet := h.busyQuiet
  noTreeZero := h.noTreeZero

theorem inv_setMem {s : State} (h : Inv s) {m : Memory} (hwf : Memory.wf m = true)
    (hwin : ∀ c ∈ m, regionAt c.1 = .din ∨ regionAt c.1 = .tmem) : Inv { s with mem := m } where
  memCanonical := hwf
  memInWindows := hwin
  bufShort := h.bufShort
  bufOnlyActive := h.bufOnlyActive
  countMatches := h.countMatches
  busyQuiet := h.busyQuiet
  noTreeZero := h.noTreeZero

theorem inv_setTree {s : State} (h : Inv s) {v : Bool} {n d : Word} {r : Words8}
    (hzero : v = false → n = 0 ∧ d = 0 ∧ r = zeroWords) :
    Inv { s with treeValid := v, treeN := n, treeDepth := d, treeRoot := r } where
  memCanonical := h.memCanonical
  memInWindows := h.memInWindows
  bufShort := h.bufShort
  bufOnlyActive := h.bufOnlyActive
  countMatches := h.countMatches
  busyQuiet := h.busyQuiet
  noTreeZero := hzero

/-! ## Resets -/

theorem wf_memAfterSoftReset {s : State} (h : Memory.wf s.mem = true) : Memory.wf (memAfterSoftReset s) = true := by
  unfold memAfterSoftReset
  split
  · exact wf_havocFrom _ _ _ h
  · exact h

/-- A soft reset writes no new byte (70_reset_and_hazards.md R232). -/
theorem mem_memAfterSoftReset {s : State} {c : Host.Cell} (h : c ∈ memAfterSoftReset s) : ∃ d ∈ s.mem, d.1 = c.1 := by
  unfold memAfterSoftReset at h
  split at h
  · exact mem_havocFrom h
  · exact ⟨c, h, rfl⟩

theorem inv_resetRegisters {s : State} (h : Inv s) : Inv (resetRegisters s) where
  memCanonical := h.memCanonical
  memInWindows := h.memInWindows
  bufShort := Nat.zero_le _
  bufOnlyActive := fun _ => rfl
  countMatches := nofun
  busyQuiet := nofun
  noTreeZero := fun _ => ⟨rfl, rfl, rfl⟩

theorem inv_softReset {s : State} (h : Inv s) : Inv (softReset s) :=
  inv_setMem (inv_resetRegisters h) (wf_memAfterSoftReset h.memCanonical) fun c hc => by
    obtain ⟨d, hd, hdc⟩ := mem_memAfterSoftReset hc
    exact hdc ▸ h.memInWindows d hd

theorem inv_powerOnReset {s : State} (h : Inv s) : Inv (powerOnReset s) :=
  have hempty : Inv { resetRegisters s with mem := [] } := inv_setMem (inv_resetRegisters h) rfl nofun
  inv_setOthers hempty

/-! ## Host accesses -/

theorem inv_regWrite {s : State} (h : Inv s) (r : Reg) (v : Word) : Inv (regWrite r v s) := by
  obtain ⟨-, he⟩ | ⟨-, he⟩ | ⟨-, -, he⟩ | ⟨-, -, he⟩ | ⟨l, sio, lo, hi, he⟩ := regWrite_cases r v s
  · exact he ▸ inv_issue h v
  · rw [he]
    exact inv_setDone h fun hb => by simp [(h.busyQuiet hb).1]
  · exact he ▸ inv_softReset h
  · rw [he]
    exact inv_setOthers h
  · rw [he]
    exact inv_setOthers h

/-- The word stored at an aligned window offset stays in its window (20_memory.md R63). -/
theorem inv_windowWrite {s : State} (h : Inv s) {off : Nat} (ha : off % 4 = 0)
    (hr : regionAt off = .din ∨ regionAt off = .tmem) (v : Word) :
    Inv { s with mem := Memory.writeBytes s.mem off (bytes32 v) } :=
  inv_setMem h (wf_writeBytes _ _ _ h.memCanonical) fun c hc => by
    obtain ⟨hlo, hhi⟩ | hc := mem_writeBytes hc
    · rw [bytes32_length] at hhi
      have hword := regionAt_word (k := c.1 - off) ha (by omega) hr
      rw [Nat.add_sub_cancel' hlo] at hword
      exact hword ▸ hr
    · exact h.memInWindows c hc

theorem inv_hostWrite {s : State} (h : Inv s) {off : Nat} (ha : off % 4 = 0) (v : Word) : Inv (hostWrite off v s) := by
  obtain ⟨-, he⟩ | ⟨hr, he⟩ | ⟨-, he⟩ := hostWrite_cases off v s
  · exact he ▸ inv_regWrite h _ v
  · exact he ▸ inv_windowWrite h ha hr v
  · rwa [he]

theorem inv_busAccess {s t : State} {a : BusAccess} (h : Inv s) (hb : busAccess a s = .next t) : Inv t := by
  obtain rfl | ⟨-, rfl | ⟨v, rfl⟩⟩ | ⟨hc, -, rfl⟩ := busAccess_next hb
  · exact inv_setOthers h
  · exact inv_setOthers h
  · exact inv_setOthers h
  · obtain ⟨ha, -⟩ := busCheck_none hc
    exact inv_setOthers (inv_hostWrite h ha a.wdata)

/-! ## Commands -/

/-- Absorbing keeps R32's relation of the bit count to the buffer: both count the input, and 512 divides `2^64`. -/
theorem absorb_countMatches {c : Hasher} (m : List Byte) (hb : c.buf.length ≤ 63)
    (hc : c.bitcnt.toNat % 512 = 8 * c.buf.length) :
    (absorb c m).bitcnt.toNat % 512 = 8 * (absorb c m).buf.length := by
  rw [absorb_bitcnt, absorb_buf_length c m hb, BitVec.toNat_add, BitVec.toNat_ofNat]
  omega

theorem inv_execCtxUpdate {s t : State} (h : Inv s) (he : execCtxUpdate s = .next t) : Inv t := by
  obtain ⟨-, rfl⟩ | ⟨-, -, rfl⟩ | ⟨m, hf, -, -, rfl⟩ := execCtxUpdate_next he
  · exact inv_finish h _
  · exact inv_finish h _
  · refine inv_finish (inv_setContext h (f := s.fsm) ?_ (fun hne => absurd hf hne) fun _ => ?_) _
    · rw [absorb_buf_length _ _ h.bufShort]; omega
    · exact absorb_countMatches m h.bufShort (h.countMatches hf)

theorem inv_execCtxImport {s t : State} (h : Inv s) (he : execCtxImport s = .next t) : Inv t := by
  obtain ⟨-, rfl⟩ | ⟨hc, rfl⟩ := execCtxImport_next he
  · exact inv_finish h _
  · exact inv_finish (inv_setContext h (Nat.zero_le _) (fun _ => rfl) fun _ => hc) _

/-- The leaves and the nodes built above them fit the `NODE_CAP` slots (42_merkle_tree.md R176). -/
theorem built_slots_le {m : Memory} {n : Nat} {leaves : List Words8} (h1 : 1 ≤ n) (h2 : n ≤ Config.maxLeaves)
    (hr : readNodes m 0 n = some leaves) : n + (levelsAbove maxLevels leaves).flatten.length ≤ nodeCap := by
  obtain ⟨hlen, -⟩ := (readNodes_eq_some _ _ _ _).mp hr
  have hlt := maxLeaves_lt
  have hcount := leaves_append_above_length leaves (by omega) (by omega)
  rw [List.length_append, hlen] at hcount
  exact hcount ▸ nodeCount_mono h2

theorem inv_builtNodes {s : State} {leaves : List Words8} (h : Inv s) (h1 : 1 ≤ s.len.toNat)
    (h2 : s.len.toNat ≤ Config.maxLeaves) (hr : readNodes s.mem 0 s.len.toNat = some leaves) :
    Inv { s with mem := writeNodes s.mem s.len.toNat (levelsAbove maxLevels leaves).flatten } :=
  inv_setMem h (wf_writeNodes _ _ _ h.memCanonical) fun c hc => by
    obtain ⟨hlo, hhi⟩ | hc := mem_writeNodes hc
    · have hcap := built_slots_le h1 h2 hr
      exact .inr (regionAt_tmem (Nat.le_trans (Nat.le_add_right ..) hlo) (by simp only [slotAddr] at *; omega))
    · exact h.memInWindows c hc

theorem inv_execTreeBuild {s t : State} (h : Inv s) (he : execTreeBuild s = .next t) : Inv t := by
  obtain ⟨-, rfl⟩ | ⟨-, -, rfl⟩ | ⟨-, -, -, rfl⟩ | ⟨leaves, -, h1, h2, hr, rfl⟩ := execTreeBuild_next he
  · exact inv_finish h _
  · exact inv_finish h _
  · exact inv_finish h _
  · refine inv_finish ?_ _
    exact inv_setTree (inv_builtNodes h h1 h2 hr) fun hv => absurd hv.symm Bool.false_ne_true

theorem inv_exec {i : Instr} {s t : State} (h : Inv s) (he : exec i s = .next t) : Inv t := by
  cases i with
  | ctxInit =>
    obtain rfl := execCtxInit_next he
    exact inv_finish (inv_setContext h (Nat.zero_le _) (fun _ => rfl) fun _ => rfl) _
  | ctxUpdate => exact inv_execCtxUpdate h he
  | ctxFinal =>
    obtain ⟨-, rfl⟩ | ⟨-, rfl⟩ := execCtxFinal_next he
    · exact inv_finish h _
    · have hctx := inv_setContext h (c := { s.ctx with v := padAndCompress s.ctx, buf := [] }) (f := .finalized)
        (Nat.zero_le _) (fun _ => rfl) nofun
      refine inv_finish ?_ _
      exact inv_setOthers hctx
  | hash =>
    obtain ⟨-, rfl⟩ | ⟨m, -, -, rfl⟩ := execHash_next he
    · exact inv_finish h _
    · refine inv_finish ?_ _
      exact inv_setOthers h
  | compress =>
    obtain ⟨b, -, rfl⟩ := execCompress_next he
    refine inv_finish ?_ _
    exact inv_setOthers h
  | ctxExport =>
    obtain ⟨-, rfl⟩ | ⟨-, rfl⟩ := execCtxExport_next he
    · exact inv_finish h _
    · refine inv_finish ?_ _
      exact inv_setOthers h
  | ctxImport => exact inv_execCtxImport h he
  | treeBuild => exact inv_execTreeBuild h he
  | treeFree =>
    obtain ⟨-, rfl⟩ | ⟨-, rfl⟩ := execTreeFree_next he
    · exact inv_finish (inv_setTree h fun _ => ⟨rfl, rfl, rfl⟩) _
    · exact inv_finish h _

/-! ## Steps -/

theorem inv_setScript {s : State} (h : Inv s) (script : List Event) : Inv { s with script := script } :=
  inv_setOthers h

theorem inv_engineStep {s t : State} (h : Inv s) (he : engineStep s = .next t) : Inv t := by
  obtain ⟨-, rfl⟩ | ⟨op, i, -, -, hx⟩ | ⟨op, e, -, -, rfl⟩ := engineStep_next he
  · exact h
  · exact inv_exec h hx
  · exact inv_finish h _

theorem inv_step {s t : State} (h : Inv s) (hs : step s = .next t) : Inv t := by
  obtain ⟨-, he⟩ | ⟨rest, -, he⟩ | ⟨a, rest, -, hb⟩ | ⟨rest, -, rfl⟩ := step_next hs
  · exact inv_engineStep h he
  · exact inv_engineStep (inv_setScript h rest) he
  · exact inv_busAccess (inv_setScript h rest) hb
  · exact inv_powerOnReset (inv_setScript h rest)

theorem inv_reset : Inv State.reset where
  memCanonical := rfl
  memInWindows := nofun
  bufShort := Nat.zero_le _
  bufOnlyActive := fun _ => rfl
  countMatches := nofun
  busyQuiet := nofun
  noTreeZero := fun _ => ⟨rfl, rfl, rfl⟩

/-! ## The held tree -/

theorem treeCoherent_of_noTree {s : State} (h : s.treeValid = false) : TreeCoherent s := fun hv =>
  absurd (h.symm.trans hv) Bool.false_ne_true

/-- A tree is read from the bytes of `TMEM` only. -/
theorem holdsTree_congr {m m' : Memory} {leaf : Nat → Words8} {n d : Nat}
    (hm : ∀ a, 0x1000000 ≤ a → Memory.read m' a = Memory.read m a) (h : HoldsTree m leaf n d) : HoldsTree m' leaf n d :=
  fun l hl i hi => (readNode_congr fun x hx _ => hm x (Nat.le_trans (Nat.le_add_right ..) hx)).trans (h l hl i hi)

theorem treeCoherent_congr {s t : State} (h : TreeCoherent s)
    (htree : t.treeValid = s.treeValid ∧ t.treeN = s.treeN ∧ t.treeDepth = s.treeDepth ∧ t.treeRoot = s.treeRoot)
    (hmem : s.treeValid = true → ∀ a, 0x1000000 ≤ a → Memory.read t.mem a = Memory.read s.mem a) : TreeCoherent t := by
  obtain ⟨hv, hn, hd, hr⟩ := htree
  intro htv
  rw [hv] at htv
  obtain ⟨h1, h2, h3, leaf, hheld, hroot⟩ := h htv
  rw [hn, hd, hr]
  exact ⟨h1, h2, h3, leaf, holdsTree_congr (hmem htv) hheld, hroot⟩

/-- A finished build holds one tree: the leaves it read and the nodes it wrote (R174, R175, R177). -/
theorem treeCoherent_execTreeBuild {s t : State} (h : TreeCoherent s) (he : execTreeBuild s = .next t) :
    TreeCoherent t := by
  obtain ⟨-, rfl⟩ | ⟨-, -, rfl⟩ | ⟨-, -, -, rfl⟩ | ⟨leaves, -, h1, h2, hr, rfl⟩ := execTreeBuild_next he
  · exact h
  · exact h
  · exact h
  · intro _
    have hlt := maxLeaves_lt
    have hleaf : ∀ i, i < s.len.toNat → readNode s.mem i = some (leaves.getD i zeroWords) := fun i hi => by
      obtain ⟨hlen, hk⟩ := (readNodes_eq_some _ _ _ _).mp hr
      have := hk i (by omega)
      rwa [Nat.zero_add, ← List.getD_eq_getElem (d := zeroWords)] at this
    obtain ⟨hheld, hlen, hroot⟩ := build_holds h1 (by omega) hr _ hleaf
    have hclog : Nat.clog 2 s.len.toNat ≤ 32 := Nat.clog_le_of_le_pow (by omega)
    have hdepth : (BitVec.ofNat 32 (levelsAbove maxLevels leaves).length).toNat = Nat.clog 2 s.len.toNat := by
      rw [hlen, BitVec.toNat_ofNat]; omega
    refine ⟨h1, h2, hdepth, fun i => leaves.getD i zeroWords, ?_, ?_⟩
    · rw [finish_treeDepth, hdepth]; exact hheld
    · rw [finish_treeDepth, hdepth]; exact hroot

theorem treeCoherent_exec {i : Instr} {s t : State} (h : TreeCoherent s) (he : exec i s = .next t) :
    TreeCoherent t := by
  cases i with
  | treeBuild => exact treeCoherent_execTreeBuild h he
  | treeFree =>
    obtain ⟨-, rfl⟩ | ⟨hv, rfl⟩ := execTreeFree_next he
    · exact treeCoherent_of_noTree rfl
    · exact treeCoherent_of_noTree hv
  | ctxInit | ctxUpdate | ctxFinal | hash | compress | ctxExport | ctxImport =>
    exact treeCoherent_congr h (exec_tree_eq he rfl) fun _ a _ => by rw [exec_mem_eq he rfl]

theorem treeCoherent_engineStep {s t : State} (h : TreeCoherent s) (he : engineStep s = .next t) :
    TreeCoherent t := by
  obtain ⟨-, rfl⟩ | ⟨op, i, -, -, hx⟩ | ⟨op, e, -, -, rfl⟩ := engineStep_next he
  · exact h
  · exact treeCoherent_exec h hx
  · exact h

/-- A soft reset holds no tree; every other access leaves a held one (R181). -/
theorem treeCoherent_busAccess {s t : State} {a : BusAccess} (h : TreeCoherent s) (hb : busAccess a s = .next t) :
    TreeCoherent t := by
  by_cases hr : BusAccess.softResets a
  · obtain rfl := softReset_access hb hr
    exact treeCoherent_of_noTree rfl
  · obtain ⟨hv, hn, hd, hroot, -, hmem⟩ := access_tree hb hr
    exact treeCoherent_congr h ⟨hv, hn, hd, hroot⟩ hmem

theorem treeCoherent_step {s t : State} (h : TreeCoherent s) (hs : step s = .next t) : TreeCoherent t := by
  obtain ⟨-, he⟩ | ⟨rest, -, he⟩ | ⟨a, rest, -, hb⟩ | ⟨rest, -, rfl⟩ := step_next hs
  · exact treeCoherent_engineStep h he
  · exact treeCoherent_engineStep (s := { s with script := rest }) h he
  · exact treeCoherent_busAccess (s := { s with script := rest }) h hb
  · exact treeCoherent_of_noTree rfl

end Sys2Proof.Machine

open Sys2Proof.Machine

/-- Settles O3: the invariant is kept by each operation a step is made of. -/
theorem everyStepKeepsInv : Obligations.EveryStepKeepsInv := fun _ _ => inv_step

/-- Settles O4: `TREE_BUILD` makes a whole tree, `TREE_FREE` and the resets leave none, and nothing else touches a held one. -/
theorem everyStepKeepsTheTreeCoherent : Obligations.EveryStepKeepsTheTreeCoherent := fun _ _ => treeCoherent_step

/-- Settles O2: nothing is written, no context is active and no tree is held. -/
theorem resetMeetsTheInvariants : Obligations.ResetMeetsTheInvariants := ⟨inv_reset, treeCoherent_of_noTree rfl⟩

end

section
/-! What the host can and cannot observe of the results: `DIGEST` holds (10_state.md R36), and the context that does not exist
is hidden (R27, R28, U8). -/

namespace Sys2Proof.Machine

/-! ## `DIGEST` -/

theorem digest_writers {i : Instr} (hfinal : i ≠ .ctxFinal) (hhash : i ≠ .hash) : (writesOf i).digest = false := by
  cases i with
  | ctxFinal => exact absurd rfl hfinal
  | hash => exact absurd rfl hhash
  | ctxInit | ctxUpdate | compress | ctxExport | ctxImport | treeBuild | treeFree => rfl

theorem engineStep_digest {s t : State} (h : engineStep s = .next t)
    (hi : ∀ op i, s.engine = .exec op → decode op = .ok i → (writesOf i).digest = false) : t.digest = s.digest := by
  obtain ⟨-, rfl⟩ | ⟨op, i, he, hd, hx⟩ | ⟨op, e, -, -, rfl⟩ := engineStep_next h
  · rfl
  · exact exec_digest_eq hx (hi op i he hd)
  · rfl

/-! ## The hidden context -/

theorem sameToHost_refl (s : State) : SameToHost s s := ⟨rfl, rfl, .inr rfl⟩

theorem sameOutcome_refl (o : Host.Outcome State Fault Refusal) : SameOutcome o o := by
  cases o with
  | next s => exact sameToHost_refl s
  | fault f => rfl
  | refused r => rfl

theorem sameToHost_cases {s t : State} (h : SameToHost s t) :
    t = s ∨ ∃ c, s.fsm = .uninit ∧ c.buf = s.ctx.buf ∧ t = { s with ctx := c } := by
  obtain ⟨ht, hb, hf | hc⟩ := h
  · exact .inr ⟨t.ctx, hf, hb, ht⟩
  · exact .inl (by rw [ht, hc])

theorem sameToHost_respondWrite {s t : State} (h : SameToHost s t) : SameToHost (respondWrite s) (respondWrite t) := by
  obtain rfl | ⟨c, hf, hb, rfl⟩ := sameToHost_cases h
  · exact sameToHost_refl _
  · exact ⟨rfl, hb, .inl hf⟩

/-- `STATUS` shows `BUFLEN` only, and no other register shows anything of the context (10_state.md R27, R28). -/
theorem regRead_hidden {s : State} {c : Hasher} (hb : c.buf = s.ctx.buf) (r : Reg) :
    regRead r { s with ctx := c } = regRead r s := by
  cases r with
  | status => simp only [regRead, State.statusWord, State.buflen, hb, State.err, State.busy]
  | _ => rfl

/-- Without a context the three commands that need one report `CTX_STATE` (10_state.md R31). -/
theorem exec_of_uninit {i : Instr} {s : State} (hf : s.fsm = .uninit)
    (hi : i = .ctxUpdate ∨ i = .ctxFinal ∨ i = .ctxExport) : exec i s = .next (finish .ctxState s) := by
  obtain rfl | rfl | rfl := hi
  · simp [exec, execCtxUpdate, completeError, hf]
  · simp [exec, execCtxFinal, completeError, hf]
  · simp [exec, execCtxExport, completeError, hf]

/-! Two runs from states that differ in such a context alone. Where both end in states that again differ in it alone, the goal is
`⟨rfl, hb, .inl hf⟩`, the definition of `SameToHost` at the replaced context. -/

section
variable {s : State} {c : Hasher} (hf : s.fsm = .uninit) (hb : c.buf = s.ctx.buf)
include hf hb

theorem exec_hidden_of_needsContext {i : Instr} (hi : i = .ctxUpdate ∨ i = .ctxFinal ∨ i = .ctxExport) :
    SameOutcome (exec i s) (exec i { s with ctx := c }) := by
  rw [exec_of_uninit hf hi, exec_of_uninit (s := { s with ctx := c }) hf hi]
  exact ⟨rfl, hb, .inl hf⟩

/-- `CTX_INIT` and `CTX_IMPORT` replace the context, and the commands that need none do not read it. -/
theorem exec_hidden (i : Instr) : SameOutcome (exec i s) (exec i { s with ctx := c }) := by
  cases i with
  | ctxInit => exact sameOutcome_refl _
  | ctxImport =>
    have hcio : ({ s with ctx := c } : State).cio = s.cio := rfl
    simp only [exec, execCtxImport, hcio]
    split
    · exact ⟨rfl, hb, .inl hf⟩
    · exact sameOutcome_refl _
  | ctxUpdate => exact exec_hidden_of_needsContext hf hb (.inl rfl)
  | ctxFinal => exact exec_hidden_of_needsContext hf hb (.inr (.inl rfl))
  | ctxExport => exact exec_hidden_of_needsContext hf hb (.inr (.inr rfl))
  | hash =>
    simp only [exec, execHash, readMessage]
    split
    · exact ⟨rfl, hb, .inl hf⟩
    · split
      · rfl
      · exact ⟨rfl, hb, .inl hf⟩
  | compress =>
    simp only [exec, execCompress, readBlock]
    split
    · rfl
    · exact ⟨rfl, hb, .inl hf⟩
  | treeBuild =>
    simp only [exec, execTreeBuild]
    split
    · exact ⟨rfl, hb, .inl hf⟩
    · split
      · exact ⟨rfl, hb, .inl hf⟩
      · split
        · exact ⟨rfl, hb, .inl hf⟩
        · split
          · rfl
          · exact ⟨rfl, hb, .inl hf⟩
  | treeFree =>
    simp only [exec, execTreeFree]
    split
    · exact ⟨rfl, hb, .inl hf⟩
    · exact ⟨rfl, hb, .inl hf⟩

theorem engineStep_hidden : SameOutcome (engineStep s) (engineStep { s with ctx := c }) := by
  simp only [engineStep]
  split
  · exact ⟨rfl, hb, .inl hf⟩
  · simp only [execute]
    split
    · exact exec_hidden hf hb _
    · exact ⟨rfl, hb, .inl hf⟩

/-- A write makes the same change in both; a soft reset makes both contexts the same (10_state.md R48). -/
theorem regWrite_hidden (r : Reg) (v : Word) : SameToHost (regWrite r v s) (regWrite r v { s with ctx := c }) := by
  cases r with
  | status =>
    simp only [regWrite]
    split
    · exact ⟨rfl, hb, .inl hf⟩
    · exact ⟨rfl, hb, .inl hf⟩
  | ctrl =>
    simp only [regWrite]
    split
    · exact sameToHost_refl (softReset s)
    · exact ⟨rfl, hb, .inl hf⟩
  | cmd | len | sio k | cioLo | cioHi | treeN | treeDepth | capMaxLeaves | capDinBytes | digest k | treeRoot k
  | reserved => exact ⟨rfl, hb, .inl hf⟩

theorem hostWrite_hidden (off : Nat) (v : Word) :
    SameToHost (hostWrite off v s) (hostWrite off v { s with ctx := c }) := by
  unfold hostWrite
  split
  · exact regWrite_hidden hf hb _ v
  · exact ⟨rfl, hb, .inl hf⟩
  · exact ⟨rfl, hb, .inl hf⟩
  · exact ⟨rfl, hb, .inl hf⟩

theorem windowRead_hidden (off : Nat) : SameOutcome (windowRead off s) (windowRead off { s with ctx := c }) := by
  have hbusy : ({ s with ctx := c } : State).busy = s.busy := rfl
  simp only [windowRead, hbusy]
  split
  · exact ⟨rfl, hb, .inl hf⟩
  · split
    · rfl
    · exact ⟨rfl, hb, .inl hf⟩

theorem hostRead_hidden (off : Nat) : SameOutcome (hostRead off s) (hostRead off { s with ctx := c }) := by
  have hbusy : ({ s with ctx := c } : State).busy = s.busy := rfl
  simp only [hostRead, regRead_hidden hb, hbusy]
  split
  · split
    · exact ⟨rfl, hb, .inl hf⟩
    · exact ⟨rfl, hb, .inl hf⟩
  · exact windowRead_hidden hf hb off
  · exact windowRead_hidden hf hb off
  · exact ⟨rfl, hb, .inl hf⟩

theorem busAccess_hidden (a : BusAccess) : SameOutcome (busAccess a s) (busAccess a { s with ctx := c }) := by
  have hcheck : busCheck a { s with ctx := c } = busCheck a s := rfl
  simp only [busAccess, hcheck]
  split
  · exact ⟨rfl, hb, .inl hf⟩
  · split
    · exact sameToHost_respondWrite (hostWrite_hidden hf hb _ _)
    · exact hostRead_hidden hf hb _

theorem perform_hidden (e : Event) : SameOutcome (perform e s) (perform e { s with ctx := c }) := by
  cases e with
  | access a => exact busAccess_hidden hf hb a
  | engineTurn => exact engineStep_hidden hf hb
  | powerOn => exact sameToHost_refl (powerOnReset s)

end

theorem step_hidden {s : State} {c : Hasher} (hf : s.fsm = .uninit) (hb : c.buf = s.ctx.buf) :
    SameOutcome (step s) (step { s with ctx := c }) := by
  simp only [step]
  split
  next => exact engineStep_hidden hf hb
  next e rest _ => exact perform_hidden (s := { s with script := rest }) hf hb e

end Sys2Proof.Machine

open Sys2Proof Sys2Proof.Machine

/-- Settles O6: an access that is no reset leaves `DIGEST`, and of the commands only `CTX_FINAL` and `HASH` write it. -/
theorem digestHoldsUntilFinalHashOrReset : Obligations.DigestHoldsUntilFinalHashOrReset := by
  intro s t hs hreset hfinal hhash
  have hwriter (hnext : EngineNext s) (op : Word) (i : Instr) (he : s.engine = .exec op) (hd : decode op = .ok i) :
      (writesOf i).digest = false :=
    digest_writers (fun hi => hfinal ⟨hnext, op, he, hi ▸ hd⟩) fun hi => hhash ⟨hnext, op, he, hi ▸ hd⟩
  obtain ⟨hscript, he⟩ | ⟨rest, hscript, he⟩ | ⟨a, rest, hscript, hb⟩ | ⟨rest, hscript, rfl⟩ := step_next hs
  · exact engineStep_digest he (hwriter (.inl hscript))
  · exact engineStep_digest (s := { s with script := rest }) he (hwriter (.inr ⟨rest, hscript⟩))
  · obtain ⟨-, -, -, -, hdigest, -⟩ := access_tree hb fun hr => hreset (.inr ⟨a, rest, hscript, hr⟩)
    exact hdigest
  · exact absurd (.inl ⟨rest, hscript⟩) hreset

/-- Settles O7: states that agree outside the hidden context of no context take the same step. -/
theorem hiddenContextIsUnobservable : Obligations.HiddenContextIsUnobservable := by
  intro s t h
  obtain rfl | ⟨c, hf, hb, rfl⟩ := sameToHost_cases h
  · exact sameOutcome_refl _
  · exact step_hidden hf hb

end

section
/-! The registers as the host sees them (10_state.md R23 to R26, R31, R33 to R41): the map, an idle read and an idle write of
each, the fields of `STATUS`, and the values after the resets (R48). -/

namespace Sys2Proof.Machine

/-! ## The map -/

theorem regAt_sio (k : Fin 8) : regAt (0x020 + 4 * k) = .sio k := by
  revert k; decide

theorem regAt_digest (k : Fin 8) : regAt (0x060 + 4 * k) = .digest k := by
  revert k; decide

theorem regAt_treeRoot (k : Fin 8) : regAt (0x080 + 4 * k) = .treeRoot k := by
  revert k; decide

theorem regWrite_status (v : Word) (s : State) :
    regWrite .status v s = { s with done := if v.getLsbD 1 = true then false else s.done } := by
  simp only [regWrite]
  split
  · rfl
  · rfl

theorem regWrite_ctrl_of_noReset {v : Word} (hv : v.getLsbD 1 = false) (s : State) :
    regWrite .ctrl v s = { s with irqEn := v.getLsbD 0 } := by
  simp only [regWrite, hv, Bool.false_eq_true, if_false]

/-- Above `CIO_HI` stand only `DIGEST`, `TREE_ROOT` and reserved words. -/
theorem regAt_above_cio {off : Nat} (h : 0x048 ≤ off) :
    regAt off =
      if off < 0x060 then .reserved
      else if off < 0x080 then .digest (Fin.ofNat 8 ((off - 0x060) / 4))
      else if off < 0x0A0 then .treeRoot (Fin.ofNat 8 ((off - 0x080) / 4))
      else .reserved := by
  unfold regAt
  iterate 11 rw [if_neg (by omega)]

theorem regAt_reserved {off : Nat} (h : (0x048 ≤ off ∧ off ≤ 0x05C) ∨ (0x0A0 ≤ off ∧ off ≤ 0xFFFC)) :
    regAt off = .reserved := by
  rw [regAt_above_cio (by omega)]
  obtain ⟨-, h⟩ | ⟨h, -⟩ := h
  · rw [if_pos (by omega)]
  · rw [if_neg (by omega), if_neg (by omega), if_neg (by omega)]

/-- A write to a read-only or reserved word is ignored (10_state.md R23, R40). -/
theorem regWrite_ignored {off : Nat} (ha : off % 4 = 0)
    (h : (0x010 ≤ off ∧ off ≤ 0x01C) ∨ (0x048 ≤ off ∧ off ≤ 0xFFFC)) (v : Word) (s : State) :
    regWrite (regAt off) v s = s := by
  obtain ⟨hlo, hhi⟩ | ⟨hlo, -⟩ := h
  · obtain rfl | rfl | rfl | rfl : off = 0x010 ∨ off = 0x014 ∨ off = 0x018 ∨ off = 0x01C := by omega
    all_goals rfl
  · rw [regAt_above_cio hlo]
    split_ifs <;> rfl

/-! ## Idle accesses -/

theorem toNat_registerOffset {off : Nat} (hoff : off < 0x10000) : (BitVec.ofNat 32 off).toNat = off := by
  rw [BitVec.toNat_ofNat]; omega

theorem idle_registerRead {s : State} (hb : s.busy = false) {off : Nat} (ha : off % 4 = 0) (hoff : off < 0x10000) :
    busAccess (readAccess (BitVec.ofNat 32 off)) s = .next (respondRead (regRead (regAt off) s) s) := by
  have haddr : (readAccess (BitVec.ofNat 32 off)).addr.toNat = off := toNat_registerOffset hoff
  rw [busAccess_registerRead (by rwa [haddr]) rfl rfl (by rwa [haddr]), hb, haddr]
  rfl

theorem idle_registerWrite {s : State} (hb : s.busy = false) {off : Nat} (ha : off % 4 = 0) (hoff : off < 0x10000)
    (v : Word) :
    busAccess (writeAccess (BitVec.ofNat 32 off) v) s = .next (respondWrite (regWrite (regAt off) v s)) := by
  have haddr : (writeAccess (BitVec.ofNat 32 off) v).addr.toNat = off := toNat_registerOffset hoff
  rw [busAccess_registerWrite (by rwa [haddr]) rfl rfl (by rwa [haddr]) (by simp [hb]), haddr]
  rfl

theorem wordList_set_getD (d : Words8) (k j : Fin 8) (v : Word) :
    (wordList (d.set k v)).getD j 0 = if j = k then v else (wordList d).getD j 0 := by
  rw [wordList_getD, wordList_getD]
  split
  next h => rw [h, words8_get_set_same]
  next h => exact words8_get_set_other d k j v h

/-! ## The fields of `STATUS` -/

theorem toBits_eq_iff {f g : CtxFsm} : f.toBits = g.toBits ↔ f = g := by
  cases f <;> cases g <;> decide

theorem toBits_ne_three (f : CtxFsm) : f.toBits ≠ 3 := by
  cases f <;> decide

theorem err_eq_decide (s : State) : s.err = decide (s.errcode.toByte ≠ 0) := by
  rw [State.err, Bool.eq_iff_iff, bne_iff_ne, decide_eq_true_iff]

/-! ## Resets -/

theorem zeroWords_get (k : Fin 8) : zeroWords.get k = 0 := by
  revert k; decide

/-- Nothing is set in `STATUS` where its fields have their reset values. -/
theorem statusWord_eq_zero {s : State} (hengine : s.engine = .idle) (hdone : s.done = false) (herr : s.errcode = .ok)
    (htree : s.treeValid = false) (hfsm : s.fsm = .uninit) (hbuf : s.ctx.buf = []) : s.statusWord = 0 := by
  simp only [State.statusWord, State.buflen, State.err, State.busy, hengine, hdone, herr, htree, hfsm, hbuf]
  rfl

end Sys2Proof.Machine

open Sys2Proof Sys2Proof.Machine

/-- Settles O1: each value is the one both resets write; without a build in flight a soft reset keeps the windows. -/
theorem resetsLeaveTheListedValues : Obligations.ResetsLeaveTheListedValues := by
  refine ⟨fun s t ht => ?_, fun s a => ⟨rfl, rfl⟩, fun s a hb => ?_, fun s rest hs => step_of_cons hs⟩
  · have hget (k : Fin 8) : zeroWords.get k = 0 ∧ zeroWords.get k = 0 ∧ zeroWords.get k = 0 :=
      ⟨zeroWords_get k, zeroWords_get k, zeroWords_get k⟩
    obtain rfl | rfl | rfl := ht
    all_goals exact ⟨statusWord_eq_zero rfl rfl rfl rfl rfl rfl, rfl, rfl, rfl, rfl, rfl, rfl, rfl, rfl, rfl, rfl, rfl, hget⟩
  · rw [softReset_mem, memAfterSoftReset, hb]
    rfl

/-- Settles O47: each field is read back at its bit, and the invariant bounds `BUFLEN` and quiets a busy `STATUS`. -/
theorem statusFields : Obligations.StatusFields := by
  intro s h
  rw [status_errcode, status_fsm, status_buflen]
  refine ⟨status_busy s, status_done s, ?_, status_bit3 s, toBits_ne_three _, toBits_eq_iff (g := .uninit),
    toBits_eq_iff (g := .active), toBits_eq_iff (g := .finalized), status_treeValid s, status_bit7 s, ?_, ?_,
    status_reserved s, fun hb => ?_⟩
  · rw [status_err, err_eq_decide]
  · cases s.errcode <;> rfl
  · have := h.bufShort
    omega
  · obtain ⟨hdone, herr⟩ := h.busyQuiet hb
    rw [status_done, hdone, herr]
    exact ⟨rfl, rfl⟩

/-- Settles O48: the idle write reaches `STATUS`, which holds one writable bit. -/
theorem writingStatusClearsDone : Obligations.WritingStatusClearsDone := by
  intro s v hb
  refine (idle_registerWrite hb (off := 0x004) rfl (by decide) v).trans ?_
  rw [show regAt 0x004 = .status from rfl, regWrite_status]
  rfl

/-- Settles O46: the idle write reaches the register at the offset, and each register's own rule says the rest. -/
theorem registerWrites : Obligations.RegisterWrites := by
  intro s v hb
  refine ⟨fun hv => ?_, ?_, ?_, ?_, fun k => ⟨s.sio.set k v, ?_, fun j => wordList_set_getD s.sio k j v⟩,
    fun off ha hoff => ?_⟩
  · refine (idle_registerWrite hb (off := 0x008) rfl (by decide) v).trans ?_
    rw [show regAt 0x008 = .ctrl from rfl, regWrite_ctrl_of_noReset hv]
    rfl
  · exact idle_registerWrite hb (off := 0x00C) rfl (by decide) v
  · exact idle_registerWrite hb (off := 0x040) rfl (by decide) v
  · exact idle_registerWrite hb (off := 0x044) rfl (by decide) v
  · refine (idle_registerWrite hb (by omega) (by omega) v).trans ?_
    rw [regAt_sio]
    rfl
  · refine (idle_registerWrite hb ha (by omega) v).trans ?_
    rw [regWrite_ignored ha hoff]
    rfl

/-- Settles O60: the map is `regAt`, and an idle read answers with what the register at the offset reads as. -/
theorem registerMapAndIdleReads : Obligations.RegisterMapAndIdleReads := by
  refine ⟨⟨rfl, rfl, rfl, rfl, rfl, rfl, rfl, rfl, rfl, rfl, fun k => ⟨regAt_sio k, regAt_digest k, regAt_treeRoot k⟩,
    fun off _ hoff => regAt_reserved hoff⟩, fun s hb => ?_⟩
  have hread {off : Nat} {r : Reg} (hr : regAt off = r) (ha : off % 4 = 0) (hoff : off < 0x10000) :
      busAccess (readAccess (BitVec.ofNat 32 off)) s = .next { s with busResp := some ⟨.okay, some (regRead r s)⟩ } :=
    hr ▸ idle_registerRead hb ha hoff
  refine ⟨hread (off := 0x000) rfl rfl (by decide), hread (off := 0x004) rfl rfl (by decide),
    hread (off := 0x008) rfl rfl (by decide), hread (off := 0x00C) rfl rfl (by decide),
    hread (off := 0x010) rfl rfl (by decide), hread (off := 0x014) rfl rfl (by decide),
    hread (off := 0x018) rfl rfl (by decide), hread (off := 0x01C) rfl rfl (by decide),
    hread (off := 0x040) rfl rfl (by decide), hread (off := 0x044) rfl rfl (by decide), fun k => ?_,
    fun off ha hoff => hread (regAt_reserved hoff) ha (by omega)⟩
  rw [wordList_getD, wordList_getD, wordList_getD]
  exact ⟨hread (regAt_sio k) (by omega) (by omega), hread (regAt_digest k) (by omega) (by omega),
    hread (regAt_treeRoot k) (by omega) (by omega)⟩

end

section
/-! The bus (20_memory.md R60, R64 to R71; 60_exceptions.md R206, R209, R220): which accesses are rejected and what each other one
does, the words of the windows, and that a read leaves the state as it was. -/

namespace Sys2Proof.Machine

/-! ## The four kinds of access -/

/-- The checks let through exactly the accesses that R68 does not reject. -/
theorem busCheck_eq_none_iff (a : BusAccess) (s : State) : busCheck a s = none ↔ ¬ BusAccess.rejected a s := by
  have hctrl : a.addr.toNat = ctrlOffset ↔ a.addr = 0x008 := BitVec.toNat_inj (y := 0x008)
  constructor
  · intro h
    obtain ⟨haligned, hsize, hhole, hbusy, hlocked⟩ := busCheck_none h
    rw [ne_eq, regionAt_hole_iff] at hhole
    rintro (hr | hr | hr | ⟨hb, hw, hne⟩ | ⟨hw, hlo, htree⟩)
    · exact hr haligned
    · exact hr hsize
    · exact hhole hr
    · exact hne (hctrl.mp (hbusy hb hw))
    · have hhi : ¬ 0x1000000 + 32 * nodeCap ≤ a.addr.toNat := fun hle => hhole (.inr hle)
      have hfree := hlocked hw (regionAt_of_tmem hlo (by omega))
      exact absurd htree (by simp [hfree])
  · intro h
    simp only [BusAccess.rejected, not_or, not_and, ne_eq, not_not] at h
    obtain ⟨haligned, hsize, hhole, hbusy, hlocked⟩ := h
    refine busCheck_of haligned hsize (mt (regionAt_hole_iff _).mp hhole) (fun hb hw => hctrl.mpr (hbusy hb hw)) ?_
    intro hw htmem
    exact Bool.eq_false_of_not_eq_true (hlocked hw (regionAt_tmem_bounds htmem).1)

theorem busAccess_of_rejected {a : BusAccess} {s : State} (h : BusAccess.rejected a s) :
    busAccess a s = .next (respondError a.we s) := by
  obtain ⟨e, he⟩ := Option.ne_none_iff_exists'.mp fun hn => (busCheck_eq_none_iff a s).mp hn h
  rw [busAccess, he]

theorem busAccess_of_accepted_write {a : BusAccess} {s : State} (h : ¬ BusAccess.rejected a s) (hw : a.we = true) :
    busAccess a s = .next (respondWrite (hostWrite a.addr.toNat a.wdata s)) := by
  simp only [busAccess, (busCheck_eq_none_iff a s).mpr h, hw, if_true]

/-- An accepted access at or above `DIN_BASE` is one to a window (20_memory.md R63, R67). -/
theorem window_of_accepted {a : BusAccess} {s : State} (h : ¬ BusAccess.rejected a s) (hlo : 0x10000 ≤ a.addr.toNat) :
    regionAt a.addr.toNat = .din ∨ regionAt a.addr.toNat = .tmem := by
  obtain ⟨-, -, hhole, -⟩ := busCheck_none ((busCheck_eq_none_iff a s).mpr h)
  have hreg : regionAt a.addr.toNat ≠ .registers := fun hr => by
    have := (regionAt_registers_iff _).mp hr
    omega
  cases hr : regionAt a.addr.toNat with
  | registers => exact absurd hr hreg
  | din => exact .inl rfl
  | tmem => exact .inr rfl
  | hole => exact absurd hr hhole

theorem busAccess_of_accepted_windowRead {a : BusAccess} {s : State} (h : ¬ BusAccess.rejected a s) (hw : a.we = false)
    (hlo : 0x10000 ≤ a.addr.toNat) : busAccess a s = windowRead a.addr.toNat s := by
  obtain ⟨haligned, hsize, -⟩ := busCheck_none ((busCheck_eq_none_iff a s).mpr h)
  exact busAccess_windowRead haligned hsize hw (window_of_accepted h hlo)

/-- An accepted register read answers a free value, which it does only while busy, or the register's value (60_exceptions.md
R209). -/
theorem busAccess_of_accepted_registerRead {a : BusAccess} {s : State} (h : ¬ BusAccess.rejected a s) (hw : a.we = false)
    (hhi : a.addr.toNat < 0x10000) :
    (s.busy = true ∧ busAccess a s = .next (respondFree s)) ∨ ∃ v, busAccess a s = .next (respondRead v s) := by
  obtain ⟨haligned, hsize, -⟩ := busCheck_none ((busCheck_eq_none_iff a s).mpr h)
  rw [busAccess_registerRead haligned hsize hw hhi]
  split
  next hfree => exact .inl ⟨(Bool.and_eq_true_iff.mp hfree).1, rfl⟩
  next => exact .inr ⟨_, rfl⟩

/-- Every access is rejected, or an accepted write, register read or window read. -/
theorem busAccess_cases (a : BusAccess) (s : State) :
    (BusAccess.rejected a s ∧ busAccess a s = .next (respondError a.we s)) ∨
    (¬ BusAccess.rejected a s ∧ a.we = true ∧
      busAccess a s = .next (respondWrite (hostWrite a.addr.toNat a.wdata s))) ∨
    (¬ BusAccess.rejected a s ∧ a.we = false ∧ a.addr.toNat < 0x10000 ∧
      ((s.busy = true ∧ busAccess a s = .next (respondFree s)) ∨ ∃ v, busAccess a s = .next (respondRead v s))) ∨
    (¬ BusAccess.rejected a s ∧ a.we = false ∧ 0x10000 ≤ a.addr.toNat ∧
      busAccess a s = windowRead a.addr.toNat s) := by
  by_cases hr : BusAccess.rejected a s
  · exact .inl ⟨hr, busAccess_of_rejected hr⟩
  · cases hw : a.we with
    | true => exact .inr (.inl ⟨hr, rfl, busAccess_of_accepted_write hr hw⟩)
    | false =>
      rcases Nat.lt_or_ge a.addr.toNat 0x10000 with hlt | hge
      · exact .inr (.inr (.inl ⟨hr, rfl, hlt, busAccess_of_accepted_registerRead hr hw hlt⟩))
      · exact .inr (.inr (.inr ⟨hr, rfl, hge, busAccess_of_accepted_windowRead hr hw hge⟩))

/-! ## Answers and faults -/

theorem windowRead_of_busy {s : State} (hb : s.busy = true) (off : Nat) : windowRead off s = .next (respondFree s) := by
  rw [windowRead, if_pos hb]

theorem windowRead_of_word {s : State} {off : Nat} {v : Word} (hb : s.busy = false) (hv : wordAt s.mem off = some v) :
    windowRead off s = .next (respondRead v s) := by
  rw [windowRead, hb, hv]
  rfl

/-- A window read is answered `OKAY` or faults. -/
theorem windowRead_answers (off : Nat) (s : State) :
    (∃ t d, windowRead off s = .next t ∧ t.busResp = some ⟨.okay, d⟩) ∨ windowRead off s = .fault .unwrittenRead := by
  cases hb : s.busy with
  | true => exact .inl ⟨_, _, windowRead_of_busy hb off, rfl⟩
  | false =>
    cases hv : wordAt s.mem off with
    | none => exact .inr (windowRead_fault.mpr ⟨hb, hv⟩)
    | some v => exact .inl ⟨_, _, windowRead_of_word hb hv, rfl⟩

theorem busAccess_answers_of_accepted {a : BusAccess} {s : State} (h : ¬ BusAccess.rejected a s) :
    (∃ t d, busAccess a s = .next t ∧ t.busResp = some ⟨.okay, d⟩) ∨ busAccess a s = .fault .unwrittenRead := by
  obtain ⟨hr, -⟩ | ⟨-, -, he⟩ | ⟨-, -, -, ⟨-, he⟩ | ⟨v, he⟩⟩ | ⟨-, -, -, he⟩ := busAccess_cases a s
  · exact absurd hr h
  · exact .inl ⟨_, _, he, rfl⟩
  · exact .inl ⟨_, _, he, rfl⟩
  · exact .inl ⟨_, _, he, rfl⟩
  · exact he ▸ windowRead_answers a.addr.toNat s

/-- Only an idle read of a window word with a never-written byte faults (60_exceptions.md R220). -/
theorem busAccess_fault_iff (a : BusAccess) (s : State) (f : Fault) :
    busAccess a s = .fault f ↔
      ¬ BusAccess.rejected a s ∧ a.we = false ∧ s.busy = false ∧ 0x10000 ≤ a.addr.toNat ∧
        ∃ k, k < 4 ∧ Memory.read s.mem (a.addr.toNat + k) = none := by
  obtain ⟨hr, he⟩ | ⟨-, hw, he⟩ | ⟨-, -, hlt, ⟨-, he⟩ | ⟨v, he⟩⟩ | ⟨hr, hw, hge, he⟩ := busAccess_cases a s
  · simp [he, hr]
  · simp [he, hw]
  · simp [he, hlt]
  · simp [he, hlt]
  · rw [he, windowRead_fault, wordAt_eq_none]
    simp only [hr, hw, hge, not_false_eq_true, true_and]

/-! ## Window words -/

theorem bytes32_getElem (w : Word) {k : Nat} (hk : k < (bytes32 w).length) :
    (bytes32 w)[k] = w.extractLsb' (24 - 8 * k) 8 := by
  rw [bytes32_length] at hk
  interval_cases k <;> rfl

/-- A word just written to a window reads back (20_memory.md R60). -/
theorem wordAt_writeBytes_bytes32 (m : Memory) (a : Nat) (w : Word) :
    wordAt (Memory.writeBytes m a (bytes32 w)) a = some w := by
  have hread : Memory.readBytes (Memory.writeBytes m a (bytes32 w)) a 4 = some (bytes32 w) :=
    readBytes_writeBytes_same m a (bytes32 w)
  rw [wordAt, hread]
  exact congrArg some (be32_bytes w)

/-- An accepted idle write at or above `DIN_BASE` stores its word and answers `OKAY` (20_memory.md R71). -/
theorem busAccess_of_accepted_windowWrite {a : BusAccess} {s : State} (h : ¬ BusAccess.rejected a s) (hw : a.we = true)
    (hb : s.busy = false) (hlo : 0x10000 ≤ a.addr.toNat) :
    busAccess a s =
      .next (respondWrite { s with mem := Memory.writeBytes s.mem a.addr.toNat (bytes32 a.wdata) }) := by
  obtain ⟨haligned, hsize, -, -, hlocked⟩ := busCheck_none ((busCheck_eq_none_iff a s).mpr h)
  exact busAccess_windowWrite haligned hsize hw hb ((window_of_accepted h hlo).imp_right fun ht => ⟨ht, hlocked hw ht⟩)

/-- Where a write is accepted in some state, a read of the same word is in every state: the checks that look at the state are
for writes (20_memory.md R68). -/
theorem read_accepted_of_write_accepted {a w : Word} {s : State} (h : ¬ BusAccess.rejected (writeAccess a w) s)
    (t : State) : ¬ BusAccess.rejected (readAccess a) t := by
  rintro (hr | hr | hr | ⟨-, hw, -⟩ | ⟨hw, -, -⟩)
  · exact h (.inl hr)
  · exact hr rfl
  · exact h (.inr (.inr (.inl hr)))
  · exact Bool.false_ne_true hw
  · exact Bool.false_ne_true hw

/-! ## Reads -/

/-- A read changes nothing but the answer and the draw counter (20_memory.md R70). -/
theorem read_frame {a : BusAccess} {s t : State} (hw : a.we = false) (h : busAccess a s = .next t) :
    t = { s with busResp := t.busResp, draws := t.draws } := by
  obtain rfl | ⟨-, rfl | ⟨v, rfl⟩⟩ | ⟨-, hw', -⟩ := busAccess_next h
  · rfl
  · rfl
  · rfl
  · exact absurd (hw.symm.trans hw') Bool.false_ne_true

/-- An idle read draws no free value (60_exceptions.md R209). -/
theorem idle_read_draws {a : BusAccess} {s t : State} (hw : a.we = false) (hb : s.busy = false)
    (h : busAccess a s = .next t) : t.draws = s.draws := by
  obtain ⟨-, he⟩ | ⟨-, hw', -⟩ | ⟨-, -, -, ⟨hb', -⟩ | ⟨v, he⟩⟩ | ⟨-, -, -, he⟩ := busAccess_cases a s
  · cases he.symm.trans h
    rfl
  · exact absurd (hw.symm.trans hw') Bool.false_ne_true
  · exact absurd (hb.symm.trans hb') Bool.false_ne_true
  · cases he.symm.trans h
    rfl
  · obtain ⟨hb', -⟩ | ⟨-, v, -, rfl⟩ := windowRead_next (he.symm.trans h)
    · exact absurd (hb.symm.trans hb') Bool.false_ne_true
    · rfl

/-- A read does not depend on the answer to the access before it, which it overwrites. -/
theorem read_setBusResp {a : BusAccess} (hw : a.we = false) (s : State) (r : Option BusResponse) :
    busAccess a { s with busResp := r } = busAccess a s := by
  have hcheck : busCheck a { s with busResp := r } = busCheck a s := rfl
  have hread : hostRead a.addr.toNat { s with busResp := r } = hostRead a.addr.toNat s := rfl
  rw [busAccess, busAccess, hcheck]
  cases busCheck a s with
  | some e => rfl
  | none => simp only [hw, Bool.false_eq_true, if_false, hread]

end Sys2Proof.Machine

open Sys2Proof Sys2Proof.Machine

/-- Settles O42: the checks are R68's conditions, and of the accesses they let through only a window read can fault. -/
theorem busErrors : Obligations.BusErrors := by
  refine fun a s => ⟨busAccess_of_rejected, busAccess_answers_of_accepted, busAccess_fault_iff a s, ?_⟩
  intro hr hw hb hlo b0 b1 b2 b3 h0 h1 h2 h3
  refine ⟨be32 b0 b1 b2 b3, be32_toNat b0 b1 b2 b3, ?_⟩
  rw [busAccess_of_accepted_windowRead hr hw hlo, windowRead_of_word hb (wordAt_written h0 h1 h2 h3)]
  rfl

/-- Settles O44: the write stores the word's four bytes alone, and the read of the same word is accepted too. -/
theorem windowWordsAreBigEndian : Obligations.WindowWordsAreBigEndian := by
  intro s a w hr hb hlo
  refine ⟨_, busAccess_of_accepted_windowWrite hr rfl hb hlo, rfl, fun k hk => ?_, fun x hx => ?_, ?_⟩
  · exact (read_writeBytes_inside s.mem (bytes32 w) a.toNat k hk).trans (congrArg some (bytes32_getElem w hk))
  · exact read_writeBytes_outside s.mem (bytes32 w) a.toNat x hx
  · refine (busAccess_of_accepted_windowRead (read_accepted_of_write_accepted hr _) rfl hlo).trans ?_
    exact windowRead_of_word hb (wordAt_writeBytes_bytes32 s.mem a.toNat w)

/-- Settles O45: an idle read changes the answer alone, and the read that follows does not depend on that answer. -/
theorem readsHaveNoSideEffect : Obligations.ReadsHaveNoSideEffect := by
  intro a s t hw h
  have hframe := read_frame hw h
  refine ⟨hframe, fun hb => ?_⟩
  have hdraws := idle_read_draws hw hb h
  have hanswer : t = { s with busResp := t.busResp } := by rwa [hdraws] at hframe
  refine ⟨hdraws, ?_⟩
  calc busAccess a t = busAccess a { s with busResp := t.busResp } := congrArg (busAccess a) hanswer
    _ = busAccess a s := read_setBusResp hw s t.busResp
    _ = .next t := h

end

section
/-! The command word (30_encoding.md R90 to R92, R96, R97): decode and encode agree, and every other word is rejected. -/

namespace Sys2Proof.Machine

/-! ## Decode and encode -/

/-- A word is its two fields (R90). -/
theorem word_toNat_fields (w : Word) : w.toNat = (reservedField w).toNat * 256 + (opcodeField w).toNat := by
  have hw := w.isLt
  rw [reservedField, opcodeField, field_toNat, field_toNat]
  omega

/-- The opcode map takes no opcode but a command's own to that command (R92). -/
theorem eq_opcode_of_decodeOpcode {op : BitVec 8} {i : Instr} (h : decodeOpcode op = some i) : op = i.opcode := by
  apply BitVec.eq_of_toNat_eq
  unfold decodeOpcode at h
  split at h
  case h_10 => cases h
  all_goals cases h; assumption

/-- The encoder's rows, collected over the commands. -/
theorem encodedRow (i : Instr) : Laws.EncodedRow.Statement i :=
  match i with
  | .ctxInit => Laws.EncodedRow.ctxInit
  | .ctxUpdate => Laws.EncodedRow.ctxUpdate
  | .ctxFinal => Laws.EncodedRow.ctxFinal
  | .hash => Laws.EncodedRow.hash
  | .compress => Laws.EncodedRow.compress
  | .ctxExport => Laws.EncodedRow.ctxExport
  | .ctxImport => Laws.EncodedRow.ctxImport
  | .treeBuild => Laws.EncodedRow.treeBuild
  | .treeFree => Laws.EncodedRow.treeFree

theorem decode_encode (i : Instr) : decode (encode i) = .ok i := by
  obtain ⟨-, -, -, hdecode, -⟩ := encodedRow i
  exact hdecode

theorem decodeTableWord_encode (i : Instr) : decodeTableWord 32 (encode i).toNat = some i := by
  obtain ⟨-, -, -, -, htable⟩ := encodedRow i
  exact htable

/-- Two words with the same fields are equal, so a word that decodes to a command is that command's word. -/
theorem eq_encode_of_decode {w : Word} {i : Instr} (h : decode w = .ok i) : w = encode i := by
  obtain ⟨-, hopcode, hreserved, -, -⟩ := encodedRow i
  unfold decode at h
  split at h
  next hw =>
    split at h
    next j hj =>
      cases h
      apply BitVec.eq_of_toNat_eq
      rw [word_toNat_fields w, word_toNat_fields (encode i), hopcode, hreserved, hw, eq_opcode_of_decodeOpcode hj]
    next => cases h
  next => cases h

theorem decode_eq_ok_iff (w : Word) (i : Instr) : decode w = .ok i ↔ w = encode i :=
  ⟨eq_encode_of_decode, fun h => h ▸ decode_encode i⟩

/-- A word is rejected exactly when it is no command's. -/
theorem decode_rejects_iff (w : Word) : (∃ e, decode w = .error e) ↔ ∀ i, w ≠ encode i := by
  simp only [ne_eq, ← decode_eq_ok_iff]
  cases decode w with
  | ok i => simp
  | error e => simp

/-! ## The command words as numbers -/

/-- The words of the opcode map (R92). -/
theorem encode_toNat (i : Instr) :
    (encode i).toNat = match i with
      | .ctxInit => 0x01
      | .ctxUpdate => 0x02
      | .ctxFinal => 0x03
      | .hash => 0x04
      | .compress => 0x05
      | .ctxExport => 0x06
      | .ctxImport => 0x07
      | .treeBuild => 0x10
      | .treeFree => 0x11 := by
  cases i <;> rfl

/-- The command words fill two runs of numbers. -/
theorem exists_encode_iff (w : Word) :
    (∃ i, w = encode i) ↔ (1 ≤ w.toNat ∧ w.toNat ≤ 0x07) ∨ (0x10 ≤ w.toNat ∧ w.toNat ≤ 0x11) := by
  constructor
  · rintro ⟨i, rfl⟩
    rw [encode_toNat]
    cases i <;> decide
  · intro h
    have hword : ∀ i, w.toNat = (encode i).toNat → ∃ i, w = encode i := fun i hi => ⟨i, BitVec.eq_of_toNat_eq hi⟩
    obtain h | h | h | h | h | h | h | h | h : w.toNat = 0x01 ∨ w.toNat = 0x02 ∨ w.toNat = 0x03 ∨ w.toNat = 0x04 ∨
      w.toNat = 0x05 ∨ w.toNat = 0x06 ∨ w.toNat = 0x07 ∨ w.toNat = 0x10 ∨ w.toNat = 0x11 := by omega
    · exact hword .ctxInit h
    · exact hword .ctxUpdate h
    · exact hword .ctxFinal h
    · exact hword .hash h
    · exact hword .compress h
    · exact hword .ctxExport h
    · exact hword .ctxImport h
    · exact hword .treeBuild h
    · exact hword .treeFree h

/-- The words between and around those two runs are R97's reserved encodings. -/
theorem decode_rejects_iff_reserved (w : Word) :
    (∃ e, decode w = .error e) ↔
      w.toNat / 256 ≠ 0 ∨ w.toNat % 256 = 0 ∨ (0x08 ≤ w.toNat % 256 ∧ w.toNat % 256 ≤ 0x0F) ∨ 0x12 ≤ w.toNat % 256 := by
  rw [decode_rejects_iff, ← not_exists, exists_encode_iff]
  omega

end Sys2Proof.Machine

open Sys2Proof Sys2Proof.Machine

/-- Settles O8: a decoded word has the fields of its command's word, and only a command's word is decoded. -/
theorem decodesToExactlyTheEncodedWord : Obligations.DecodesToExactlyTheEncodedWord := by
  refine ⟨decode_eq_ok_iff, encode_toNat, fun i => execute_of_command (decode_encode i), fun w s hw => ?_⟩
  obtain ⟨e, he⟩ := (decode_rejects_iff w).mpr hw
  exact execute_of_badCmd he s

/-- Settles O10: the words of no command are the reserved encodings, and each is a `BAD_CMD` completion. -/
theorem reservedWordsAreBadCmd : Obligations.ReservedWordsAreBadCmd :=
  ⟨decode_rejects_iff_reserved, fun _ _ s he => execute_of_badCmd he s⟩

/-- Settles O9: each word of the map is a command's encoding, and the table decoder reads it back. -/
theorem tableWordsDecode : Obligations.TableWordsDecode :=
  ⟨rfl, rfl, rfl, rfl, rfl, rfl, rfl, rfl, rfl, decodeTableWord_encode .ctxInit, decodeTableWord_encode .ctxUpdate,
    decodeTableWord_encode .ctxFinal, decodeTableWord_encode .hash, decodeTableWord_encode .compress,
    decodeTableWord_encode .ctxExport, decodeTableWord_encode .ctxImport, decodeTableWord_encode .treeBuild,
    decodeTableWord_encode .treeFree⟩

end

section
/-! A command in one equation (30_encoding.md R93, R96; 60_exceptions.md R202, R203, R220): it reports the error of its first
failing check, or has its effect and completes, or stops on an operand byte that was never written. -/

namespace Sys2Proof.Machine

/-! ## The effect of a command -/

/-- What a command does to the state before it completes, its checks passed; none where an operand byte it reads has never
been written. -/
def effect (i : Instr) (s : State) : Option State :=
  match i with
  | .ctxInit => some { s with ctx := freshHasher, fsm := .active }
  | .ctxUpdate => (readMessage s).map fun m => { s with ctx := absorb s.ctx m }
  | .ctxFinal => some { s with
      ctx := { s.ctx with v := padAndCompress s.ctx, buf := [] }, digest := padAndCompress s.ctx, fsm := .finalized }
  | .hash => (readMessage s).map fun m => { s with digest := hashWords m }
  | .compress => (readBlock s).map fun b => { s with sio := cf s.sio b }
  | .ctxExport => some { s with
      sio := s.ctx.v, cioLo := countLow s.ctx.bitcnt, cioHi := countHigh s.ctx.bitcnt }
  | .ctxImport => some { s with ctx := ⟨s.sio, s.cio, []⟩, fsm := .active }
  | .treeBuild => (readNodes s.mem 0 s.len.toNat).map fun leaves => { s with
      mem := writeNodes s.mem s.len.toNat (levelsAbove maxLevels leaves).flatten
      treeN := s.len
      treeDepth := BitVec.ofNat 32 (levelsAbove maxLevels leaves).length
      treeRoot := (leaves ++ (levelsAbove maxLevels leaves).flatten).getLastD zeroWords
      treeValid := true }
  | .treeFree => some { s with treeValid := false, treeN := 0, treeDepth := 0, treeRoot := zeroWords }

/-- How a command completes, from the error its checks report and its effect. -/
def outcome (c : ErrCode) (o : Option State) (s : State) : Host.Outcome State Fault Refusal :=
  match c, o with
  | .ok, some t => completeOk t
  | .ok, none => .fault .unwrittenRead
  | e, _ => completeError e s

/-- A failing check ends the command with its error; one that passes leaves the outcome to the next (60_exceptions.md R202). -/
theorem outcome_check (e : ErrCode) (he : e ≠ .ok) {p : Prop} [Decidable p] (c : ErrCode) (o : Option State) (s : State) :
    outcome (if p then e else c) o s = if p then completeError e s else outcome c o s := by
  split
  · cases e with
    | ok => exact absurd rfl he
    | _ => rfl
  · rfl

/-- The model's commands are their reported error and their effect. -/
theorem exec_eq (i : Instr) (s : State) : exec i s = outcome (reportedError i s) (effect i s) s := by
  cases i with
  | ctxInit => rfl
  | ctxUpdate =>
    rw [reportedError, outcome_check .ctxState nofun, outcome_check .lenRange nofun, effect, exec, execCtxUpdate]
    cases readMessage s with
    | none => rfl
    | some m => rfl
  | ctxFinal =>
    rw [reportedError, outcome_check .ctxState nofun]
    rfl
  | hash =>
    rw [reportedError, outcome_check .lenRange nofun, effect, exec, execHash]
    cases readMessage s with
    | none => rfl
    | some m => simp only [hash, words_ser]; rfl
  | compress =>
    rw [effect, exec, execCompress]
    cases readBlock s with
    | none => rfl
    | some b => rfl
  | ctxExport =>
    rw [reportedError, outcome_check .ctxState nofun]
    rfl
  | ctxImport =>
    rw [reportedError, outcome_check .importAlign nofun, ← cio_toNat]
    rfl
  | treeBuild =>
    have hzero : s.len = 0 ↔ s.len.toNat = 0 := (BitVec.toNat_inj (y := 0)).symm
    rw [reportedError, outcome_check .treeExists nofun, outcome_check .treeEmpty nofun, outcome_check .treeOvercap nofun,
      effect, exec, execTreeBuild]
    simp only [hzero, overCapacity_iff]
    cases readNodes s.mem 0 s.len.toNat with
    | none => rfl
    | some leaves => rfl
  | treeFree =>
    rw [reportedError, exec, execTreeFree]
    split
    · rfl
    · rfl

/-! ## The three outcomes -/

theorem exec_of_error {i : Instr} {s : State} (h : reportedError i s ≠ .ok) :
    exec i s = .next (finish (reportedError i s) s) := by
  rw [exec_eq]
  cases hc : reportedError i s with
  | ok => exact absurd hc h
  | _ => rfl

theorem exec_of_effect {i : Instr} {s u : State} (h : reportedError i s = .ok) (hu : effect i s = some u) :
    exec i s = .next (finish .ok u) := by
  rw [exec_eq, h, hu]
  rfl

theorem exec_of_noEffect {i : Instr} {s : State} (h : reportedError i s = .ok) (hu : effect i s = none) :
    exec i s = .fault .unwrittenRead := by
  rw [exec_eq, h, hu]
  rfl

/-- Every command is in one of the three cases. -/
theorem exec_cases (i : Instr) (s : State) :
    (reportedError i s ≠ .ok ∧ exec i s = .next (finish (reportedError i s) s)) ∨
    (∃ u, reportedError i s = .ok ∧ effect i s = some u ∧ exec i s = .next (finish .ok u)) ∨
    (reportedError i s = .ok ∧ effect i s = none ∧ exec i s = .fault .unwrittenRead) := by
  by_cases h : reportedError i s = .ok
  · cases hu : effect i s with
    | some u => exact .inr (.inl ⟨u, h, rfl, exec_of_effect h hu⟩)
    | none => exact .inr (.inr ⟨h, rfl, exec_of_noEffect h hu⟩)
  · exact .inl ⟨h, exec_of_error h⟩

theorem exec_next {i : Instr} {s t : State} (h : exec i s = .next t) :
    (reportedError i s ≠ .ok ∧ t = finish (reportedError i s) s) ∨
    ∃ u, reportedError i s = .ok ∧ effect i s = some u ∧ t = finish .ok u := by
  obtain ⟨he, hx⟩ | ⟨u, he, hu, hx⟩ | ⟨-, -, hx⟩ := exec_cases i s
  · cases hx.symm.trans h
    exact .inl ⟨he, rfl⟩
  · cases hx.symm.trans h
    exact .inr ⟨u, he, hu, rfl⟩
  · cases hx.symm.trans h

/-- Every completion clears `BUSY` and sets `DONE` (R91). -/
theorem exec_completes {i : Instr} {s t : State} (h : exec i s = .next t) : t.busy = false ∧ t.done = true := by
  obtain ⟨-, rfl⟩ | ⟨u, -, -, rfl⟩ := exec_next h
  · exact ⟨rfl, rfl⟩
  · exact ⟨rfl, rfl⟩

theorem execute_completes {op : Word} {s t : State} (h : execute op s = .next t) : t.busy = false ∧ t.done = true := by
  cases hd : decode op with
  | ok i => exact exec_completes ((execute_of_command hd s).symm.trans h)
  | error e =>
    cases (execute_of_badCmd hd s).symm.trans h
    exact ⟨rfl, rfl⟩

/-! ## No refusal -/

theorem exec_ne_refused (i : Instr) (s : State) (r : Refusal) : exec i s ≠ .refused r := by
  obtain ⟨-, hx⟩ | ⟨u, -, -, hx⟩ | ⟨-, -, hx⟩ := exec_cases i s
  all_goals
    rw [hx]
    exact nofun

theorem engineStep_ne_refused (s : State) (r : Refusal) : engineStep s ≠ .refused r := by
  cases he : s.engine with
  | idle => exact engineStep_of_idle he ▸ nofun
  | exec op =>
    rw [engineStep_of_exec he]
    cases hd : decode op with
    | ok i => exact execute_of_command hd s ▸ exec_ne_refused i s r
    | error e => exact execute_of_badCmd hd s ▸ nofun

theorem busAccess_ne_refused (a : BusAccess) (s : State) (r : Refusal) : busAccess a s ≠ .refused r := by
  by_cases hr : BusAccess.rejected a s
  · exact busAccess_of_rejected hr ▸ nofun
  · obtain ⟨t, d, hx, -⟩ | hx := busAccess_answers_of_accepted hr
    · exact hx ▸ nofun
    · exact hx ▸ nofun

theorem step_ne_refused (s : State) (r : Refusal) : step s ≠ .refused r := by
  cases hs : s.script with
  | nil => exact step_of_empty hs ▸ engineStep_ne_refused s r
  | cons e rest =>
    rw [step_of_cons hs]
    cases e with
    | access a => exact busAccess_ne_refused a _ r
    | engineTurn => exact engineStep_ne_refused _ r
    | powerOn => exact nofun

/-! ## Issue -/

/-- A write to `CMD` while idle (R91). -/
theorem idle_cmdWrite {s : State} (hb : s.busy = false) (w : Word) :
    busAccess (writeAccess 0x000 w) s = .next (respondWrite (issue w s)) :=
  idle_registerWrite hb (off := 0x000) rfl (by decide) w

/-- A write to `CMD` while busy issues nothing (60_exceptions.md R209). -/
theorem busy_cmdWrite {s : State} (hb : s.busy = true) (w : Word) :
    busAccess (writeAccess 0x000 w) s = .next (respondError true s) :=
  busAccess_of_rejected (.inr (.inr (.inr (.inl ⟨hb, rfl, (by decide : (0x000 : Word) ≠ 0x008)⟩))))

end Sys2Proof.Machine

open Sys2Proof Sys2Proof.Machine

/-- Settles O12: `CMD` is written like any register, and every completion is one `finish`. -/
theorem issueAndCompletion : Obligations.IssueAndCompletion :=
  ⟨fun _ w hb => idle_cmdWrite hb w, fun _ w hb => busy_cmdWrite hb w, fun _ _ he => engineStep_of_exec he,
    fun _ _ _ h => execute_completes h⟩

/-- Settles O28: a command answers or faults, and so does an access. -/
theorem nothingIsRefused : Obligations.NothingIsRefused := ⟨exec_ne_refused, step_ne_refused⟩

end

section
/-! What a command writes and reads (30_encoding.md R93). -/

namespace Sys2Proof.Machine

/-! ## Writes -/

/-- The nodes above the leaves fill the slots up to `T(N)` (42_merkle_tree.md R176, R177). -/
theorem built_slots_eq {m : Memory} {n : Nat} {leaves : List Words8} (h1 : 1 ≤ n) (h2 : n ≤ Config.maxLeaves)
    (hr : readNodes m 0 n = some leaves) : n + (levelsAbove maxLevels leaves).flatten.length = nodeCount n := by
  obtain ⟨hlen, -⟩ := (readNodes_eq_some _ _ _ _).mp hr
  have hlt := maxLeaves_lt
  have hcount := leaves_append_above_length leaves (by omega) (by omega)
  rwa [List.length_append, hlen] at hcount

/-- `TREE_BUILD` stores no byte outside the slots of the nodes above the leaves. -/
theorem execTreeBuild_read_outside {s t : State} (h : execTreeBuild s = .next t) {a : Nat}
    (ha : a < slotAddr s.len.toNat ∨ slotAddr (nodeCount s.len.toNat) ≤ a) :
    Memory.read t.mem a = Memory.read s.mem a := by
  obtain ⟨-, rfl⟩ | ⟨-, -, rfl⟩ | ⟨-, -, -, rfl⟩ | ⟨leaves, -, h1, h2, hr, rfl⟩ := execTreeBuild_next h
  · rfl
  · rfl
  · rfl
  · rw [← built_slots_eq h1 h2 hr] at ha
    exact read_writeNodes_outside _ _ _ a ha

theorem tmem_writer {i : Instr} (hi : i ≠ .treeBuild) : (writesOf i).tmem = false := by
  cases i with
  | treeBuild => exact absurd rfl hi
  | _ => rfl

/-! ## Reads -/

theorem readMessage_congr {s t : State} (hlen : s.len = t.len) (hbytes : SameBytes s t dinBase s.len.toNat) :
    readMessage s = readMessage t := by
  rw [readMessage, readMessage, ← hlen]
  exact readBytes_congr hbytes

theorem readNodes_congr {m m' : Memory} {slot n : Nat}
    (h : ∀ a, slotAddr slot ≤ a → a < slotAddr slot + 32 * n → Memory.read m a = Memory.read m' a) :
    readNodes m slot n = readNodes m' slot n := by
  induction n generalizing slot with
  | zero => rfl
  | succ n ih =>
    have hfirst : readNode m slot = readNode m' slot := readNode_congr fun a h1 h2 =>
      h a h1 (by simp only [slotAddr] at *; omega)
    have hrest : readNodes m (slot + 1) n = readNodes m' (slot + 1) n := ih fun a h1 h2 =>
      h a (by simp only [slotAddr] at *; omega) (by simp only [slotAddr] at *; omega)
    rw [readNodes, readNodes, hfirst, hrest]

/-- A command's checks look only at its 'reads' column. -/
theorem reportedError_congr {i : Instr} {s t : State} (h : ReadsAgree i s t) : reportedError i s = reportedError i t := by
  cases i with
  | ctxInit | compress => rfl
  | ctxUpdate =>
    obtain ⟨hlen, -, -, hfsm⟩ := h
    simp only [reportedError, hlen, hfsm]
  | ctxFinal =>
    obtain ⟨-, hfsm⟩ := h
    simp only [reportedError, hfsm]
  | hash =>
    obtain ⟨hlen, -⟩ := h
    simp only [reportedError, hlen]
  | ctxExport =>
    obtain ⟨-, -, hfsm⟩ := h
    simp only [reportedError, hfsm]
  | ctxImport =>
    obtain ⟨-, hlo, hhi⟩ := h
    simp only [reportedError, hlo, hhi]
  | treeBuild =>
    obtain ⟨hlen, -, hvalid⟩ := h
    simp only [reportedError, hlen, hvalid]
  | treeFree =>
    have hvalid : s.treeValid = t.treeValid := h
    simp only [reportedError, hvalid]

/-- Nodes just written read back the same, whatever the memory below them. -/
theorem readNode_writeNodes_congr (m m' : Memory) {first slot : Nat} {xs : List Words8} (hlo : first ≤ slot)
    (hhi : slot < first + xs.length) :
    readNode (writeNodes m first xs) slot = readNode (writeNodes m' first xs) slot := by
  obtain ⟨k, rfl⟩ := Nat.exists_eq_add_of_le hlo
  have hk : k < xs.length := by omega
  rw [readNode_writeNodes_inside m first xs k hk, readNode_writeNodes_inside m' first xs k hk]

/-- Two states that agree on a command's 'reads' column get the same written registers. -/
theorem effect_congr {i : Instr} {s t u : State} (h : ReadsAgree i s t) (hu : effect i s = some u) :
    ∃ v, effect i t = some v ∧ WrittenAgree i (finish .ok u) (finish .ok v) := by
  cases i with
  | ctxInit =>
    cases hu
    exact ⟨_, rfl, by simp [WrittenAgree, writesOf]⟩
  | ctxUpdate =>
    obtain ⟨hlen, hbytes, hctx, -⟩ := h
    obtain ⟨m, hm, rfl⟩ := Option.map_eq_some_iff.mp hu
    have hread := (readMessage_congr hlen hbytes).symm.trans hm
    exact ⟨_, congrArg (Option.map _) hread, by simp [WrittenAgree, writesOf, hctx]⟩
  | ctxFinal =>
    obtain ⟨hctx, -⟩ := h
    cases hu
    exact ⟨_, rfl, by simp [WrittenAgree, writesOf, hctx]⟩
  | hash =>
    obtain ⟨hlen, hbytes⟩ := h
    obtain ⟨m, hm, rfl⟩ := Option.map_eq_some_iff.mp hu
    have hread := (readMessage_congr hlen hbytes).symm.trans hm
    exact ⟨_, congrArg (Option.map _) hread, by simp [WrittenAgree, writesOf]⟩
  | compress =>
    obtain ⟨hsio, hbytes⟩ := h
    obtain ⟨b, hb, rfl⟩ := Option.map_eq_some_iff.mp hu
    have hread := (readBytes_congr hbytes).symm.trans hb
    exact ⟨_, congrArg (Option.map _) hread, by simp [WrittenAgree, writesOf, hsio]⟩
  | ctxExport =>
    obtain ⟨hv, hcount, -⟩ := h
    cases hu
    exact ⟨_, rfl, by simp [WrittenAgree, writesOf, hv, hcount]⟩
  | ctxImport =>
    obtain ⟨hsio, hlo, hhi⟩ := h
    cases hu
    exact ⟨_, rfl, by simp [WrittenAgree, writesOf, State.cio, hsio, hlo, hhi]⟩
  | treeBuild =>
    obtain ⟨hlen, hbytes, -⟩ := h
    obtain ⟨leaves, hl, rfl⟩ := Option.map_eq_some_iff.mp hu
    have hread := (readNodes_congr hbytes).symm.trans hl
    rw [hlen] at hread
    exact ⟨_, congrArg (Option.map _) hread, by simp [WrittenAgree, writesOf, hlen]⟩
  | treeFree =>
    cases hu
    exact ⟨_, rfl, by simp [WrittenAgree, writesOf]⟩

/-- A build whose checks pass is of a leaf count that fits (42_merkle_tree.md R178). -/
theorem treeBuild_leafCount {s : State} (h : reportedError .treeBuild s = .ok) :
    1 ≤ s.len.toNat ∧ s.len.toNat ≤ Config.maxLeaves := by
  simp only [reportedError] at h
  split_ifs at h with hvalid hzero hcap
  have hne : s.len.toNat ≠ 0 := fun h0 => hzero (BitVec.eq_of_toNat_eq h0)
  omega

/-- Two states that agree on the count and the leaves get the same built nodes. -/
theorem treeBuild_nodes_congr {s t u v : State} (hreads : ReadsAgree .treeBuild s t)
    (hu : effect .treeBuild s = some u) (hv : effect .treeBuild t = some v) (h1 : 1 ≤ s.len.toNat)
    (h2 : s.len.toNat ≤ Config.maxLeaves) {slot : Nat} (hlo : s.len.toNat ≤ slot)
    (hhi : slot < nodeCount s.len.toNat) : readNode u.mem slot = readNode v.mem slot := by
  obtain ⟨hlen, hbytes, -⟩ := hreads
  obtain ⟨leaves, hl, rfl⟩ := Option.map_eq_some_iff.mp hu
  obtain ⟨leaves', hl', rfl⟩ := Option.map_eq_some_iff.mp hv
  rw [← hlen, ← readNodes_congr hbytes, hl] at hl'
  cases hl'
  rw [← built_slots_eq h1 h2 hl] at hhi
  simp only [← hlen]
  exact readNode_writeNodes_congr s.mem t.mem hlo hhi

theorem writtenAgree_of_error {e : ErrCode} (he : e ≠ .ok) (i : Instr) (s t : State) :
    WrittenAgree i (finish e s) (finish e t) :=
  ⟨rfl, rfl, rfl, fun h => absurd h he⟩

end Sys2Proof.Machine

open Sys2Proof Sys2Proof.Machine

/-- Settles O23: `TMEM` is in the row of `TREE_BUILD` only, which fills the slots above the leaves. -/
theorem commandsWriteOnlyTheirRow : Obligations.CommandsWriteOnlyTheirRow := by
  refine fun i s t h => ⟨exec_onlyWrites h, ?_, fun hi a => ?_⟩
  · rintro rfl a ha
    exact execTreeBuild_read_outside h ha
  · rw [exec_mem_eq h (tmem_writer hi)]

/-- Settles O24: the checks and the effect are functions of the 'reads' column. -/
theorem commandsReadOnlyTheirRow : Obligations.CommandsReadOnlyTheirRow := by
  intro i s t s' hreads h
  have herr := reportedError_congr hreads
  obtain ⟨he, rfl⟩ | ⟨u, he, hu, rfl⟩ := exec_next h
  · refine ⟨_, exec_of_error (herr ▸ he), ?_, fun _ hok => absurd hok he⟩
    exact herr ▸ writtenAgree_of_error he i s t
  · obtain ⟨v, hv, hagree⟩ := effect_congr hreads hu
    refine ⟨_, exec_of_effect (herr ▸ he) hv, hagree, ?_⟩
    rintro rfl - slot hlo hhi
    obtain ⟨h1, h2⟩ := treeBuild_leafCount he
    exact treeBuild_nodes_congr hreads hu hv h1 h2 hlo hhi

end

section
/-! Running a host program (30_encoding.md R104, R105): each statement is one access, and a pseudo-statement is the run of
its accesses. -/

namespace Sys2Proof.Machine

/-! ## Steps of a host program -/

/-- `CMD` while idle latches the command (R91). -/
theorem step_issue {s : State} {i : Instr} {rest : List Event} (hb : s.busy = false)
    (hs : s.script = stmtEvents (.cmd i) ++ rest) :
    step s = .next (respondWrite (issue (encode i) { s with script := rest })) :=
  (step_of_cons hs).trans (idle_cmdWrite (s := { s with script := rest }) hb (encode i))

/-- A word written to `DIN` while idle is stored (20_memory.md R71). -/
theorem step_dinWrite {s : State} {a w : Word} {rest : List Event} (hb : s.busy = false)
    (hs : s.script = .access (writeAccess a w) :: rest) (ha : a.toNat % 4 = 0) (hr : regionAt a.toNat = .din) :
    step s = .next (respondWrite { s with script := rest, mem := Memory.writeBytes s.mem a.toNat (bytes32 w) }) :=
  (step_of_cons hs).trans <|
    busAccess_windowWrite (a := writeAccess a w) (s := { s with script := rest }) ha rfl rfl hb (.inl hr)

/-- `LEN` while idle takes the written word (10_state.md R33). -/
theorem step_lenWrite {s : State} {v : Word} {rest : List Event} (hb : s.busy = false)
    (hs : s.script = .access (writeAccess 0x00C v) :: rest) :
    step s = .next (respondWrite { s with script := rest, len := v }) :=
  (step_of_cons hs).trans (idle_registerWrite (s := { s with script := rest }) hb (off := 0x00C) rfl (by decide) v)

/-- A read of `STATUS` answers its word, busy or not (60_exceptions.md R209). -/
theorem step_statusRead {s : State} {rest : List Event} (hs : s.script = .access (readAccess 0x004) :: rest) :
    step s = .next { s with script := rest, busResp := some ⟨.okay, some s.statusWord⟩ } := by
  have hread := busAccess_registerRead (a := readAccess 0x004) (s := { s with script := rest }) rfl rfl rfl (by decide)
  have hfixed : freeWhileBusy (regAt (readAccess 0x004).addr.toNat) = false := rfl
  rw [hfixed, Bool.and_false, if_neg Bool.false_ne_true] at hread
  exact (step_of_cons hs).trans hread

theorem step_engineTurn {s : State} {i : Instr} {rest : List Event} (hs : s.script = .engineTurn :: rest)
    (he : s.engine = .exec (encode i)) : step s = exec i { s with script := rest } :=
  (step_of_cons hs).trans <| (engineStep_of_exec (s := { s with script := rest }) he).trans <|
    execute_of_command (decode_encode i) _

/-- The reads of `WAIT` that find the engine busy leave an answer and nothing else. -/
theorem run_polls (k n : Nat) {s : State} {rest : List Event}
    (hs : s.script = List.replicate n (.access (readAccess 0x004)) ++ rest) :
    ∃ r, Sys2Proof.core.run (k + n) s = Sys2Proof.core.run k { s with script := rest, busResp := r } := by
  induction n generalizing s with
  | zero =>
    have hrest : rest = s.script := hs.symm
    exact ⟨s.busResp, by rw [hrest, Nat.add_zero]⟩
  | succ n ih =>
    obtain ⟨r, hr⟩ := ih (s := { s with
      script := List.replicate n (.access (readAccess 0x004)) ++ rest, busResp := some ⟨.okay, some s.statusWord⟩ }) rfl
    exact ⟨r, (run_succ (k + n) (step_statusRead hs)).trans hr⟩

/-! ## Commands beside the bus -/

section
variable (script : List Event) (answer : Option BusResponse)

/-- The script and the bus's answer do not reach a command, nor does it touch them. -/
theorem reportedError_beside (i : Instr) (s : State) :
    reportedError i { s with script := script, busResp := answer } = reportedError i s := by
  cases i <;> rfl

theorem effect_beside (i : Instr) (s : State) :
    effect i { s with script := script, busResp := answer } =
      (effect i s).map fun u => { u with script := script, busResp := answer } := by
  cases i with
  | ctxInit | ctxFinal | ctxExport | ctxImport | treeFree => rfl
  | ctxUpdate | hash | compress | treeBuild =>
    rw [effect, effect, Option.map_map]
    rfl

theorem exec_beside {i : Instr} {s t : State} (h : exec i s = .next t) :
    exec i { s with script := script, busResp := answer } = .next { t with script := script, busResp := answer } := by
  have herr := reportedError_beside script answer i s
  obtain ⟨he, rfl⟩ | ⟨u, he, hu, rfl⟩ := exec_next h
  · rw [exec_of_error (by rwa [herr]), herr]
    rfl
  · exact exec_of_effect (by rwa [herr]) (by rw [effect_beside, hu]; rfl)

end

/-! ## Words into a window -/

theorem writeBytes_append (m : Memory) (a : Nat) (xs ys : List Byte) :
    Memory.writeBytes m a (xs ++ ys) = Memory.writeBytes (Memory.writeBytes m a xs) (a + xs.length) ys := by
  induction xs generalizing m a with
  | nil => rfl
  | cons x xs ih =>
    rw [List.cons_append, Memory.writeBytes, ih, Memory.writeBytes, List.length_cons]
    congr 1
    omega

theorem loadWordsEvents_length (base : Word) (ws : List Word) : (loadWordsEvents base ws).length = ws.length := by
  induction ws generalizing base with
  | nil => rfl
  | cons w ws ih => rw [loadWordsEvents, List.length_cons, List.length_cons, ih]

/-- `LOADWORDS` into `DIN` from an idle state stores the words' bytes and leaves an answer. -/
theorem run_loadWords (k : Nat) (ws : List Word) {s : State} {base : Word} {rest : List Event} (hb : s.busy = false)
    (hs : s.script = loadWordsEvents base ws ++ rest) (ha : base.toNat % 4 = 0) (hlo : 0x10000 ≤ base.toNat)
    (hhi : base.toNat + 4 * ws.length ≤ 0x11000) :
    ∃ r, Sys2Proof.core.run (k + ws.length) s = Sys2Proof.core.run k { s with
      script := rest, mem := Memory.writeBytes s.mem base.toNat (ws.flatMap bytes32), busResp := r } := by
  induction ws generalizing s base with
  | nil =>
    have hrest : rest = s.script := hs.symm
    exact ⟨s.busResp, by rw [hrest]; rfl⟩
  | cons w ws ih =>
    rw [List.length_cons] at hhi
    have hnext : (base + 4).toNat = base.toNat + 4 := by
      have hfour : (4 : Word).toNat = 4 := rfl
      rw [BitVec.toNat_add, hfour]
      omega
    have hstep := step_dinWrite hb hs ha (regionAt_of_din hlo (by omega))
    obtain ⟨r, hr⟩ := ih (s := respondWrite { s with
        script := loadWordsEvents (base + 4) ws ++ rest, mem := Memory.writeBytes s.mem base.toNat (bytes32 w) })
      (base := base + 4) hb rfl (by omega) (by omega) (by omega)
    refine ⟨r, (run_succ (k + ws.length) hstep).trans (hr.trans ?_)⟩
    rw [hnext, List.flatMap_cons, writeBytes_append]
    rfl

/-! ## Messages as words -/

theorem messageWords_length (msg : List Byte) : (messageWords msg).length = (msg.length + 3) / 4 := by
  induction msg using messageWords.induct with
  | case1 => rfl
  | case2 | case3 | case4 => simp [messageWords]
  | case5 a b c d rest ih =>
    simp only [messageWords, List.length_cons, ih]
    omega

/-- The words of a message are its bytes, then padding (R105). -/
theorem messageWords_bytes (msg : List Byte) : ∃ pad, (messageWords msg).flatMap bytes32 = msg ++ pad := by
  induction msg using messageWords.induct with
  | case1 => exact ⟨[], rfl⟩
  | case2 a => exact ⟨[0, 0, 0], by simp [messageWords]⟩
  | case3 a b => exact ⟨[0, 0], by simp [messageWords]⟩
  | case4 a b c => exact ⟨[0], by simp [messageWords]⟩
  | case5 a b c d rest ih =>
    obtain ⟨pad, hpad⟩ := ih
    exact ⟨pad, by simp [messageWords, hpad]⟩

theorem flatMap_bytes32_length (ws : List Word) : (ws.flatMap bytes32).length = 4 * ws.length := by
  simp [List.length_flatMap, Nat.mul_comm]

/-- The first of the bytes written read back. -/
theorem readBytes_writeBytes_append_left (m : Memory) (a : Nat) (bs pad : List Byte) :
    Memory.readBytes (Memory.writeBytes m a (bs ++ pad)) a bs.length = some bs := by
  refine (readBytes_eq_some _ _ _ _).mpr ⟨rfl, fun k hk => ?_⟩
  rw [read_writeBytes_inside m (bs ++ pad) a k (by simp; omega), List.getElem_append_left hk]

end Sys2Proof.Machine

open Sys2Proof Sys2Proof.Machine

/-- Settles O53: the message's words are its bytes, padded, and stand in `DIN` when `LEN` is written. -/
theorem loadMsgLoadsTheMessage : Obligations.LoadMsgLoadsTheMessage := by
  intro s msg hb hlen hs
  have hcount := messageWords_length msg
  obtain ⟨pad, hpad⟩ := messageWords_bytes msg
  obtain ⟨r, hr⟩ := run_loadWords 1 (messageWords msg) hb hs (by decide) (by decide) (by
    rw [hcount, BitVec.toNat_ofNat, dinBase_eq]; omega)
  have hlength : s.script.length = 1 + (messageWords msg).length := by
    rw [hs, pseudoEvents, List.length_append, loadWordsEvents_length, Nat.add_comm]
    rfl
  have hlenWord : (BitVec.ofNat 32 msg.length).toNat = msg.length := by
    rw [BitVec.toNat_ofNat]; omega
  rw [hlength]
  refine ⟨_, hr.trans (run_succ 0 (step_lenWrite hb rfl)), rfl, hb, hlenWord, ?_, fun a ha => ?_⟩
  · show Memory.readBytes (Memory.writeBytes s.mem dinBase ((messageWords msg).flatMap bytes32)) dinBase
      (BitVec.ofNat 32 msg.length).toNat = some msg
    rw [hlenWord, hpad]
    exact readBytes_writeBytes_append_left s.mem dinBase msg pad
  · refine read_writeBytes_outside s.mem _ _ a (.inr ?_)
    rw [flatMap_bytes32_length, hcount, BitVec.toNat_ofNat, dinBase_eq]
    omega

/-- Settles O54: the command runs in the engine's turn, and neither the polls nor the answers to them reach it. -/
theorem issueRunsTheCommand : Obligations.IssueRunsTheCommand := by
  intro s t i polls hb hs h
  have hlength : s.script.length = 2 + polls + 1 := by
    rw [hs]
    simp [pseudoEvents, stmtEvents, waitEvents, Nat.add_comm]
  obtain ⟨r, hr⟩ := run_polls 2 polls (s := respondWrite (issue (encode i) { s with script := waitEvents polls })) rfl
  have hexec := exec_beside [.access (readAccess 0x004)] r h
  rw [hlength]
  calc Sys2Proof.core.run (2 + polls + 1) s
      = Sys2Proof.core.run (2 + polls) (respondWrite (issue (encode i) { s with script := waitEvents polls })) :=
        run_succ _ (step_issue hb hs)
    _ = Sys2Proof.core.run 2 { respondWrite (issue (encode i) s) with
          script := [.engineTurn, .access (readAccess 0x004)], busResp := r } := hr
    _ = Sys2Proof.core.run 1 { t with script := [.access (readAccess 0x004)], busResp := r } :=
        run_succ 1 ((step_engineTurn rfl rfl).trans hexec)
    _ = .next { t with script := [], busResp := some ⟨.okay, some t.statusWord⟩ } := run_succ 0 (step_statusRead rfl)

end

section
/-! The compression core (40_compression_core.md): the expanded words (R117 to R119), the rounds of `CF` (R112 to R116, R120,
R121, R124) and the command `COMPRESS` (R123). -/

namespace Sys2Proof.Machine

/-! ## Message expansion -/

/-- Word `i` of a byte string (R118). -/
theorem bytesToWords_getD (d : List Byte) (i : Nat) (h : 4 * i + 3 < d.length) :
    (bytesToWords d).getD i 0 =
      be32 (d.getD (4 * i) 0) (d.getD (4 * i + 1) 0) (d.getD (4 * i + 2) 0) (d.getD (4 * i + 3) 0) := by
  induction d using bytesToWords.induct generalizing i with
  | case1 b0 b1 b2 b3 rest ih =>
    cases i with
    | zero => rfl
    | succ i => exact ih i (by simp only [List.length_cons] at h; omega)
  | case2 d hshort =>
    match d, hshort, h with
    | b0 :: b1 :: b2 :: b3 :: rest, hshort, _ => exact absurd rfl (hshort b0 b1 b2 b3 rest)

/-- Each further word is the next one of the words before it (R119). -/
theorem expandMore_succ (n : Nat) (ws : List Word) :
    expandMore (n + 1) ws = nextExpanded (expandMore n ws) :: expandMore n ws := by
  induction n generalizing ws with
  | zero => rfl
  | succ n ih => exact ih (nextExpanded ws :: ws)

theorem expandMore_length (n : Nat) (ws : List Word) : (expandMore n ws).length = n + ws.length := by
  induction n with
  | zero => exact (Nat.zero_add _).symm
  | succ n ih => rw [expandMore_succ, List.length_cons, ih, Nat.add_right_comm]

/-- In order of index, further words come after those already there. -/
theorem expandMore_reverse_getD_of_le {n m i : Nat} (ws : List Word) (hnm : n ≤ m) (hi : i < n + ws.length) :
    (expandMore m ws).reverse.getD i 0 = (expandMore n ws).reverse.getD i 0 := by
  induction m, hnm using Nat.le_induction with
  | base => rfl
  | succ m hnm ih =>
    rw [expandMore_succ, List.reverse_cons, List.getD_append _ _ _ _ (by simp [expandMore_length]; omega), ih]

theorem expand_length {block : List Byte} (hb : block.length = 64) : (expand block).length = 68 := by
  rw [expand, List.length_reverse, expandMore_length, List.length_reverse, bytesToWords_length 16 block hb]

/-- The first 16 words are the block's own (R118). -/
theorem expand_getD_of_lt {block : List Byte} (hb : block.length = 64) {i : Nat} (hi : i < 16) :
    (expand block).getD i 0 = (bytesToWords block).getD i 0 := by
  have hw := bytesToWords_length 16 block hb
  rw [expand, expandMore_reverse_getD_of_le (n := 0) _ (by omega) (by rw [List.length_reverse]; omega), expandMore,
    List.reverse_reverse]

/-- Entry `k` of the words that word `16 + n` is computed from is the word `k + 1` places before it. -/
theorem expandMore_getD_eq_expand {block : List Byte} (hb : block.length = 64) {n k : Nat} (hn : n ≤ 52)
    (hk : k < 16 + n) :
    (expandMore n (bytesToWords block).reverse).getD k 0 = (expand block).getD (16 + n - (k + 1)) 0 := by
  have hw := bytesToWords_length 16 block hb
  have hlen : (expandMore n (bytesToWords block).reverse).length = 16 + n := by
    rw [expandMore_length, List.length_reverse, hw, Nat.add_comm]
  rw [expand, expandMore_reverse_getD_of_le _ hn (by rw [List.length_reverse]; omega), List.getD_reverse _ (by omega), hlen]
  congr 1
  omega

/-- Each of the 52 words after them is the next one of the words before it (R119). -/
theorem expand_getD_of_ge {block : List Byte} (hb : block.length = 64) {n : Nat} (hn : n < 52) :
    (expand block).getD (16 + n) 0 = nextExpanded (expandMore n (bytesToWords block).reverse) := by
  have h := expandMore_getD_eq_expand hb (n := n + 1) (k := 0) hn (by omega)
  rw [expandMore_succ] at h
  exact h.symm

/-! ## Rounds -/

theorem get_xor (a b : Words8) (k : Fin 8) : (a.xor b).get k = a.get k ^^^ b.get k := by
  fin_cases k <;> rfl

/-- The rotation count of the round constant modulo 32 (R115). -/
theorem roundConst_eq (j : Nat) : roundConst j = (roundBase j).rotateLeft (j % 32) :=
  rotl_mod (roundBase j) j

/-! ## The command -/

/-- The block operand is the first 64 bytes of `DIN` (20_memory.md R72). -/
theorem readBlock_eq_some {s : State} {block : List Byte} (hb : block.length = 64)
    (hread : ∀ k (h : k < block.length), Memory.read s.mem (0x10000 + k) = some block[k]) : readBlock s = some block :=
  (readBytes_eq_some s.mem dinBase 64 block).mpr ⟨hb, hread⟩

/-- No check stands before `COMPRESS` (R123). -/
theorem exec_compress_of_readBlock {s : State} {block : List Byte} (h : readBlock s = some block) :
    exec .compress s = .next (finish .ok { s with sio := cf s.sio block }) :=
  exec_of_effect rfl (congrArg (Option.map _) h)

end Sys2Proof.Machine

open Sys2Proof Sys2Proof.Machine

/-- Settles O32: the model lists the words newest first, so word `i - 1 - k` is entry `k` of the words before word `i`. -/
theorem messageExpansion : Obligations.MessageExpansion := by
  intro block hb
  refine ⟨expand_length hb, fun i hi => ?_, fun i hlo hhi => ?_⟩
  · rw [expand_getD_of_lt hb hi, bytesToWords_getD block i (by omega)]
  · obtain ⟨n, rfl⟩ := Nat.exists_eq_add_of_le hlo
    have entry {k : Nat} (hk : k < 16) := expandMore_getD_eq_expand hb (n := n) (k := k) (by omega) (by omega)
    rw [expand_getD_of_ge hb (by omega), nextExpanded, entry (by decide : 15 < 16), entry (by decide : 8 < 16),
      entry (by decide : 2 < 16), entry (by decide : 12 < 16), entry (by decide : 5 < 16)]
    rfl

/-- Settles O17: the block is readable, and `COMPRESS` of a readable block always completes. -/
theorem compressCompletes : Obligations.CompressCompletes := by
  refine ⟨decode_encode .compress, fun s block hb hread => ?_⟩
  have hexec := exec_compress_of_readBlock (readBlock_eq_some hb hread)
  exact ⟨_, hexec, rfl, rfl, rfl, rfl, exec_onlyWrites hexec⟩

/-- Settles O33: the working variables after `j` rounds are the model's own; only the count of R115's rotation is written
otherwise there. -/
theorem compressionRounds : Obligations.CompressionRounds := by
  intro v block _
  refine ⟨fun j => cfRounds (expand block) j v, rfl, get_xor _ v, fun j _ => ?_⟩
  simp only [cfRounds, cfRound, roundConst_eq]
  rfl

end

section
/-! Absorbing (41_streaming_hasher.md R141 to R144, R150, R156, R157): an absorb compresses the full blocks of the buffered bytes
followed by the input, and keeps what is left. Every statement about splits, resumption and block counts follows from that. -/

namespace Sys2Proof.Machine

/-! ## The full blocks of a byte string -/

/-- The first `k` blocks of 64 bytes of a byte string: what R141's loop compresses. -/
def fullBlocks : Nat → List Byte → List (List Byte)
  | 0, _ => []
  | k + 1, bytes => bytes.take 64 :: fullBlocks k (bytes.drop 64)

theorem absorbBlocks_eq (k : Nat) (v : Words8) (bytes : List Byte) :
    absorbBlocks k v bytes = ((fullBlocks k bytes).foldl cf v, bytes.drop (64 * k)) := by
  induction k generalizing v bytes with
  | zero => rfl
  | succ k ih => rw [absorbBlocks, ih, List.drop_drop, Nat.mul_succ, Nat.add_comm 64]; rfl

@[simp] theorem fullBlocks_length (k : Nat) (bytes : List Byte) : (fullBlocks k bytes).length = k := by
  induction k generalizing bytes with
  | zero => rfl
  | succ k ih => simp [fullBlocks, ih]

theorem length_of_mem_fullBlocks {k : Nat} {bytes block : List Byte} (hk : 64 * k ≤ bytes.length)
    (hb : block ∈ fullBlocks k bytes) : block.length = 64 := by
  induction k generalizing bytes with
  | zero => cases hb
  | succ k ih =>
    obtain rfl | hb := List.mem_cons.mp hb
    · rw [List.length_take]; omega
    · exact ih (by rw [List.length_drop]; omega) hb

theorem flatten_fullBlocks (k : Nat) (bytes : List Byte) : (fullBlocks k bytes).flatten = bytes.take (64 * k) := by
  induction k generalizing bytes with
  | zero => rfl
  | succ k ih => rw [fullBlocks, List.flatten_cons, ih, Nat.mul_succ, Nat.add_comm, List.take_add]

/-- The full blocks are the only way to cut a byte string into blocks from the front. -/
theorem fullBlocks_flatten_append {blocks : List (List Byte)} (h : ∀ b ∈ blocks, b.length = 64) (rest : List Byte) :
    fullBlocks blocks.length (blocks.flatten ++ rest) = blocks := by
  induction blocks with
  | nil => rfl
  | cons b blocks ih =>
    obtain ⟨hb, hblocks⟩ := List.forall_mem_cons.mp h
    rw [List.length_cons, fullBlocks, List.flatten_cons, List.append_assoc, List.take_left' hb, List.drop_left' hb,
      ih hblocks]

theorem length_flatten_blocks {blocks : List (List Byte)} (h : ∀ b ∈ blocks, b.length = 64) :
    blocks.flatten.length = 64 * blocks.length := by
  rw [List.length_flatten, List.eq_replicate_of_mem (l := blocks.map List.length) (a := 64) (by simpa using h)]
  simp [Nat.mul_comm]

/-! ## Absorbing in one equation -/

/-- Too few bytes to fill the buffer are only appended to it. -/
theorem fillBuffer_of_lt {c : Hasher} {msg : List Byte} (h0 : 0 < c.buf.length) (h : c.buf.length + msg.length < 64) :
    fillBuffer c msg = ({ c with buf := c.buf ++ msg }, []) := by
  have hlen : (c.buf ++ msg).length ≠ 64 := by rw [List.length_append]; omega
  simp only [fillBuffer, if_pos h0, Nat.min_eq_right (show msg.length ≤ 64 - c.buf.length by omega), List.take_length,
    List.drop_length, if_neg hlen]

/-- Enough bytes fill the buffer to one block, which is compressed. -/
theorem fillBuffer_of_le {c : Hasher} {msg : List Byte} (h0 : 0 < c.buf.length) (hc : c.buf.length ≤ 63)
    (h : 64 ≤ c.buf.length + msg.length) :
    fillBuffer c msg =
      ({ c with v := cf c.v ((c.buf ++ msg).take 64), buf := [] }, (c.buf ++ msg).drop 64) := by
  have hlen : (c.buf ++ msg.take (64 - c.buf.length)).length = 64 := by
    rw [List.length_append, List.length_take]; omega
  simp only [fillBuffer, if_pos h0, Nat.min_eq_left (show 64 - c.buf.length ≤ msg.length by omega), if_pos hlen,
    List.take_append, List.drop_append, List.take_of_length_le (show c.buf.length ≤ 64 by omega),
    List.drop_eq_nil_of_le (show c.buf.length ≤ 64 by omega), List.nil_append]

theorem absorb_of_fillBuffer {c filled : Hasher} {msg rest : List Byte} (hmsg : msg ≠ [])
    (h : fillBuffer { c with bitcnt := c.bitcnt + BitVec.ofNat 64 (8 * msg.length) } msg = (filled, rest)) :
    absorb c msg =
      ⟨(fullBlocks (rest.length / 64) rest).foldl cf filled.v, filled.bitcnt,
        filled.buf ++ rest.drop (64 * (rest.length / 64))⟩ := by
  have hlen : msg.length ≠ 0 := fun h0 => hmsg (List.eq_nil_of_length_eq_zero h0)
  simp only [absorb, if_neg hlen, h, absorbBlocks_eq]

/-- R141: the full blocks of buffer and input are compressed, the rest is buffered, the bits are counted. -/
theorem absorb_eq {c : Hasher} (hc : c.buf.length ≤ 63) (msg : List Byte) :
    absorb c msg =
      ⟨(fullBlocks ((c.buf ++ msg).length / 64) (c.buf ++ msg)).foldl cf c.v,
        c.bitcnt + BitVec.ofNat 64 (8 * msg.length),
        (c.buf ++ msg).drop (64 * ((c.buf ++ msg).length / 64))⟩ := by
  have hlen : (c.buf ++ msg).length = c.buf.length + msg.length := List.length_append
  by_cases hmsg : msg = []
  · subst hmsg
    have hk : (c.buf ++ []).length / 64 = 0 := Nat.div_eq_of_lt (by rw [List.append_nil]; omega)
    rw [hk]
    simp [fullBlocks]
  by_cases hbuf : c.buf = []
  · rw [absorb_of_fillBuffer hmsg (if_neg (by simp [hbuf]))]
    simp [hbuf]
  have h0 : 0 < c.buf.length := List.length_pos_iff.mpr hbuf
  rcases Nat.lt_or_ge (c.buf.length + msg.length) 64 with hlt | hge
  · rw [absorb_of_fillBuffer hmsg (fillBuffer_of_lt h0 hlt),
      Nat.div_eq_of_lt (show (c.buf ++ msg).length < 64 by omega)]
    simp [fullBlocks]
  · obtain ⟨k, hk⟩ : ∃ k, (c.buf ++ msg).length / 64 = k + 1 := ⟨(c.buf ++ msg).length / 64 - 1, by omega⟩
    have hrest : ((c.buf ++ msg).drop 64).length / 64 = k := by rw [List.length_drop]; omega
    rw [absorb_of_fillBuffer hmsg (fillBuffer_of_le h0 hc hge)]
    simp only [hrest, hk, fullBlocks, List.foldl_cons, List.nil_append, List.drop_drop, Nat.mul_succ, Nat.add_comm 64]

/-- However buffer and input are cut into blocks and fewer than 64 bytes more, absorbing compresses these blocks and keeps these
bytes. -/
theorem absorb_of_blocks {c : Hasher} {msg rest : List Byte} {blocks : List (List Byte)} (hc : c.buf.length ≤ 63)
    (hblocks : ∀ b ∈ blocks, b.length = 64) (hrest : rest.length < 64) (h : c.buf ++ msg = blocks.flatten ++ rest) :
    absorb c msg = ⟨blocks.foldl cf c.v, c.bitcnt + BitVec.ofNat 64 (8 * msg.length), rest⟩ := by
  have hlen := length_flatten_blocks hblocks
  have hk : (blocks.flatten ++ rest).length / 64 = blocks.length := by rw [List.length_append]; omega
  rw [absorb_eq hc, h, hk, fullBlocks_flatten_append hblocks, List.drop_left' hlen]

theorem exists_absorb_blocks {c : Hasher} (hc : c.buf.length ≤ 63) (msg : List Byte) :
    ∃ blocks : List (List Byte), (∀ b ∈ blocks, b.length = 64) ∧ blocks.length = (c.buf.length + msg.length) / 64 ∧
      (absorb c msg).v = blocks.foldl cf c.v ∧ blocks.flatten ++ (absorb c msg).buf = c.buf ++ msg := by
  rw [absorb_eq hc]
  refine ⟨_, fun b hb => length_of_mem_fullBlocks (Nat.mul_div_le _ 64) hb, ?_, rfl, ?_⟩
  · rw [fullBlocks_length, List.length_append]
  · rw [flatten_fullBlocks, List.take_append_drop]

/-! ## Splits of the input (R143) -/

theorem absorb_buf_length_lt {c : Hasher} (hc : c.buf.length ≤ 63) (msg : List Byte) :
    (absorb c msg).buf.length < 64 := by
  rw [absorb_buf_length c msg hc]
  exact Nat.mod_lt _ (by decide)

/-- The blocks of the first part and those of the second are the blocks of the whole. -/
theorem absorb_append {c : Hasher} (hc : c.buf.length ≤ 63) (m m' : List Byte) :
    absorb c (m ++ m') = absorb (absorb c m) m' := by
  have hd : (absorb c m).buf.length ≤ 63 := Nat.le_of_lt_succ (absorb_buf_length_lt hc m)
  obtain ⟨blocks, h64, -, hv, hflat⟩ := exists_absorb_blocks hc m
  obtain ⟨blocks', h64', -, -, hflat'⟩ := exists_absorb_blocks hd m'
  rw [absorb_of_blocks hd h64' (absorb_buf_length_lt hd m') hflat'.symm,
    absorb_of_blocks (rest := (absorb (absorb c m) m').buf) hc (List.forall_mem_append.mpr ⟨h64, h64'⟩)
      (absorb_buf_length_lt hd m')
      (by rw [← List.append_assoc, ← hflat, List.append_assoc, ← hflat', List.flatten_append, List.append_assoc]),
    absorb_bitcnt, hv, List.foldl_append, List.length_append, Nat.mul_add, BitVec.ofNat_add, BitVec.add_assoc]

theorem foldl_absorb {c : Hasher} (hc : c.buf.length ≤ 63) (parts : List (List Byte)) :
    parts.foldl absorb c = absorb c parts.flatten := by
  induction parts generalizing c with
  | nil => rfl
  | cons part parts ih =>
    rw [List.foldl_cons, List.flatten_cons, absorb_append hc, ih (Nat.le_of_lt_succ (absorb_buf_length_lt hc part))]

/-- One byte completes a block or joins the buffer. -/
theorem absorb_singleton {c : Hasher} (hc : c.buf.length ≤ 63) (b : Byte) : absorb c [b] = absorbByte c b := by
  rw [absorbByte]
  split
  next h => exact absorb_of_blocks (blocks := [c.buf ++ [b]]) (rest := []) hc (by simpa using h) (by decide) (by simp)
  next h =>
    have hlt : (c.buf ++ [b]).length < 64 := by rw [List.length_append, List.length_singleton] at h ⊢; omega
    exact absorb_of_blocks (blocks := []) hc nofun hlt rfl

theorem absorb_eq_foldl_absorbByte {c : Hasher} (hc : c.buf.length ≤ 63) (msg : List Byte) :
    absorb c msg = msg.foldl absorbByte c := by
  induction msg generalizing c with
  | nil => rfl
  | cons b msg ih =>
    rw [List.foldl_cons, ← absorb_singleton hc, ← ih (Nat.le_of_lt_succ (absorb_buf_length_lt hc [b])),
      ← absorb_append hc]
    rfl

end Sys2Proof.Machine
end

section
/-! Padding and the one-shot hash (41_streaming_hasher.md R145 to R150, R156, R157). -/

namespace Sys2Proof.Machine

/-! ## The padding of a remainder -/

theorem pad_of_le {r : List Byte} (h : r.length ≤ 55) (c : BitCount) :
    pad r c = [r ++ 0x80 :: List.replicate (55 - r.length) 0 ++ bytes64 c] := by
  rw [pad, if_pos (by omega), List.append_assoc r]
  rfl

theorem pad_of_gt {r : List Byte} (h : 55 < r.length) (c : BitCount) :
    pad r c = [r ++ 0x80 :: List.replicate (63 - r.length) 0, List.replicate 56 0 ++ bytes64 c] := by
  rw [pad, if_neg (by omega), List.append_assoc r]
  rfl

/-- Both layouts of the padding have one shape: the remainder, `0x80`, the zero fill, the bit count. -/
theorem pad_flatten {r : List Byte} (h : r.length ≤ 63) (c : BitCount) :
    (pad r c).flatten =
      r ++ 0x80 :: List.replicate (if r.length ≤ 55 then 55 - r.length else 119 - r.length) 0 ++ bytes64 c := by
  rcases Nat.lt_or_ge 55 r.length with hr | hr
  · have hz : 119 - r.length = 63 - r.length + 56 := by omega
    rw [pad_of_gt hr, if_neg (by omega), hz, List.replicate_add]
    simp
  · rw [pad_of_le hr, if_pos hr]
    simp

theorem length_of_mem_pad {r block : List Byte} {c : BitCount} (h : r.length ≤ 63) (hb : block ∈ pad r c) :
    block.length = 64 := by
  rcases Nat.lt_or_ge 55 r.length with hr | hr
  · rw [pad_of_gt hr] at hb
    obtain rfl | hb := List.mem_cons.mp hb
    · simp; omega
    · obtain rfl := List.mem_singleton.mp hb
      simp
  · rw [pad_of_le hr] at hb
    obtain rfl := List.mem_singleton.mp hb
    simp; omega

theorem pad_length (r : List Byte) (c : BitCount) : (pad r c).length = finalCompressions r.length := by
  rcases Nat.lt_or_ge 55 r.length with hr | hr
  · rw [pad_of_gt hr, finalCompressions, if_neg (by omega)]; rfl
  · rw [pad_of_le hr, finalCompressions, if_pos hr]; rfl

theorem paddingBytes_length (n : Nat) : (n + (paddingBytes n).length) % 64 = 0 := by
  simp only [paddingBytes, List.length_append, List.length_singleton, List.length_replicate, bytes64_length]
  split <;> omega

/-! ## The one-shot hash -/

theorem absorb_freshHasher_bitcnt (msg : List Byte) :
    (absorb freshHasher msg).bitcnt = BitVec.ofNat 64 (8 * msg.length) := by
  rw [absorb_bitcnt, freshHasher_bitcnt, zero_add]

/-- The hash compresses the full blocks of the message, then the padding of the rest: the blocks of the padded message. -/
theorem exists_hashWords_blocks (msg : List Byte) :
    ∃ blocks : List (List Byte), (∀ b ∈ blocks, b.length = 64) ∧
      blocks.length = msg.length / 64 + finalCompressions (msg.length % 64) ∧
      blocks.flatten = msg ++ paddingBytes msg.length ∧ hashWords msg = blocks.foldl cf iv := by
  have hfresh : freshHasher.buf.length ≤ 63 := Nat.zero_le _
  obtain ⟨blocks, h64, hcount, hv, hflat⟩ := exists_absorb_blocks hfresh msg
  have hbuf := absorb_buf_length freshHasher msg hfresh
  simp only [freshHasher_buf, freshHasher_v, List.length_nil, Nat.zero_add, List.nil_append] at hcount hv hflat hbuf
  have hshort : (absorb freshHasher msg).buf.length ≤ 63 := by omega
  refine ⟨blocks ++ pad (absorb freshHasher msg).buf (absorb freshHasher msg).bitcnt,
    List.forall_mem_append.mpr ⟨h64, fun b => length_of_mem_pad hshort⟩, ?_, ?_, ?_⟩
  · rw [List.length_append, hcount, pad_length, hbuf]
  · rw [List.flatten_append, pad_flatten hshort, hbuf, absorb_freshHasher_bitcnt, List.append_assoc _ (0x80 :: _),
      ← List.append_assoc, hflat]
    rfl
  · rw [hashWords, padAndCompress, hv, List.foldl_append]

/-- R170: the two children are one full block, and the padding of an empty rest is the other. -/
theorem combine_eq (l r : Words8) :
    combine l r = cf (cf iv (ser l ++ ser r)) (0x80 :: List.replicate 55 0 ++ bytes64 512) := by
  have hcombine : combine l r = hashWords (ser l ++ ser r) := words_ser _
  have habsorb := absorb_of_blocks (c := freshHasher) (msg := ser l ++ ser r) (blocks := [ser l ++ ser r]) (rest := [])
    (Nat.zero_le _) (by simp) (by decide) (by simp)
  rw [hcombine, hashWords, habsorb, padAndCompress, pad_of_le (Nat.zero_le _), List.length_append, ser_length, ser_length]
  rfl

/-! ## Whole numbers of blocks (R156) -/

/-- After a whole number of blocks nothing is buffered. -/
theorem absorb_blocks {c : Hasher} {blocks : List (List Byte)} (hc : c.buf = []) (h64 : ∀ b ∈ blocks, b.length = 64) :
    absorb c blocks.flatten =
      ⟨blocks.foldl cf c.v, c.bitcnt + BitVec.ofNat 64 (8 * blocks.flatten.length), []⟩ :=
  absorb_of_blocks (by simp [hc]) h64 (by decide) (by simp [hc])

/-- R156: the context after a message and its padding is the exported digest of the message. -/
theorem absorb_padded (msg : List Byte) :
    absorb freshHasher (msg ++ paddingBytes msg.length) =
      ⟨hashWords msg, BitVec.ofNat 64 (8 * (msg.length + (paddingBytes msg.length).length)), []⟩ := by
  obtain ⟨blocks, h64, -, hflat, hhash⟩ := exists_hashWords_blocks msg
  rw [← hflat, absorb_blocks rfl h64, hflat, hhash, List.length_append, freshHasher_bitcnt, zero_add,
    freshHasher_v]

end Sys2Proof.Machine

open Sys2Proof Sys2Proof.Machine

/-- Settles O35: an absorb takes the full blocks of buffer and input, so it is the same however the input is split, into single
bytes too. -/
theorem chunkingInvariance : Obligations.ChunkingInvariance :=
  ⟨fun _ parts hc => foldl_absorb hc parts, fun _ msg hc => absorb_eq_foldl_absorbByte hc msg, absorb_bitcnt⟩

/-- Settles O36: the zero fill ends at 56 modulo 64 in either layout. -/
theorem paddingLayout : Obligations.PaddingLayout := fun r c hr =>
  ⟨fun _ => length_of_mem_pad hr, pad_length r c, if r.length ≤ 55 then 55 - r.length else 119 - r.length,
    by split <;> omega, by split <;> omega, pad_flatten hr c⟩

/-- Settles O34: the blocks of an absorb, of the padding, and of both one after the other. -/
theorem compressionCounts : Obligations.CompressionCounts :=
  ⟨fun _ msg hc => exists_absorb_blocks hc msg,
    fun c hc => ⟨fun _ => length_of_mem_pad hc, pad_length c.buf c.bitcnt, rfl⟩, exists_hashWords_blocks, combine_eq⟩

/-- Settles O39: a whole number of blocks leaves an empty buffer, and absorbing goes on from there. -/
theorem resumptionEquivalence : Obligations.ResumptionEquivalence := by
  intro m suffix hm _
  have hbuf : (absorb freshHasher m).buf = [] :=
    List.eq_nil_of_length_eq_zero ((absorb_buf_length freshHasher m (Nat.zero_le _)).trans (by simpa using hm))
  rw [absorb_append (Nat.zero_le _), ← hbuf, ← absorb_freshHasher_bitcnt]

/-- Settles O40: the digest and the padded length are the context after the padded message. -/
theorem lengthExtension : Obligations.LengthExtension := fun m suffix _ =>
  ⟨by rw [List.length_append, paddingBytes_length],
    by rw [← absorb_padded, ← absorb_append (Nat.zero_le _)]; rfl⟩

end

section
/-! The padding controller (41_streaming_hasher.md R147): its states fill the 64-byte storage until it holds a padded block. -/

namespace Sys2Proof.Machine

/-- Zeroing from the end of a first part on. -/
theorem zeroRange_append (pre rest : List Byte) {hi : Nat} (h : pre.length ≤ hi) :
    zeroRange (pre ++ rest) pre.length hi =
      pre ++ List.replicate (hi - pre.length) 0 ++ rest.drop (hi - pre.length) := by
  rw [zeroRange, List.take_left' rfl, Nat.max_eq_right h, List.drop_append, List.drop_eq_nil_of_le h, List.nil_append]

/-- `SPILL_ZERO` and `SPILL_CF`: the block is zeroed to its end and compressed. -/
theorem padControllerRun_spillZero (r : Nat) (c : BitCount) (buf : List Byte) (k : Nat) (v : Words8) :
    padControllerRun r c 2 ⟨.spillZero, buf, k, v, none⟩ =
      ⟨.zero, zeroRange buf k 64, 0, cf v (zeroRange buf k 64), none⟩ := rfl

/-- `ZERO`, `LEN`, `FINAL_CF` and `OUT`: from at most 56 kept bytes to the digest. -/
theorem padControllerRun_zero (r : Nat) (c : BitCount) (pre rest : List Byte) (v : Words8) (h : pre.length ≤ 56) :
    padControllerRun r c 4 ⟨.zero, pre ++ rest, pre.length, v, none⟩ =
      ⟨.ended, pre ++ List.replicate (56 - pre.length) 0 ++ bytes64 c, pre.length,
        cf v (pre ++ List.replicate (56 - pre.length) 0 ++ bytes64 c),
        some (cf v (pre ++ List.replicate (56 - pre.length) 0 ++ bytes64 c))⟩ := by
  have hlen : (pre ++ List.replicate (56 - pre.length) 0).length = 56 := by simp; omega
  simp only [padControllerRun, padControllerStep, zeroRange_append pre rest h, List.take_left' hlen]

theorem padControllerRun_succ (r : Nat) (c : BitCount) (n : Nat) (p : PadController) :
    padControllerRun r c (n + 1) p = padControllerRun r c n (padControllerStep r c p) := rfl

theorem padControllerRun_add (r : Nat) (c : BitCount) (m n : Nat) (p : PadController) :
    padControllerRun r c (m + n) p = padControllerRun r c n (padControllerRun r c m p) := by
  induction m generalizing p with
  | zero => rw [Nat.zero_add]; rfl
  | succ m ih => rw [Nat.add_right_comm, padControllerRun, ih]; rfl

section
variable (buf tail : List Byte) (v : Words8) (c : BitCount)

/-- `MARK`: the remainder and `0x80` come first in the storage. -/
theorem padControllerStep_mark :
    padControllerStep buf.length c (padControllerStart (buf ++ tail) v) =
      ⟨if buf.length + 1 ≤ 56 then .zero else .spillZero, buf ++ [0x80] ++ tail.drop 1, (buf ++ [0x80]).length, v,
        none⟩ := by
  simp only [padControllerStep, padControllerStart, List.take_left' rfl, List.drop_append,
    List.drop_eq_nil_of_le (Nat.le_succ buf.length), Nat.add_sub_cancel_left, List.nil_append, List.length_append,
    List.length_singleton]

theorem zeroRange_marked (hbuf : buf.length ≤ 63) (htail : buf.length + tail.length = 64) :
    zeroRange (buf ++ [0x80] ++ tail.drop 1) (buf ++ [0x80]).length 64 =
      buf ++ 0x80 :: List.replicate (63 - buf.length) 0 := by
  have hlen : (buf ++ [(0x80 : Byte)]).length = buf.length + 1 := by simp
  rw [zeroRange_append _ _ (by omega), hlen, show 64 - (buf.length + 1) = 63 - buf.length by omega, List.drop_drop,
    List.drop_eq_nil_of_le (by omega), List.append_nil, List.append_assoc]
  rfl

/-- Up to 55 bytes the marked remainder is padded at once. -/
theorem padControllerRun_of_le (h : buf.length ≤ 55) :
    (padControllerRun buf.length c 7 (padControllerStart (buf ++ tail) v)).st = .ended ∧
      (padControllerRun buf.length c 7 (padControllerStart (buf ++ tail) v)).digest = some ((pad buf c).foldl cf v) := by
  have hpre : (buf ++ [0x80]).length ≤ 56 := by rw [List.length_append, List.length_singleton]; omega
  rw [padControllerRun_succ _ _ 6, padControllerStep_mark, if_pos (by omega), padControllerRun_add _ _ 4 2,
    padControllerRun_zero _ _ _ _ _ hpre, pad_of_le h]
  exact ⟨rfl, by simp [padControllerRun, padControllerStep]⟩

/-- From 56 bytes on the marked block is zeroed to its end and compressed, and the second block is padded from its start. -/
theorem padControllerRun_of_gt (h : 55 < buf.length) (hbuf : buf.length ≤ 63) (htail : buf.length + tail.length = 64) :
    (padControllerRun buf.length c 7 (padControllerStart (buf ++ tail) v)).st = .ended ∧
      (padControllerRun buf.length c 7 (padControllerStart (buf ++ tail) v)).digest = some ((pad buf c).foldl cf v) := by
  have hpad := padControllerRun_zero buf.length c [] (buf ++ 0x80 :: List.replicate (63 - buf.length) 0)
    (cf v (buf ++ 0x80 :: List.replicate (63 - buf.length) 0)) (Nat.zero_le _)
  rw [List.nil_append, List.length_nil] at hpad
  rw [padControllerRun_succ _ _ 6, padControllerStep_mark, if_neg (by omega), padControllerRun_add _ _ 2 4,
    padControllerRun_spillZero, zeroRange_marked buf tail hbuf htail, hpad, pad_of_gt h]
  exact ⟨rfl, rfl⟩

end

end Sys2Proof.Machine

open Sys2Proof Sys2Proof.Machine

/-- Settles O37: the storage is the remainder and a tail, and either layout of the padding is reached from there. -/
theorem paddingControllerRefinesFinal : Obligations.PaddingControllerRefinesFinal := by
  intro c storage hbuf hlen htake
  rw [← List.take_append_drop c.buf.length storage, htake]
  rcases Nat.lt_or_ge 55 c.buf.length with h | h
  · exact padControllerRun_of_gt _ _ _ _ h hbuf (by rw [List.length_drop]; omega)
  · exact padControllerRun_of_le _ _ _ _ h

end

section
/-! The six commands of the streaming hasher (41_streaming_hasher.md R140, R142, R148, R151, R154, R155), what they give one after
the other (R150, R239), and the end of a context (R152). -/

namespace Sys2Proof.Machine

/-! ## Operands and results -/

/-- The message operand is the first `LEN` bytes of `DIN` (20_memory.md R72). -/
theorem readMessage_eq_some {s : State} {msg : List Byte} (hlen : msg.length = s.len.toNat)
    (hread : ∀ k (h : k < msg.length), Memory.read s.mem (0x10000 + k) = some msg[k]) : readMessage s = some msg :=
  (readBytes_eq_some s.mem dinBase s.len.toNat msg).mpr ⟨hlen, hread⟩

theorem countLow_toNat (c : BitCount) : (countLow c).toNat = c.toNat % 2 ^ 32 := by
  rw [countLow, BitVec.extractLsb'_toNat, Nat.shiftRight_zero]

theorem countHigh_toNat (c : BitCount) : (countHigh c).toNat = c.toNat / 2 ^ 32 := by
  rw [countHigh, BitVec.extractLsb'_toNat, Nat.shiftRight_eq_div_pow]
  exact Nat.mod_eq_of_lt (by have := c.isLt; omega)

theorem status_buflen_of_nil {s : State} (h : s.ctx.buf = []) : s.statusWord.extractLsb' 16 6 = 0 := by
  apply BitVec.eq_of_toNat_eq
  rw [status_buflen, h]
  rfl

theorem buflen_eq_zero_iff {s : State} (h : s.ctx.buf.length ≤ 63) : s.buflen = 0 ↔ s.ctx.buf = [] := by
  rw [State.buflen, ← BitVec.toNat_inj, BitVec.toNat_ofNat, Nat.mod_eq_of_lt (by omega), ← List.length_eq_zero_iff]
  rfl

/-! ## The commands whose checks pass -/

theorem exec_ctxInit (s : State) : exec .ctxInit s = .next (finish .ok { s with ctx := freshHasher, fsm := .active }) :=
  exec_of_effect rfl rfl

theorem exec_ctxUpdate_of_readMessage {s : State} {msg : List Byte} (hf : s.fsm = .active) (hlen : s.len.toNat ≤ 4096)
    (hmsg : readMessage s = some msg) :
    exec .ctxUpdate s = .next (finish .ok { s with ctx := absorb s.ctx msg }) := by
  refine exec_of_effect ?_ (congrArg (Option.map _) hmsg)
  rw [reportedError, if_neg (not_not_intro hf), if_neg (Nat.not_lt.mpr hlen)]

theorem exec_ctxFinal_of_active {s : State} (hf : s.fsm = .active) :
    exec .ctxFinal s = .next (finish .ok { s with
      ctx := { s.ctx with v := padAndCompress s.ctx, buf := [] }, digest := padAndCompress s.ctx, fsm := .finalized }) :=
  exec_of_effect (if_neg (not_not_intro hf)) rfl

theorem exec_hash_of_readMessage {s : State} {msg : List Byte} (hlen : s.len.toNat ≤ 4096)
    (hmsg : readMessage s = some msg) : exec .hash s = .next (finish .ok { s with digest := hashWords msg }) :=
  exec_of_effect (if_neg (Nat.not_lt.mpr hlen)) (congrArg (Option.map _) hmsg)

/-- The state after a `CTX_EXPORT` of an existing context (R154). -/
def exported (s : State) : State :=
  finish .ok { s with sio := s.ctx.v, cioLo := countLow s.ctx.bitcnt, cioHi := countHigh s.ctx.bitcnt }

theorem exec_ctxExport_of_context {s : State} (hf : s.fsm ≠ .uninit) : exec .ctxExport s = .next (exported s) :=
  exec_of_effect (if_neg hf) rfl

/-- `CTX_EXPORT` splits the bit count over `CIO_HI` and `CIO_LO`, and `CIO` puts it together again (30_encoding.md R94). -/
theorem cio_exported (s : State) : (exported s).cio = s.ctx.bitcnt := by
  apply BitVec.eq_of_toNat_eq
  rw [cio_toNat]
  exact (congrArg₂ (· * 2 ^ 32 + ·) (countHigh_toNat s.ctx.bitcnt) (countLow_toNat s.ctx.bitcnt)).trans
    (Nat.div_add_mod' ..)

theorem exec_ctxImport_of_aligned {s : State} (h : s.cio.toNat % 512 = 0) :
    exec .ctxImport s = .next (finish .ok { s with ctx := ⟨s.sio, s.cio, []⟩, fsm := .active }) := by
  refine exec_of_effect ?_ rfl
  rw [reportedError, ← cio_toNat, if_neg (not_not_intro h)]

/-! ## The commands whose checks fail -/

/-- A command whose check fails ends in that error (60_exceptions.md R203). -/
theorem exec_of_reportedError {i : Instr} {s : State} {e : ErrCode} (h : reportedError i s = e) (he : e ≠ .ok) :
    exec i s = .next (finish e s) := by
  subst h
  exact exec_of_error he

theorem exec_of_notActive {i : Instr} {s : State} (hf : s.fsm ≠ .active) (hi : i = .ctxUpdate ∨ i = .ctxFinal) :
    exec i s = .next (finish .ctxState s) := by
  obtain rfl | rfl := hi
  · exact exec_of_reportedError (if_pos hf) nofun
  · exact exec_of_reportedError (if_pos hf) nofun

theorem exec_ctxImport_of_misaligned {s : State} (h : s.cio.toNat % 512 ≠ 0) :
    exec .ctxImport s = .next (finish .importAlign s) := by
  refine exec_of_reportedError ?_ nofun
  rw [reportedError, ← cio_toNat, if_pos h]

/-- By R32 the bit count of an active context counts whole blocks exactly when nothing is buffered. -/
theorem bitcnt_aligned_iff {s : State} (h : Inv s) (hf : s.fsm = .active) :
    s.ctx.bitcnt.toNat % 512 = 0 ↔ s.buflen = 0 := by
  rw [buflen_eq_zero_iff h.bufShort, h.countMatches hf, ← List.length_eq_zero_iff]
  omega

/-- What an import leaves in the buffer (R155). -/
theorem exec_ctxImport_buf {s t : State} (h : exec .ctxImport s = .next t) (ha : s.cio.toNat % 512 = 0) :
    t.ctx.buf = [] := by
  cases (exec_ctxImport_of_aligned ha).symm.trans h
  rfl

/-! ## The end of a context (R152) -/

/-- An access that is no soft reset keeps the context's lifecycle state. -/
theorem access_fsm {s t : State} {a : BusAccess} (h : busAccess a s = .next t) (hnr : ¬ BusAccess.softResets a) :
    t.fsm = s.fsm := by
  obtain rfl | ⟨-, rfl | ⟨v, rfl⟩⟩ | ⟨hc, hw, rfl⟩ := busAccess_next h
  · rfl
  · rfl
  · rfl
  · obtain ⟨ha, hsize, -⟩ := busCheck_none hc
    rw [respondWrite_fsm]
    obtain ⟨-, he⟩ | ⟨-, he⟩ | ⟨-, he⟩ := hostWrite_cases a.addr.toNat a.wdata s
    · rw [he]
      obtain ⟨-, he⟩ | ⟨-, he⟩ | ⟨hreg, hv, -⟩ | ⟨-, -, he⟩ | ⟨l, sio, lo, hi, he⟩ :=
        regWrite_cases (regAt a.addr.toNat) a.wdata s
      · rw [he, issue_fsm]
      · rw [he]
      · exact absurd ⟨BitVec.eq_of_toNat_eq (regAt_ctrl ha hreg), hsize, hw, hv⟩ hnr
      · rw [he]
      · rw [he]
    · rw [he]
    · rw [he]

/-- Of the commands only `CTX_INIT` and `CTX_IMPORT` lead out of `FINALIZED` (10_state.md R31). -/
theorem exec_fsm_of_finalized {i : Instr} {s t : State} (hf : s.fsm = .finalized) (h : exec i s = .next t)
    (hinit : i ≠ .ctxInit) (himport : i ≠ .ctxImport) : t.fsm = .finalized := by
  rw [lifecycleTable i s t h]
  cases i with
  | ctxInit => exact absurd rfl hinit
  | ctxImport => exact absurd rfl himport
  | ctxFinal => simp [hf]
  | ctxUpdate | ctxExport | hash | compress | treeBuild | treeFree => exact hf

theorem engineStep_fsm_of_finalized {s t : State} (hf : s.fsm = .finalized) (h : engineStep s = .next t)
    (hi : ∀ op i, s.engine = .exec op → decode op = .ok i → i ≠ .ctxInit ∧ i ≠ .ctxImport) : t.fsm = .finalized := by
  obtain ⟨-, rfl⟩ | ⟨op, i, he, hd, hx⟩ | ⟨op, e, -, -, rfl⟩ := engineStep_next h
  · exact hf
  · obtain ⟨hinit, himport⟩ := hi op i he hd
    exact exec_fsm_of_finalized hf hx hinit himport
  · exact hf

end Sys2Proof.Machine

open Sys2Proof Sys2Proof.Machine

/-- Settles O13: no check stands before `CTX_INIT`, and its context is the fresh one. -/
theorem ctxInitCompletes : Obligations.CtxInitCompletes :=
  ⟨decode_encode .ctxInit, fun s => ⟨_, exec_ctxInit s, rfl, rfl, rfl, rfl, rfl, rfl, rfl, status_fsm _,
    status_buflen_of_nil rfl, exec_onlyWrites (exec_ctxInit s)⟩⟩

/-- Settles O14: the message is read and absorbed, which is absorbing its bytes one after the other. -/
theorem ctxUpdateCompletes : Obligations.CtxUpdateCompletes := by
  refine ⟨decode_encode .ctxUpdate, fun s msg hf hbuf hlen hmsg hread => ?_, fun s hf hlen => ?_,
    fun _ hf => exec_of_notActive hf (.inl rfl), fun s hf hlen => ?_⟩
  · have hexec := exec_ctxUpdate_of_readMessage hf hlen (readMessage_eq_some hmsg hread)
    refine ⟨_, hexec, absorb_eq_foldl_absorbByte hbuf msg, Nat.le_of_lt_succ (absorb_buf_length_lt hbuf msg), ?_, rfl, rfl,
      rfl, exec_onlyWrites hexec⟩
    rw [finish_ctx, absorb_bitcnt, BitVec.toNat_add, BitVec.toNat_ofNat, Nat.add_mod_mod]
  · have hempty : readMessage s = some [] := readMessage_eq_some (by rw [hlen]; rfl) nofun
    exact exec_ctxUpdate_of_readMessage hf (by rw [hlen]; decide) hempty
  · exact exec_of_reportedError ((if_neg (not_not_intro hf)).trans (if_pos hlen)) nofun

/-- Settles O15: the blocks of the padding are written out in both layouts. -/
theorem ctxFinalCompletes : Obligations.CtxFinalCompletes := by
  refine ⟨decode_encode .ctxFinal, fun s hf _ => ?_, fun _ hf => exec_of_notActive hf (.inr rfl)⟩
  have hexec := exec_ctxFinal_of_active hf
  refine ⟨_, hexec, fun hle => ?_, fun hgt => ?_, rfl, rfl, rfl, rfl, status_fsm _, status_buflen_of_nil rfl, rfl, rfl, rfl,
    exec_onlyWrites hexec⟩
  · rw [finish_digest, padAndCompress, pad_of_le hle]
    rfl
  · rw [finish_digest, padAndCompress, pad_of_gt hgt]
    rfl

/-- Settles O16: the message is read and hashed, in no context of the state's. -/
theorem hashCompletes : Obligations.HashCompletes := by
  refine ⟨decode_encode .hash, fun s msg hlen hmsg hread => ?_, fun _ hlen => exec_of_reportedError (if_pos hlen) nofun⟩
  have hexec := exec_hash_of_readMessage hlen (readMessage_eq_some hmsg hread)
  exact ⟨_, hexec, congrArg padAndCompress (absorb_eq_foldl_absorbByte (c := freshHasher) (Nat.zero_le _) msg), rfl, rfl, rfl,
    exec_onlyWrites hexec⟩

/-- Settles O18: `CIO` takes the two halves of the bit count. -/
theorem ctxExportCompletes : Obligations.CtxExportCompletes :=
  ⟨decode_encode .ctxExport, fun _ hf => ⟨_, exec_ctxExport_of_context hf, fun _ => rfl, countLow_toNat _, countHigh_toNat _,
    rfl, rfl, rfl, exec_onlyWrites (exec_ctxExport_of_context hf)⟩, fun _ hf => exec_of_uninit hf (.inr (.inr rfl))⟩

/-- Settles O19: the one check is that `CIO` counts whole blocks. -/
theorem ctxImportCompletes : Obligations.CtxImportCompletes := by
  refine ⟨decode_encode .ctxImport, fun s h => ?_, fun _ h => exec_ctxImport_of_misaligned (by rwa [cio_toNat])⟩
  have hexec := exec_ctxImport_of_aligned (s := s) (by rwa [cio_toNat])
  exact ⟨_, hexec, fun _ => rfl, cio_toNat s, rfl, rfl, status_fsm _, status_buflen_of_nil rfl, rfl, rfl, rfl,
    exec_onlyWrites hexec⟩

/-- Settles O30: outside `ACTIVE` the two commands fail their first check, and only the steps named lead out of `FINALIZED`. -/
theorem finalizedContextIsTerminal : Obligations.FinalizedContextIsTerminal := by
  refine ⟨fun s t h hok => ?_, fun _ _ hf hi => exec_of_notActive (hf ▸ nofun) hi, fun s t hf hs hreset hinit himport => ?_⟩
  · obtain ⟨-, rfl⟩ | ⟨-, rfl⟩ := execCtxFinal_next h
    · cases hok
    · rfl
  · have hcmd (hnext : EngineNext s) (op : Word) (i : Instr) (he : s.engine = .exec op) (hd : decode op = .ok i) :
        i ≠ .ctxInit ∧ i ≠ .ctxImport :=
      ⟨fun hi => hinit ⟨hnext, op, he, hi ▸ hd⟩, fun hi => himport ⟨hnext, op, he, hi ▸ hd⟩⟩
    obtain ⟨hscript, he⟩ | ⟨rest, hscript, he⟩ | ⟨a, rest, hscript, hb⟩ | ⟨rest, hscript, -⟩ := step_next hs
    · exact engineStep_fsm_of_finalized hf he (hcmd (.inl hscript))
    · exact engineStep_fsm_of_finalized (s := { s with script := rest }) hf he (hcmd (.inr ⟨rest, hscript⟩))
    · exact (access_fsm hb fun hr => hreset (.inr ⟨a, rest, hscript, hr⟩)).trans hf
    · exact absurd (.inl ⟨rest, hscript⟩) hreset

/-- Settles O38: both ways absorb the message into a fresh context and pad. -/
theorem hashEqualsInitUpdateFinal : Obligations.HashEqualsInitUpdateFinal := by
  intro s msg hlen hmsg hread
  have hm := readMessage_eq_some hmsg hread
  exact ⟨_, _, _, _, exec_hash_of_readMessage hlen hm, exec_ctxInit s, exec_ctxUpdate_of_readMessage rfl hlen hm,
    exec_ctxFinal_of_active rfl, rfl, rfl⟩

/-- Settles O41: after `CTX_EXPORT`, `CIO` holds the bit count, which R32 ties to the buffer; an import never fills the buffer. -/
theorem exportThenImportResumes : Obligations.ExportThenImportResumes := by
  refine ⟨fun s hinv hf hb => ?_, fun s hinv hf hb => ?_⟩
  · have hctx : (⟨s.ctx.v, (exported s).cio, []⟩ : Hasher) = s.ctx := by
      rw [cio_exported, ← (buflen_eq_zero_iff hinv.bufShort).mp hb]
    have himport := exec_ctxImport_of_aligned (s := exported s) (by rwa [cio_exported, bitcnt_aligned_iff hinv hf])
    exact ⟨_, _, exec_ctxExport_of_context (hf ▸ nofun), himport, hctx, rfl⟩
  · have himport := exec_ctxImport_of_misaligned (s := exported s) (by rwa [cio_exported, Ne, bitcnt_aligned_iff hinv hf])
    refine ⟨_, _, exec_ctxExport_of_context (hf ▸ nofun), himport, rfl, fun _ h => exec_ctxImport_buf h ?_⟩
    simp [cio_toNat]

end

section
/-! The Merkle tree (42_merkle_tree.md): the node count (R176), the commands `TREE_BUILD` (R174 to R179) and `TREE_FREE` (R182),
and that a held tree is immutable (R181). -/

namespace Sys2Proof.Machine

/-! ## The node count (R176) -/

/-- The levels above the leaves are those of the tree over level 1. -/
theorem levelOffset_succ_eq (n d : Nat) : levelOffset n (d + 1) = n + levelOffset ((n + 1) / 2) d := by
  induction d with
  | zero => exact Nat.add_comm 0 n
  | succ d ih =>
    rw [levelOffset, ih, levelSize_succ_eq, Nat.add_assoc]
    rfl

/-- Each level adds one slot at most to twice the leaves: the slot that rounding up adds. -/
theorem levelOffset_add_le (n d : Nat) : levelOffset n d + 2 * levelSize n d ≤ 2 * n + d := by
  induction d with
  | zero => simp [levelOffset, levelSize]
  | succ d ih =>
    simp only [levelOffset, levelSize]
    omega

theorem nodeCount_eq_sum {n : Nat} (h1 : 1 ≤ n) (h2 : n ≤ 2 ^ 32) :
    nodeCount n = ((List.range (Nat.clog 2 n + 1)).map (levelSize n)).sum := by
  rw [nodeCount_eq h1 h2, sum_levelSize]

theorem nodeCount_recurrence {n : Nat} (h1 : 1 < n) (h2 : n ≤ 2 ^ 32) :
    nodeCount n = n + nodeCount ((n + 1) / 2) := by
  rw [nodeCount_eq (by omega) h2, nodeCount_eq (by omega) (by omega), levelOffset_succ_eq, clog_two_succ h1]

theorem nodeCount_le {n : Nat} (h1 : 1 ≤ n) (h2 : n ≤ 2 ^ 32) : nodeCount n ≤ 2 * n + Nat.clog 2 n := by
  have hbound := levelOffset_add_le n (Nat.clog 2 n)
  rw [nodeCount_eq h1 h2, levelOffset, levelSize_clog h1]
  rw [levelSize_clog h1] at hbound
  omega

/-! ## `TREE_BUILD` (R178, R179) -/

theorem exec_treeBuild_of_held {s : State} (hv : s.treeValid = true) :
    exec .treeBuild s = .next (finish .treeExists s) :=
  exec_of_reportedError (if_pos hv) nofun

theorem exec_treeBuild_of_empty {s : State} (hv : s.treeValid = false) (hlen : s.len = 0) :
    exec .treeBuild s = .next (finish .treeEmpty s) :=
  exec_of_reportedError (by rw [reportedError, if_neg (by simp [hv]), if_pos hlen]) nofun

theorem len_ne_zero {s : State} (h : 0 < s.len.toNat) : s.len ≠ 0 := fun h0 => by
  rw [h0] at h
  exact Nat.lt_irrefl 0 h

theorem exec_treeBuild_of_overCapacity {s : State} (hv : s.treeValid = false) (hlen : Config.maxLeaves < s.len.toNat) :
    exec .treeBuild s = .next (finish .treeOvercap s) := by
  refine exec_of_reportedError ?_ nofun
  rw [reportedError, if_neg (by simp [hv]), if_neg (len_ne_zero (Nat.zero_lt_of_lt hlen)), if_pos hlen]

/-- The state with the tree over `leaves` in `TMEM` and the registers (R177, R179). -/
def built (s : State) (leaves : List Words8) : State :=
  { s with
    mem := writeNodes s.mem s.len.toNat (levelsAbove maxLevels leaves).flatten
    treeN := s.len
    treeDepth := BitVec.ofNat 32 (levelsAbove maxLevels leaves).length
    treeRoot := (leaves ++ (levelsAbove maxLevels leaves).flatten).getLastD zeroWords
    treeValid := true }

theorem exec_treeBuild_of_leaves {s : State} {leaves : List Words8} (hv : s.treeValid = false) (h1 : 1 ≤ s.len.toNat)
    (h2 : s.len.toNat ≤ Config.maxLeaves) (hr : readNodes s.mem 0 s.len.toNat = some leaves) :
    exec .treeBuild s = .next (finish .ok (built s leaves)) := by
  refine exec_of_effect ?_ (congrArg (Option.map (built s)) hr)
  rw [reportedError, if_neg (by simp [hv]), if_neg (len_ne_zero h1), if_neg (Nat.not_lt.mpr h2)]

/-- Where every leaf is written the builder reads them all. -/
theorem readNodes_of_leaves {m : Memory} {leaf : Nat → Words8} {n : Nat} (h : ∀ i, i < n → readNode m i = some (leaf i)) :
    readNodes m 0 n = some ((List.range n).map leaf) := by
  refine (readNodes_eq_some _ _ _ _).mpr ⟨by simp, fun k hk => ?_⟩
  rw [Nat.zero_add, List.getElem_map, List.getElem_range]
  exact h k (by simpa using hk)

/-- The depth of a tree over a 32-bit leaf count fits its register (R175). -/
theorem clog_word_toNat {n : Nat} (h : n ≤ 2 ^ 32) : (BitVec.ofNat 32 (Nat.clog 2 n)).toNat = Nat.clog 2 n := by
  have hclog : Nat.clog 2 n ≤ 32 := Nat.clog_le_of_le_pow h
  rw [BitVec.toNat_ofNat]
  omega

/-! ## `TREE_FREE` (R182) -/

theorem exec_treeFree_of_held {s : State} (hv : s.treeValid = true) :
    exec .treeFree s =
      .next (finish .ok { s with treeValid := false, treeN := 0, treeDepth := 0, treeRoot := zeroWords }) :=
  exec_of_effect (if_pos hv) rfl

theorem exec_treeFree_of_noTree {s : State} (hv : s.treeValid = false) :
    exec .treeFree s = .next (finish .treeNone s) :=
  exec_of_reportedError (by rw [reportedError, if_neg (by simp [hv])]) nofun

/-! ## A held tree (R181) -/

/-- `t` holds the tree of `s`: the same registers and the same bytes of `TMEM`. -/
def KeepsTree (s t : State) : Prop :=
  t.treeValid = true ∧ t.treeN = s.treeN ∧ t.treeDepth = s.treeDepth ∧ t.treeRoot = s.treeRoot ∧
    ∀ a, 0x1000000 ≤ a → Memory.read t.mem a = Memory.read s.mem a

/-- With a tree held a second build is an error, and no other command but `TREE_FREE` has the tree in its row. -/
theorem exec_keepsTree {i : Instr} {s t : State} (hv : s.treeValid = true) (h : exec i s = .next t)
    (hi : i ≠ .treeFree) : KeepsTree s t := by
  cases i with
  | treeFree => exact absurd rfl hi
  | treeBuild =>
    cases (exec_treeBuild_of_held hv).symm.trans h
    exact ⟨hv, rfl, rfl, rfl, fun _ _ => rfl⟩
  | ctxInit | ctxUpdate | ctxFinal | hash | compress | ctxExport | ctxImport =>
    obtain ⟨hvalid, hn, hdepth, hroot⟩ := exec_tree_eq h rfl
    exact ⟨hvalid.trans hv, hn, hdepth, hroot, fun _ _ => by rw [exec_mem_eq h rfl]⟩

theorem engineStep_keepsTree {s t : State} (hv : s.treeValid = true) (h : engineStep s = .next t)
    (hi : ∀ op i, s.engine = .exec op → decode op = .ok i → i ≠ .treeFree) : KeepsTree s t := by
  obtain ⟨-, rfl⟩ | ⟨op, i, he, hd, hx⟩ | ⟨op, e, -, -, rfl⟩ := engineStep_next h
  · exact ⟨hv, rfl, rfl, rfl, fun _ _ => rfl⟩
  · exact exec_keepsTree hv hx (hi op i he hd)
  · exact ⟨hv, rfl, rfl, rfl, fun _ _ => rfl⟩

theorem access_keepsTree {s t : State} {a : BusAccess} (hv : s.treeValid = true) (h : busAccess a s = .next t)
    (hnr : ¬ BusAccess.softResets a) : KeepsTree s t := by
  obtain ⟨hvalid, hn, hdepth, hroot, -, hmem⟩ := access_tree h hnr
  exact ⟨hvalid.trans hv, hn, hdepth, hroot, hmem hv⟩

/-- A host write to a held tree's window is a bus error (20_memory.md R68). -/
theorem tmemWrite_of_held {s : State} {a : BusAccess} (hv : s.treeValid = true) (hw : a.we = true)
    (hlo : 0x1000000 ≤ a.addr.toNat) : busAccess a s = .next (respondError true s) := by
  have hrejected : BusAccess.rejected a s := .inr (.inr (.inr (.inr ⟨hw, hlo, hv⟩)))
  rw [busAccess_of_rejected hrejected, hw]

end Sys2Proof.Machine

open Sys2Proof Sys2Proof.Machine

/-- Settles O5: of the steps that are no reset, an access keeps a held tree and of the commands only `TREE_FREE` does not. -/
theorem aHeldTreeIsImmutable : Obligations.AHeldTreeIsImmutable := by
  refine ⟨fun s t hv hs hreset hfree => ?_, fun s a hv hw hlo => tmemWrite_of_held hv hw hlo,
    fun s hv => exec_treeBuild_of_held hv⟩
  have hcmd (hnext : EngineNext s) (op : Word) (i : Instr) (he : s.engine = .exec op) (hd : decode op = .ok i) :
      i ≠ .treeFree := fun hi => hfree ⟨hnext, op, he, hi ▸ hd⟩
  obtain ⟨hscript, he⟩ | ⟨rest, hscript, he⟩ | ⟨a, rest, hscript, hb⟩ | ⟨rest, hscript, -⟩ := step_next hs
  · exact engineStep_keepsTree hv he (hcmd (.inl hscript))
  · exact engineStep_keepsTree (s := { s with script := rest }) hv he (hcmd (.inr ⟨rest, hscript⟩))
  · exact access_keepsTree (s := { s with script := rest }) hv hb fun hr => hreset (.inr ⟨a, rest, hscript, hr⟩)
  · exact absurd (.inl ⟨rest, hscript⟩) hreset

/-- Settles O20: the builder reads the given leaves, and the levels it makes of them are the spec's tree. -/
theorem treeBuildCompletes : Obligations.TreeBuildCompletes := by
  refine ⟨decode_encode .treeBuild, fun s leaf hv h1 h2 hleaf => ?_⟩
  have hword : s.len.toNat ≤ 2 ^ 32 := Nat.le_of_lt s.len.isLt
  have hread := readNodes_of_leaves hleaf
  have hexec := exec_treeBuild_of_leaves hv h1 h2 hread
  obtain ⟨hheld, hdepth, hroot⟩ := build_holds h1 hword hread leaf hleaf
  exact ⟨_, hexec, hheld, rfl, rfl, (congrArg (fun d => (BitVec.ofNat 32 d).toNat) hdepth).trans (clog_word_toNat hword),
    hroot, fun _ => execTreeBuild_read_outside hexec, rfl, rfl, rfl, exec_onlyWrites hexec⟩

/-- Settles O55: the levels' sizes add up to an offset, which the recurrence peels from below and rounding bounds. (The name
`nodeCount` is the model's function's.) -/
theorem nodeCountFacts : Obligations.NodeCount :=
  ⟨fun _ => nodeCount_eq_sum, by decide, fun _ => nodeCount_recurrence, fun _ => nodeCount_le, by decide, by decide,
    by decide, by decide, rfl⟩

/-- Settles O21: each error is the first of the checks that fails. -/
theorem treeBuildErrors : Obligations.TreeBuildErrors :=
  ⟨fun _ hv => exec_treeBuild_of_held hv, fun _ hv hlen => exec_treeBuild_of_empty hv hlen,
    fun _ hv hlen => exec_treeBuild_of_overCapacity hv hlen⟩

/-- Settles O22: the tree registers take their reset values and nothing else of the tree is touched. -/
theorem treeFreeCompletes : Obligations.TreeFreeCompletes :=
  ⟨decode_encode .treeFree, fun _ hv => ⟨_, exec_treeFree_of_held hv, rfl, rfl, rfl, zeroWords_get, rfl,
    status_treeValid _, rfl, rfl, rfl, exec_onlyWrites (exec_treeFree_of_held hv)⟩, fun _ hv => exec_treeFree_of_noTree hv⟩

end

section
/-! The proof consumer (43_proof_consumer.md): inclusion proofs (R190, R191, R195) and non-inclusion proofs (R192 to R195, D26). -/

namespace Sys2Proof.Machine

/-! ## The sibling of a node (R190) -/

/-- The entry's index beside node `j` of a level of `n` nodes: the sibling's, or `j` itself where it has none. -/
def siblingIndex (n j : Nat) : Nat := if j ^^^ 1 < n then j ^^^ 1 else j

theorem siblingIndex_of_even {n j : Nat} (h : j % 2 = 0) : siblingIndex n j = if j + 1 < n then j + 1 else j := by
  rw [siblingIndex, Nat.xor_one_of_even (Nat.even_iff.mpr h)]

theorem siblingIndex_of_odd {n j : Nat} (h : j % 2 = 1) (hj : j < n) : siblingIndex n j = j - 1 := by
  rw [siblingIndex, Nat.xor_one_of_odd (Nat.odd_iff.mpr h), if_pos (by omega)]

theorem siblingIndex_lt {n j : Nat} (hj : j < n) : siblingIndex n j < n := by
  unfold siblingIndex
  split
  · assumption
  · exact hj

/-- The ancestor of leaf `i` on each level is one of the level's nodes. -/
theorem ancestor_lt_levelSize {n i : Nat} (hi : i < n) (l : Nat) : i / 2 ^ l < levelSize n l := by
  induction l with
  | zero => simpa [levelSize] using hi
  | succ l ih =>
    rw [Nat.pow_succ, ← Nat.div_div_eq_div_mul, levelSize]
    omega

/-- The levels above the leaves are those of the tree over level 1. -/
theorem map_levelSize_range_succ (n d : Nat) :
    (List.range (d + 1)).map (levelSize n) = n :: (List.range d).map (levelSize ((n + 1) / 2)) := by
  rw [List.range_succ_eq_map, List.map_cons, List.map_map]
  exact congrArg (n :: ·) (List.map_congr_left fun l _ => levelSize_succ_eq n l)

theorem siblingSlots_cons_cons (base i n m : Nat) (rest : List Nat) :
    siblingSlots base i (n :: m :: rest) =
      (base + siblingIndex n i) :: siblingSlots (base + n) (i / 2) (m :: rest) := rfl

/-- The slots from the leaves up, each at its level's offset (R177). -/
theorem siblingSlots_levelSize (base i n d : Nat) :
    siblingSlots base i ((List.range (d + 1)).map (levelSize n)) =
      (List.range d).map fun l => base + (levelOffset n l + siblingIndex (levelSize n l) (i / 2 ^ l)) := by
  induction d generalizing base i n with
  | zero => rfl
  | succ d ih =>
    rw [map_levelSize_range_succ, map_levelSize_range_succ, siblingSlots_cons_cons, ← map_levelSize_range_succ, ih,
      List.range_succ_eq_map, List.map_cons, List.map_map]
    congr 1
    · simp [levelOffset, levelSize]
    · refine List.map_congr_left fun l _ => ?_
      simp only [Function.comp, Nat.succ_eq_add_one, levelOffset_succ_eq, levelSize_succ_eq, Nat.div_div_eq_div_mul,
        Nat.pow_succ', Nat.add_assoc]

theorem readSlots_map {m : Memory} {ls : List Nat} {slot : Nat → Nat} {node : Nat → Words8}
    (h : ∀ l ∈ ls, readNode m (slot l) = some (node l)) : readSlots m (ls.map slot) = some (ls.map node) := by
  induction ls with
  | nil => rfl
  | cons l ls ih =>
    obtain ⟨hl, hls⟩ := List.forall_mem_cons.mp h
    simp only [List.map_cons, readSlots, hl, ih hls]

/-! ## The running hash (R191) -/

theorem climb_append_singleton (h : Words8) (i : Nat) (proof : List Words8) (e : Words8) :
    climb h i (proof ++ [e]) =
      if (i / 2 ^ proof.length) % 2 = 0 then combine (climb h i proof) e else combine e (climb h i proof) := by
  induction proof generalizing h i with
  | nil => simp [climb]
  | cons x xs ih =>
    simp only [List.cons_append, climb, ih, List.length_cons, Nat.pow_succ', Nat.div_div_eq_div_mul]

theorem climb_take_succ (h : Words8) (i : Nat) (proof : List Words8) {l : Nat} (hl : l < proof.length) :
    climb h i (proof.take (l + 1)) =
      if (i / 2 ^ l) % 2 = 0 then combine (climb h i (proof.take l)) (proof.getD l zeroWords)
      else combine (proof.getD l zeroWords) (climb h i (proof.take l)) := by
  rw [List.take_succ_eq_append_getElem hl, climb_append_singleton, List.length_take_of_le hl.le,
    List.getD_eq_getElem _ _ hl]

/-- A node's parent combines it with its sibling, in the order its parity gives (R174). -/
theorem nodeValue_parent (leaf : Nat → Words8) {n l j : Nat} (hj : j < levelSize n l) :
    nodeValue leaf n (l + 1) (j / 2) =
      if j % 2 = 0 then combine (nodeValue leaf n l j) (nodeValue leaf n l (siblingIndex (levelSize n l) j))
      else combine (nodeValue leaf n l (siblingIndex (levelSize n l) j)) (nodeValue leaf n l j) := by
  rcases Nat.mod_two_eq_zero_or_one j with h | h
  · rw [if_pos h, siblingIndex_of_even h, nodeValue, show 2 * (j / 2) = j by omega, apply_ite (nodeValue leaf n l),
      apply_ite (combine _)]
  · rw [if_neg (by omega), siblingIndex_of_odd h hj, nodeValue, show 2 * (j / 2) = j - 1 by omega,
      show j - 1 + 1 = j by omega, if_pos hj]

/-- The siblings of leaf `i`'s ancestors on the `d` levels from the leaves up. -/
def siblings (leaf : Nat → Words8) (n i d : Nat) : List Words8 :=
  (List.range d).map fun l => nodeValue leaf n l (siblingIndex (levelSize n l) (i / 2 ^ l))

@[simp] theorem siblings_length (leaf : Nat → Words8) (n i d : Nat) : (siblings leaf n i d).length = d := by
  simp [siblings]

theorem siblings_getD (leaf : Nat → Words8) (n i : Nat) {d l : Nat} (hl : l < d) :
    (siblings leaf n i d).getD l zeroWords = nodeValue leaf n l (siblingIndex (levelSize n l) (i / 2 ^ l)) := by
  rw [List.getD_eq_getElem _ _ (by simpa using hl)]
  simp [siblings]

/-- Over the siblings the running hash goes through the leaf's ancestors. -/
theorem climb_siblings (leaf : Nat → Words8) {n i : Nat} (hi : i < n) (d : Nat) :
    climb (leaf i) i (siblings leaf n i d) = nodeValue leaf n d (i / 2 ^ d) := by
  induction d with
  | zero => simp [siblings, climb, nodeValue]
  | succ d ih =>
    have hsnoc : siblings leaf n i (d + 1) =
        siblings leaf n i d ++ [nodeValue leaf n d (siblingIndex (levelSize n d) (i / 2 ^ d))] := by
      simp [siblings, List.range_succ]
    rw [hsnoc, climb_append_singleton, ih, siblings_length, ← nodeValue_parent leaf (ancestor_lt_levelSize hi d),
      Nat.pow_succ, Nat.div_div_eq_div_mul]

/-! ## Inclusion proofs of a held tree -/

theorem readNode_sibling {m : Memory} {leaf : Nat → Words8} {n d i l : Nat} (h : HoldsTree m leaf n d) (hi : i < n)
    (hl : l < d) : readNode m (levelOffset n l + siblingIndex (levelSize n l) (i / 2 ^ l)) =
      some (nodeValue leaf n l (siblingIndex (levelSize n l) (i / 2 ^ l))) :=
  h l (Nat.le_of_lt hl) _ (siblingIndex_lt (ancestor_lt_levelSize hi l))

theorem readSlots_siblings {m : Memory} {leaf : Nat → Words8} {n i : Nat} (h : HoldsTree m leaf n (Nat.clog 2 n))
    (hi : i < n) (hn : n ≤ 2 ^ 32) :
    readSlots m (siblingSlots 0 i (levelSizes maxLevels n)) = some (siblings leaf n i (Nat.clog 2 n)) := by
  rw [levelSizes_eq maxLevels n (by omega) hn, siblingSlots_levelSize]
  refine readSlots_map fun l hl => ?_
  rw [Nat.zero_add, readNode_sibling h hi (List.mem_range.mp hl)]

theorem climb_siblings_root (leaf : Nat → Words8) {n i : Nat} (hi : i < n) :
    climb (leaf i) i (siblings leaf n i (Nat.clog 2 n)) = nodeValue leaf n (Nat.clog 2 n) 0 := by
  have htop := ancestor_lt_levelSize hi (Nat.clog 2 n)
  rw [levelSize_clog (by omega)] at htop
  rw [climb_siblings leaf hi, Nat.lt_one_iff.mp htop]

theorem proveInclusion_of_room {s : State} {room i : Nat} (hv : s.treeValid = true) (hi : i < s.treeN.toNat)
    (hroom : s.treeDepth.toNat ≤ room) {proof : List Words8}
    (hread : readSlots s.mem (siblingSlots 0 i (levelSizes maxLevels s.treeN.toNat)) = some proof) :
    proveInclusion s room i = .ok proof := by
  rw [proveInclusion, if_neg (by simp [hv]), if_neg (Nat.not_le.mpr hi), if_neg (Nat.not_lt.mpr hroom), hread]

theorem proveInclusion_of_noRoom {s : State} {room i : Nat} (hv : s.treeValid = true) (hi : i < s.treeN.toNat)
    (hroom : room < s.treeDepth.toNat) : proveInclusion s room i = .error .bufferTooSmall := by
  rw [proveInclusion, if_neg (by simp [hv]), if_neg (Nat.not_le.mpr hi), if_pos hroom]

/-! ## The order of nodes -/

/-- The bytes of a node as numbers: `cmp` is the lexicographic order on them. -/
def nodeKey (x : Words8) : List Nat := (ser x).map BitVec.toNat

theorem byteLt_iff {as bs : List Byte} (h : as.length = bs.length) :
    byteLt as bs = true ↔ as.map BitVec.toNat < bs.map BitVec.toNat := by
  induction as generalizing bs with
  | nil => cases bs with
    | nil => simp [byteLt]
    | cons b bs => simp at h
  | cons a as ih => cases bs with
    | nil => simp at h
    | cons b bs =>
      rw [List.map_cons, List.map_cons, List.cons_lt_cons_iff, ← ih (Nat.succ.inj h), byteLt]
      rcases Nat.lt_trichotomy a.toNat b.toNat with hlt | heq | hgt
      · simp [hlt]
      · simp [heq]
      · simp [hgt, Nat.lt_asymm hgt, Nat.ne_of_gt hgt]

theorem nodeLt_iff (a b : Words8) : nodeLt a b = true ↔ nodeKey a < nodeKey b := byteLt_iff rfl

theorem nodeKey_injective : Function.Injective nodeKey := fun a b h => by
  have hser : ser a = ser b := List.map_injective_iff.mpr (fun _ _ => BitVec.eq_of_toNat_eq) h
  rw [← words_ser a, hser, words_ser]

theorem nodeLt_irrefl (a : Words8) : ¬ nodeLt a a = true := by
  rw [nodeLt_iff]
  exact lt_irrefl _

/-- Of two different nodes one lies below the other. -/
theorem nodeLt_of_not_nodeLt {a b : Words8} (h : ¬ nodeLt a b = true) (hne : a ≠ b) : nodeLt b a = true := by
  rw [nodeLt_iff] at *
  exact lt_of_le_of_ne (not_lt.mp h) fun hkey => hne (nodeKey_injective hkey.symm)

/-! ## Sorted leaves and the insertion point (R192, R193) -/

theorem sortedLeaves_iff (leaves : List Words8) :
    sortedLeaves leaves = true ↔ leaves.Pairwise fun a b => nodeKey a ≤ nodeKey b := by
  rw [← List.pairwise_map, ← List.isChain_iff_pairwise]
  induction leaves using sortedLeaves.induct with
  | case1 => simp [sortedLeaves]
  | case2 x => simp [sortedLeaves]
  | case3 a b rest ih =>
    have hlt : (!nodeLt b a) = true ↔ nodeKey a ≤ nodeKey b := by
      rw [Bool.not_eq_true', ← Bool.not_eq_true, nodeLt_iff, not_lt]
    simp only [sortedLeaves, Bool.and_eq_true, hlt, ih, List.map_cons, List.isChain_cons_cons]

theorem insertionPoint_le (leaves : List Words8) (target : Words8) : insertionPoint leaves target ≤ leaves.length :=
  List.countP_le_length

/-- Below the insertion point stand exactly the leaves below the target. -/
theorem nodeLt_getElem_iff {leaves : List Words8} (hs : sortedLeaves leaves = true) (target : Words8) {k : Nat}
    (hk : k < leaves.length) : nodeLt leaves[k] target = true ↔ k < insertionPoint leaves target := by
  rw [sortedLeaves_iff] at hs
  induction leaves generalizing k with
  | nil => simp at hk
  | cons x xs ih =>
    obtain ⟨hx, hxs⟩ := List.pairwise_cons.mp hs
    by_cases hlt : nodeLt x target = true
    · have hp : insertionPoint (x :: xs) target = insertionPoint xs target + 1 := List.countP_cons_of_pos hlt
      cases k with
      | zero => simp [hlt, hp]
      | succ k => rw [hp, Nat.succ_lt_succ_iff, ← ih hxs]; rfl
    · have hnone : ∀ y ∈ x :: xs, ¬ nodeLt y target = true := by
        simp only [nodeLt_iff, not_lt] at *
        exact List.forall_mem_cons.mpr ⟨hlt, fun y hy => hlt.trans (hx y hy)⟩
      have hp : insertionPoint (x :: xs) target = 0 := List.countP_eq_zero.mpr hnone
      simp [hp, hnone _ (List.getElem_mem hk)]

theorem nodeKey_getElem_mono {leaves : List Words8} (hs : sortedLeaves leaves = true) {j k : Nat} (hjk : j ≤ k)
    (hk : k < leaves.length) : nodeKey leaves[j] ≤ nodeKey leaves[k] := by
  rcases Nat.eq_or_lt_of_le hjk with rfl | hlt
  · exact le_refl _
  · exact List.pairwise_iff_getElem.mp ((sortedLeaves_iff leaves).mp hs) j k _ hk hlt

/-- A present target stands at its insertion point. -/
theorem mem_iff_getD_insertionPoint {leaves : List Words8} (hs : sortedLeaves leaves = true) (target : Words8) :
    target ∈ leaves ↔ insertionPoint leaves target < leaves.length ∧
      leaves.getD (insertionPoint leaves target) zeroWords = target := by
  constructor
  · intro hmem
    obtain ⟨k, hk, hkt⟩ := List.getElem_of_mem hmem
    have hpk : insertionPoint leaves target ≤ k :=
      Nat.not_lt.mp fun hkp => nodeLt_irrefl target (hkt ▸ (nodeLt_getElem_iff hs target hk).mpr hkp)
    have hp := Nat.lt_of_le_of_lt hpk hk
    have hle : nodeKey leaves[insertionPoint leaves target] ≤ nodeKey target :=
      (nodeKey_getElem_mono hs hpk hk).trans_eq (congrArg nodeKey hkt)
    have hge : nodeKey target ≤ nodeKey leaves[insertionPoint leaves target] := by
      rw [← not_lt, ← nodeLt_iff, nodeLt_getElem_iff hs target hp]
      exact Nat.lt_irrefl _
    rw [List.getD_eq_getElem _ _ hp]
    exact ⟨hp, nodeKey_injective (le_antisymm hle hge)⟩
  · rintro ⟨hp, htarget⟩
    rw [← htarget, List.getD_eq_getElem _ _ hp]
    exact List.getElem_mem hp

/-! ## Non-inclusion proofs (R193 to R195) -/

theorem answers_of_eq_answerIn {room idx : Nat} {proof : List Words8} {answer : Except ConsumerStop (List Words8 × Nat)}
    (h : answer = answerIn room proof idx) :
    (proof.length ≤ room → answer = .ok (proof, idx)) ∧ (room < proof.length → answer = .error .bufferTooSmall) :=
  ⟨fun hroom => by rw [h, answerIn, if_neg (Nat.not_lt.mpr hroom)], fun hroom => by rw [h, answerIn, if_pos hroom]⟩

theorem proveNonInclusion_of_unsorted {leaves : List Words8} (hs : sortedLeaves leaves = false) (room : Nat)
    (target : Words8) (draw : Nat) : proveNonInclusion leaves room target draw = .error .unsortedLeaves := if_pos hs

theorem proveNonInclusion_of_mem {leaves : List Words8} {target : Words8} (hs : sortedLeaves leaves = true)
    (hmem : target ∈ leaves) (room draw : Nat) :
    proveNonInclusion leaves room target draw = answerIn room [] (Config.freeNeighborIndex draw) := by
  rw [proveNonInclusion, if_neg (by simp [hs])]
  exact if_pos ((mem_iff_getD_insertionPoint hs target).mp hmem)

/-- The proof and the index of a target absent from the leaves, by its insertion point (R193, D26). -/
def boundingLeaves (leaves : List Words8) (p : Nat) : List Words8 × Nat :=
  if p = leaves.length then ([leaves.getD (p - 1) zeroWords], p - 1)
  else if p = 0 then ([leaves.getD 0 zeroWords], 0)
  else ([leaves.getD (p - 1) zeroWords, leaves.getD p zeroWords], p - 1)

theorem boundingLeaves_above {leaves : List Words8} {p : Nat} (h : p = leaves.length) :
    boundingLeaves leaves p = ([leaves.getD (leaves.length - 1) zeroWords], leaves.length - 1) := by
  rw [boundingLeaves, if_pos h, h]

theorem boundingLeaves_below {leaves : List Words8} {p : Nat} (hlen : 1 ≤ leaves.length) (h : p = 0) :
    boundingLeaves leaves p = ([leaves.getD 0 zeroWords], 0) := by
  rw [boundingLeaves, if_neg (by omega), if_pos h]

theorem boundingLeaves_between {leaves : List Words8} {p : Nat} (h0 : 0 < p) (h : p < leaves.length) :
    boundingLeaves leaves p = ([leaves.getD (p - 1) zeroWords, leaves.getD p zeroWords], p - 1) := by
  rw [boundingLeaves, if_neg (by omega), if_neg (by omega)]

theorem proveNonInclusion_of_notMem {leaves : List Words8} {target : Words8} (hs : sortedLeaves leaves = true)
    (hmem : target ∉ leaves) (room draw : Nat) :
    proveNonInclusion leaves room target draw =
      answerIn room (boundingLeaves leaves (insertionPoint leaves target)).1
        (boundingLeaves leaves (insertionPoint leaves target)).2 := by
  rw [proveNonInclusion, if_neg (by simp [hs])]
  refine (if_neg (mt (mem_iff_getD_insertionPoint hs target).mpr hmem)).trans ?_
  unfold boundingLeaves
  split
  · rfl
  · split <;> rfl

theorem verifyNonInclusion_singleton (root target : Words8) (n : Nat) (x : Words8) (idx : Nat) :
    verifyNonInclusion root target n [x] idx = true ↔ target ≠ x := decide_eq_true_iff

theorem verifyNonInclusion_pair (root target : Words8) (n : Nat) (x y : Words8) (idx : Nat) :
    verifyNonInclusion root target n [x, y] idx = true ↔ nodeLt x target = true ∧ nodeLt target y = true :=
  Bool.and_eq_true_iff

theorem verifyNonInclusion_of_length (root target : Words8) (n : Nat) {proof : List Words8} (idx : Nat)
    (h1 : proof.length ≠ 1) (h2 : proof.length ≠ 2) : verifyNonInclusion root target n proof idx = false := by
  match proof with
  | [] | _ :: _ :: _ :: _ => rfl
  | [_] => exact absurd rfl h1
  | [_, _] => exact absurd rfl h2

/-- The bounding leaves prove an absent target's absence. -/
theorem verifyNonInclusion_boundingLeaves (root : Words8) (n idx : Nat) {leaves : List Words8} {target : Words8}
    (hlen : 1 ≤ leaves.length) (hs : sortedLeaves leaves = true) (hmem : target ∉ leaves) :
    verifyNonInclusion root target n (boundingLeaves leaves (insertionPoint leaves target)).1 idx = true := by
  have hne {k : Nat} (hk : k < leaves.length) : target ≠ leaves.getD k zeroWords := fun h =>
    hmem (by rw [h, List.getD_eq_getElem _ _ hk]; exact List.getElem_mem hk)
  have hlt {k : Nat} (hk : k < leaves.length) :
      nodeLt (leaves.getD k zeroWords) target = true ↔ k < insertionPoint leaves target := by
    rw [List.getD_eq_getElem _ _ hk, nodeLt_getElem_iff hs]
  have hp := insertionPoint_le leaves target
  generalize insertionPoint leaves target = p at *
  rcases Nat.eq_or_lt_of_le hp with htop | hbelow
  · rw [boundingLeaves_above htop, verifyNonInclusion_singleton]
    exact hne (by omega)
  rcases Nat.eq_zero_or_pos p with hzero | hpos
  · rw [boundingLeaves_below hlen hzero, verifyNonInclusion_singleton]
    exact hne (by omega)
  · rw [boundingLeaves_between hpos hbelow, verifyNonInclusion_pair]
    exact ⟨(hlt (by omega)).mpr (by omega),
      nodeLt_of_not_nodeLt ((hlt hbelow).not.mpr (Nat.lt_irrefl p)) (hne hbelow).symm⟩

theorem proveNonInclusionOf_of_noRoom {s : State} {room : Nat} (hv : s.treeValid = true)
    (hroom : room < s.treeDepth.toNat) (target : Words8) (draw : Nat) :
    proveNonInclusionOf s room target draw = .error .bufferTooSmall := by
  rw [proveNonInclusionOf, if_neg (by simp [hv]), if_pos hroom]

theorem proveNonInclusionOf_of_room {s : State} {room : Nat} (hv : s.treeValid = true)
    (hroom : s.treeDepth.toNat ≤ room) {leaves : List Words8} (hread : readNodes s.mem 0 s.treeN.toNat = some leaves)
    (target : Words8) (draw : Nat) :
    proveNonInclusionOf s room target draw = proveNonInclusion leaves room target draw := by
  rw [proveNonInclusionOf, if_neg (by simp [hv]), if_neg (Nat.not_lt.mpr hroom), hread]

end Sys2Proof.Machine

open Sys2Proof Sys2Proof.Machine

/-- Settles O57: the slots the consumer reads hold the siblings of the leaf's ancestors, and combining the leaf with them goes
through those ancestors up to the root. -/
theorem inclusionProofsVerify : Obligations.InclusionProofsVerify := by
  refine ⟨fun s room i leaf hs hv hi hleaf => ⟨fun hroom => ?_, proveInclusion_of_noRoom hv hi⟩, fun leaf i proof => ?_⟩
  · obtain ⟨-, -, hdepth, leafAt, hheld, hroot⟩ := hs hv
    obtain rfl : leafAt i = leaf := by
      have h0 := hheld 0 (Nat.zero_le _) i hi
      rw [levelOffset, Nat.zero_add, hleaf] at h0
      exact (Option.some.inj h0).symm
    rw [hdepth] at hheld hroot
    refine ⟨siblings leafAt s.treeN.toNat i s.treeDepth.toNat, ?_, siblings_length .., fun l hl => ?_, ?_⟩
    · rw [hdepth]
      exact proveInclusion_of_room hv hi hroom (readSlots_siblings hheld hi (Nat.le_of_lt s.treeN.isLt))
    · rw [siblings_getD leafAt _ i hl]
      exact readNode_sibling hheld hi (hdepth ▸ hl)
    · rw [hdepth, hroot]
      exact decide_eq_true (climb_siblings_root leafAt hi)
  · refine ⟨fun l => climb leaf i (proof.take l), rfl, fun l hl => climb_take_succ leaf i proof hl, fun root n => ?_⟩
    simp only [List.take_length, verifyInclusion, decide_eq_true_eq]

/-- Settles O58: the leaves are sorted, so the insertion point separates those below the target from the others, and the leaf at
it is the target or lies above it. -/
theorem nonInclusionProofs : Obligations.NonInclusionProofs := by
  intro leaves target root draw room n hlen p answers
  refine ⟨fun hs => ⟨insertionPoint_le leaves target, fun k hk => nodeLt_getElem_iff hs target hk⟩,
    fun hs hmem => ⟨_, _, answers_of_eq_answerIn (proveNonInclusion_of_notMem hs hmem room draw),
      verifyNonInclusion_boundingLeaves root n _ hlen hs hmem,
      fun h => Prod.mk.inj (boundingLeaves_above h), fun h => Prod.mk.inj (boundingLeaves_below hlen h),
      fun h0 h => Prod.mk.inj (boundingLeaves_between h0 h)⟩,
    fun hs hmem => ⟨_, answers_of_eq_answerIn (proveNonInclusion_of_mem hs hmem room draw), rfl⟩,
    fun hs => proveNonInclusion_of_unsorted hs room target draw,
    fun s hv hn hread => ⟨fun hroom => proveNonInclusionOf_of_noRoom hv hroom target draw,
      fun hroom => proveNonInclusionOf_of_room hv hroom
        ((readNodes_eq_some _ _ _ _).mpr ⟨hn, fun k hk => by rw [Nat.zero_add]; exact hread k hk⟩) target draw⟩,
    fun x y proof idx => ⟨verifyNonInclusion_singleton .., verifyNonInclusion_pair ..,
      verifyNonInclusion_of_length root target n idx⟩⟩

end

section
/-! Exceptions (60_exceptions.md): the error code of a completion (R201 to R203), the unwritten operand byte (R220, 10_state.md
R42, R43), the access while busy (R209) and the interrupt output (R207). -/

namespace Sys2Proof.Machine

/-! ## Where a command stops (R220) -/

theorem exec_fault_iff (i : Instr) (s : State) (f : Fault) :
    exec i s = .fault f ↔ reportedError i s = .ok ∧ effect i s = none := by
  obtain ⟨he, hx⟩ | ⟨u, -, hu, hx⟩ | ⟨he, hu, hx⟩ := exec_cases i s
  · simp [hx, he]
  · simp [hx, hu]
  · cases f
    simp [hx, he, hu]

theorem readMessage_eq_none (s : State) :
    readMessage s = none ↔ ∃ k, k < s.len.toNat ∧ Memory.read s.mem (0x10000 + k) = none :=
  readBytes_eq_none s.mem dinBase s.len.toNat

theorem readBlock_eq_none (s : State) : readBlock s = none ↔ ∃ k, k < 64 ∧ Memory.read s.mem (0x10000 + k) = none :=
  readBytes_eq_none s.mem dinBase 64

/-- A command has no effect exactly where a byte of the operand it reads is unwritten: the message, the block or the leaves. -/
theorem effect_eq_none_iff (i : Instr) (s : State) :
    effect i s = none ↔
      ((i = .ctxUpdate ∨ i = .hash) ∧ ∃ k, k < s.len.toNat ∧ Memory.read s.mem (0x10000 + k) = none) ∨
        (i = .compress ∧ ∃ k, k < 64 ∧ Memory.read s.mem (0x10000 + k) = none) ∨
        (i = .treeBuild ∧ ∃ k, k < 32 * s.len.toNat ∧ Memory.read s.mem (0x1000000 + k) = none) := by
  cases i with
  | ctxUpdate | hash => simp [effect, readMessage_eq_none]
  | compress => simp [effect, readBlock_eq_none]
  | treeBuild =>
    have hleaves := readNodes_eq_none s.mem 0 s.len.toNat
    rw [show slotAddr 0 = 0x1000000 from rfl] at hleaves
    simp [effect, hleaves]
  | ctxInit | ctxFinal | ctxExport | ctxImport | treeFree => simp [effect]

/-! ## The code of a completion (R202) -/

theorem exec_errcode {i : Instr} {s t : State} (h : exec i s = .next t) : t.errcode = reportedError i s := by
  obtain ⟨-, rfl⟩ | ⟨u, he, -, rfl⟩ := exec_next h
  · rfl
  · exact he.symm

/-! ## Access while busy (R209) -/

/-- A write to `CTRL` reaches the register, busy or not. -/
theorem ctrlWrite (v : Word) (s : State) :
    busAccess (writeAccess 0x008 v) s = .next (respondWrite (regWrite .ctrl v s)) :=
  busAccess_registerWrite (a := writeAccess 0x008 v) (by decide : (0x008 : Word).toNat % 4 = 0) rfl rfl
    (by decide : (0x008 : Word).toNat < 0x10000) fun _ => rfl

theorem busy_write_rejected {a : BusAccess} {s : State} (hb : s.busy = true) (hw : a.we = true) (ha : a.addr ≠ 0x008) :
    BusAccess.rejected a s := .inr (.inr (.inr (.inl ⟨hb, hw, ha⟩)))

/-- The registers whose reads keep their value while busy. -/
theorem freeWhileBusy_eq_false_iff (r : Reg) :
    freeWhileBusy r = false ↔ r ∈ [.status, .ctrl, .cmd, .capMaxLeaves, .capDinBytes, .reserved, .len] := by
  cases r <;> simp [freeWhileBusy]

theorem busy_registerRead {a : BusAccess} {s : State} (hb : s.busy = true) (hlegal : BusAccess.legal a)
    (hw : a.we = false) (hlo : a.addr.toNat < 0x10000) :
    busAccess a s = .next (if freeWhileBusy (regAt a.addr.toNat) = true then respondFree s
      else respondRead (regRead (regAt a.addr.toNat) s) s) := by
  obtain ⟨hsize, haligned⟩ := hlegal
  rw [busAccess_registerRead haligned hsize hw hlo, hb, Bool.true_and, apply_ite Host.Outcome.next]

/-- A legal read outside the holes passes the checks (20_memory.md R68). -/
theorem read_accepted_of_legal {a : BusAccess} (hlegal : BusAccess.legal a) (hw : a.we = false)
    (hhole : ¬ InHole a.addr.toNat) (s : State) : ¬ BusAccess.rejected a s := by
  obtain ⟨hsize, haligned⟩ := hlegal
  simp [BusAccess.rejected, hsize, haligned, hhole, hw]

/-! ## The interrupt output (R207) -/

/-- No engine turn writes `CTRL.IRQ_EN`. -/
theorem execute_irqEn {op : Word} {s t : State} (h : execute op s = .next t) : t.irqEn = s.irqEn := by
  cases hd : decode op with
  | ok i =>
    obtain ⟨-, -, -, -, -, -, -, -, -, -, hirqEn, -⟩ := exec_onlyWrites ((execute_of_command hd s).symm.trans h)
    exact hirqEn
  | error e =>
    cases (execute_of_badCmd hd s).symm.trans h
    rfl

theorem irq_of_done {s : State} (h : s.done = true) : s.irq = s.irqEn := by
  rw [State.irq, h, Bool.true_and]

theorem irq_of_notDone {s : State} (h : s.done = false) : s.irq = false := by
  rw [State.irq, h, Bool.false_and]

theorem irq_of_masked {s : State} (h : s.irqEn = false) : s.irq = false := by
  rw [State.irq, h, Bool.and_false]

end Sys2Proof.Machine

open Sys2Proof Sys2Proof.Machine

/-- Settles O27: with its checks passed a command faults where it has no effect, and that is where its operand has an unwritten
byte. -/
theorem unwrittenOperandsFault : Obligations.UnwrittenOperandsFault := fun i s f => by
  rw [exec_fault_iff, effect_eq_none_iff]

/-- Settles O43: a busy write is rejected unless it is to `CTRL`, and a busy read answers the register's value where R209 lists
it and a free value elsewhere. -/
theorem accessWhileBusy : Obligations.AccessWhileBusy := by
  refine fun s hb => ⟨fun a _ hw ha => ?_, fun v hv => ?_, fun v hv => ?_, fun a hlegal hw hlo hr => ?_,
    fun a hlegal hw hlo hr => ?_, fun a hlegal hw hlo hhole => ?_⟩
  · rw [busAccess_of_rejected (busy_write_rejected hb hw ha), hw]
    rfl
  · rw [ctrlWrite, regWrite_ctrl_of_noReset hv]
    rfl
  · rw [ctrlWrite, regWrite, if_pos hv]
    rfl
  · have hkept := (freeWhileBusy_eq_false_iff _).mpr hr
    rw [busy_registerRead hb hlegal hw hlo, if_neg (by simp [hkept])]
    rfl
  · have hfree := eq_true_of_ne_false (mt (freeWhileBusy_eq_false_iff _).mp hr)
    rw [busy_registerRead hb hlegal hw hlo, if_pos hfree]
    rfl
  · rw [busAccess_of_accepted_windowRead (read_accepted_of_legal hlegal hw hhole s) hw hlo, windowRead_of_busy hb]
    rfl

/-- Settles O25: a command completes with its reported error, `OK` where no check fails. -/
theorem errorCodesFollowTheCheckOrder : Obligations.ErrorCodesFollowTheCheckOrder := fun _ _ _ => exec_errcode

/-- Settles O26: a failing check and a word that is no command end in `finish`, which writes `STATUS` only. -/
theorem errorCompletionsChangeOnlyStatus : Obligations.ErrorCompletionsChangeOnlyStatus :=
  ⟨fun _ _ => exec_of_error, fun _ _ s hd => execute_of_badCmd hd s⟩

/-- Settles O49: every completion sets `DONE`; an issue, a write of 1 to `STATUS[1]` and the resets clear it, and a write of 0 to
`IRQ_EN` masks it. -/
theorem interruptFollowsDone : Obligations.InterruptFollowsDone := by
  refine ⟨fun s => ?_, fun op s t h => ?_, fun s w hb => ⟨_, idle_cmdWrite hb w, irq_of_notDone rfl⟩,
    fun s v hb hv => ⟨_, writingStatusClearsDone s v hb, irq_of_notDone (if_pos hv)⟩, fun s v hreset hmask => ?_,
    fun s => ⟨irq_of_notDone rfl, irq_of_notDone rfl⟩⟩
  · rw [status_done, ctrl_irqEn, State.irq]
  · obtain ⟨-, hdone⟩ := execute_completes h
    exact (irq_of_done hdone).trans (execute_irqEn h)
  · have hwrite := ctrlWrite v s
    rw [regWrite_ctrl_of_noReset hreset] at hwrite
    exact ⟨_, hwrite, irq_of_masked hmask, rfl⟩

end

section
/-! Reset and hazards (70_reset_and_hazards.md): what a reset leaves of the command in flight (R231, R232) and that every issued
command completes (R245). -/

namespace Sys2Proof.Machine

/-! ## The registers after a reset (R230) -/

/-- Both resets leave the registers of `resetRegisters`; they differ in the windows and in the bus answer. -/
theorem reset_cases {s t : State} (h : t = softReset s ∨ t = powerOnReset s) :
    ∃ m answer, t = { resetRegisters s with mem := m, busResp := answer } := by
  obtain rfl | rfl := h
  · exact ⟨memAfterSoftReset s, s.busResp, rfl⟩
  · exact ⟨[], none, rfl⟩

/-- Every register but the two capacities reads 0 after a reset (10_state.md R48). -/
theorem regRead_reset {s t : State} (h : t = softReset s ∨ t = powerOnReset s) {r : Reg} (hleaves : r ≠ .capMaxLeaves)
    (hdin : r ≠ .capDinBytes) : regRead r t = 0 := by
  obtain ⟨m, answer, rfl⟩ := reset_cases h
  cases r with
  | capMaxLeaves => exact absurd rfl hleaves
  | capDinBytes => exact absurd rfl hdin
  | status => exact statusWord_eq_zero rfl rfl rfl rfl rfl rfl
  | sio k | digest k | treeRoot k => exact zeroWords_get k
  | cmd | ctrl | len | treeN | treeDepth | cioLo | cioHi | reserved => rfl

/-! ## The windows after a soft reset (R232) -/

theorem engine_of_buildInFlight {s : State} (h : buildInFlight s = true) : s.engine = .exec (encode .treeBuild) := by
  unfold buildInFlight at h
  split at h
  next => cases h
  next op hop =>
    split at h
    next hd => rw [hop, eq_encode_of_decode hd]
    next => cases h

theorem memAfterSoftReset_of_noBuild {s : State} (h : s.engine ≠ .exec (encode .treeBuild)) :
    memAfterSoftReset s = s.mem :=
  if_neg (mt engine_of_buildInFlight h)

/-- A soft reset neither writes nor unwrites a byte (log 7). -/
theorem read_memAfterSoftReset_isSome (s : State) (a : Nat) :
    (Memory.read (memAfterSoftReset s) a).isSome = (Memory.read s.mem a).isSome := by
  unfold memAfterSoftReset
  split
  · rw [read_havocFrom]
    split
    · exact Option.isSome_map
    · rfl
  · rfl

/-- Below the first slot a build writes, a soft reset keeps every byte (R232). -/
theorem read_memAfterSoftReset_of_lt {s : State} {a : Nat} (h : a < slotAddr s.len.toNat) :
    Memory.read (memAfterSoftReset s) a = Memory.read s.mem a := by
  unfold memAfterSoftReset
  split
  · rw [read_havocFrom, if_neg (Nat.not_le.mpr h)]
  · rfl

/-! ## A busy engine under host accesses (60_exceptions.md R209) -/

/-- While busy the one write that passes the checks is a word to `CTRL`. -/
theorem eq_ctrlWrite_of_accepted {a : BusAccess} {s : State} (hb : s.busy = true) (h : ¬ BusAccess.rejected a s)
    (hw : a.we = true) : a = writeAccess 0x008 a.wdata := by
  simp only [BusAccess.rejected, not_or, not_and, not_not] at h
  obtain ⟨-, hsize, -, haddr, -⟩ := h
  cases a
  cases hw
  cases hsize
  cases haddr hb rfl
  rfl

/-- A busy access that is no soft reset is answered, and leaves the command in flight. -/
theorem busy_access_engine {a : BusAccess} {s : State} (hb : s.busy = true) (hnr : ¬ BusAccess.softResets a) :
    ∃ t, busAccess a s = .next t ∧ t.engine = s.engine ∧ t.script = s.script := by
  obtain ⟨-, he⟩ | ⟨hacc, hw, -⟩ | ⟨-, -, -, ⟨-, he⟩ | ⟨v, he⟩⟩ | ⟨-, -, -, he⟩ := busAccess_cases a s
  · exact ⟨_, he, rfl, rfl⟩
  · have ha := eq_ctrlWrite_of_accepted hb hacc hw
    have hv : a.wdata.getLsbD 1 = false :=
      Bool.eq_false_of_not_eq_true fun hv => hnr (ha ▸ ⟨rfl, rfl, rfl, hv⟩)
    have he := ctrlWrite a.wdata s
    rw [regWrite_ctrl_of_noReset hv, ← ha] at he
    exact ⟨_, he, rfl, rfl⟩
  · exact ⟨_, he, rfl, rfl⟩
  · exact ⟨_, he, rfl, rfl⟩
  · exact ⟨_, he.trans (windowRead_of_busy hb _), rfl, rfl⟩

/-! ## Completion (R245) -/

/-- The outcome is a completion, or the stop on an unwritten byte (60_exceptions.md R220). -/
def EndsCommand (o : Host.Outcome State Fault Refusal) : Prop :=
  (∃ t, o = .next t ∧ t.busy = false ∧ t.done = true) ∨ o = .fault .unwrittenRead

/-- A busy engine's turn ends its command. -/
theorem engineStep_endsCommand {s : State} (hb : s.busy = true) : EndsCommand (engineStep s) := by
  obtain ⟨op, hop⟩ := (busy_iff s).mp hb
  cases hx : engineStep s with
  | next t => exact .inl ⟨t, rfl, execute_completes ((engineStep_of_exec hop).symm.trans hx)⟩
  | fault f => exact .inr rfl
  | refused r => exact absurd hx (engineStep_ne_refused s r)

theorem run_one_endsCommand {s : State} (h : EndsCommand (step s)) : EndsCommand (Sys2Proof.core.run 1 s) := by
  obtain ⟨t, hx, hdone⟩ | hx := h
  · exact .inl ⟨t, run_succ 0 hx, hdone⟩
  · exact .inr (run_fault 0 hx)

/-- The script is spent an event at a time: an access leaves the command in flight, the first engine turn ends it, and a busy
engine has its turn where the script is empty. -/
theorem exists_run_endsCommand {s : State} (hb : s.busy = true) (hreset : ∀ e ∈ s.script, ¬ Event.resets e) :
    ∃ k, k ≤ s.script.length + 1 ∧ EndsCommand (Sys2Proof.core.run k s) := by
  generalize hs : s.script = script at hreset ⊢
  induction script generalizing s with
  | nil => exact ⟨1, Nat.le_refl _, run_one_endsCommand (step_of_empty hs ▸ engineStep_endsCommand hb)⟩
  | cons e rest ih =>
    have hstep := step_of_cons hs
    cases e with
    | access a =>
      obtain ⟨t, hx, hengine, hscript⟩ := busy_access_engine (s := { s with script := rest }) hb
        (hreset (.access a) List.mem_cons_self)
      have htb : t.busy = true := (busy_iff t).mpr (hengine ▸ (busy_iff s).mp hb)
      obtain ⟨k, hk, hrun⟩ := ih htb hscript fun e he => hreset e (List.mem_cons_of_mem _ he)
      exact ⟨k + 1, Nat.succ_le_succ hk, run_succ k (hstep.trans hx) ▸ hrun⟩
    | engineTurn =>
      have hturn := engineStep_endsCommand (s := { s with script := rest }) hb
      exact ⟨1, Nat.succ_le_succ (Nat.zero_le _), run_one_endsCommand (hstep ▸ hturn)⟩
    | powerOn => exact absurd trivial (hreset .powerOn List.mem_cons_self)

end Sys2Proof.Machine

open Sys2Proof Sys2Proof.Machine

/-- Settles O51: both resets write the reset values whatever is in flight, and a soft reset touches the windows only where it
abandons a build. -/
theorem abandonedCommandHasNoEffect : Obligations.AbandonedCommandHasNoEffect := by
  refine fun s _ => ⟨fun t ht => ?_, read_memAfterSoftReset_isSome s, fun _ => read_memAfterSoftReset_of_lt,
    memAfterSoftReset_of_noBuild⟩
  have hregs (r : Reg) (hleaves : r ≠ .capMaxLeaves) (hdin : r ≠ .capDinBytes) := regRead_reset ht hleaves hdin
  obtain ⟨m, answer, rfl⟩ := reset_cases ht
  exact ⟨rfl, rfl, irq_of_notDone rfl, rfl, rfl, hregs⟩

/-- Settles O52: by induction on the script, each access leaving the command in flight until the engine's turn ends it. -/
theorem everyCommandCompletes : Obligations.EveryCommandCompletes := fun _ => exists_run_endsCommand

/-- Settles O50: the write reaches `CTRL`, busy or not, and where bit 1 is set `CTRL` does not look at bit 0. -/
theorem softResetByCtrlWrite : Obligations.SoftResetByCtrlWrite := by
  refine ⟨fun s v rest hv hs => ?_, softReset_irqEn, ctrl_softReset⟩
  have hwrite := ctrlWrite v { s with script := rest }
  rw [regWrite, if_pos hv] at hwrite
  exact (step_of_cons hs).trans hwrite

end

section

/-! # The order of 32-byte values (43_proof_consumer.md Notation, log 19) -/

namespace Sys2Proof.Machine

/-- Of two strings of one length neither is a proper prefix of the other, so that the order on them is decided at the first
byte in which they differ. -/
theorem byteLt_iff_exists {as bs : List Byte} (h : as.length = bs.length) :
    byteLt as bs = true ↔
      ∃ k, k < as.length ∧ (∀ j, j < k → as.getD j 0 = bs.getD j 0) ∧ (as.getD k 0).toNat < (bs.getD k 0).toNat := by
  have hnoPrefix : ¬ (as.map BitVec.toNat).length < (bs.map BitVec.toNat).length := by simp [h]
  rw [byteLt_iff h, List.lt_iff_exists, or_iff_right fun hprefix => hnoPrefix hprefix.2]
  simp only [List.getElem_map, List.length_map, BitVec.toNat_inj]
  refine exists_congr fun k => ⟨fun ⟨hk, _, hfirst⟩ => ⟨hk, ?_⟩, fun ⟨hk, hfirst⟩ => ⟨hk, h ▸ hk, ?_⟩⟩
  all_goals simpa +contextual (disch := omega) only [List.getD_eq_getElem] using hfirst

end Sys2Proof.Machine

open Sys2Proof Sys2Proof.Machine

/-- Settles O59: `cmp` compares the 32 bytes of the two serialized values. -/
theorem compareIsLexicographic : Obligations.CompareIsLexicographic := fun _ _ => byteLt_iff_exists rfl

end
